-- ==== Sys2Proof/Word.lean ====
section
/-! DEFINITION. The widths of the CORE's values (00_scope section 4) and its small enumerations
(30_encoding R70 to R73). Counts of timer ticks (W = CNT_BITS bits), counts of polls (POLL_BITS) and analog
samples (ADC_BITS) have widths that are parameters: they are numbers below 2 to the width, cut to it where a
register or an operand takes them (log 1). -/

namespace Sys2Proof

/-- THR_BITS, the width of THRESHOLD, and of DIST and THRU (R29, R37). -/
abbrev ThrBits : Nat := 9

/-- STATE_BITS, the width of STATE (R27). -/
abbrev StateBits : Nat := 2

/-- A byte on a bus, a segment byte, a character code. -/
abbrev Byte := BitVec 8

/-- A distance or a threshold (R75). -/
abbrev Dist := BitVec ThrBits

/-- A display text: character codes, any length (R79). -/
abbrev Text := List Byte

/-- ButtonEvent (R70). -/
inductive Button where
  | none | mode | up | down
deriving DecidableEq, Repr, Inhabited

/-- MeasurementUnit (R72). -/
inductive MeasureUnit where
  | centimeters | inches
deriving DecidableEq, Repr, Inhabited

/-- The edge selection (R73). -/
inductive Edge where
  | rising | falling
deriving DecidableEq, Repr, Inhabited

/-- The direction of DIO (R73). -/
inductive Dir where
  | out | inPullup
deriving DecidableEq, Repr, Inhabited

/-- The parameter OVERCAPTURE (R105). -/
inductive Overcapture where
  | overwrite | hold | either
deriving DecidableEq, Repr, Inhabited

/-- The parameter CM2IN (R215, 93 U10) as plain data: the spec's default formula, or a value for every operand
of nine bits (log 27). -/
inductive Cm2In where
  | formula
  | table (values : Vector Dist 512)
deriving DecidableEq, Repr

/-- The named delays of 00_scope section 4. -/
inductive DelayParam where
  | trig | setup | hold | start | stop | settle | gap | setupTick
deriving DecidableEq, Repr, Inhabited

end Sys2Proof
end

