-- ==== Sys2Proof/Syntax.lean ====
section
/-! DEFINITION. The CORE's operations: one constructor for every row of spec/opcode_table.json, with the
operands 30_encoding R92 names. -/

namespace Sys2Proof

/-- The three word spaces of the table: the operation index OPX (6 bits, R92), the dispatch word DW of
TICK (4 bits, R87), the display command byte (8 bits, R83 to R85). The same number can be a word of two of
them, so a word is read in a space (log 11). -/
inductive WordSpace where
  | opx | dw | cmd
deriving DecidableEq, Repr, Inhabited

/-- An operation as it is launched: the space its word stands in, the word's byte, the bytes of its
operands (log 11). -/
structure OpWord where
  space : WordSpace
  bytes : List Byte
deriving DecidableEq, Repr, Inhabited

/-- An operation with its operands. An operand whose width is a parameter (W, POLL_BITS, ADC_BITS) is a number;
its operation reads it in that width (log 1). -/
inductive Instr where
  /-- R101 -/
  | cntTick
  /-- R103 -/
  | echoRise
  /-- R104 -/
  | echoFall
  /-- R106 -/
  | cfClear
  /-- R107 -/
  | setEdgeRising
  /-- R108 -/
  | setEdgeFalling
  /-- R109 -/
  | ccrRead
  /-- R110 -/
  | cfRead
  /-- R120 -/
  | trigPulse
  /-- R121 -/
  | waitCapture (timeout : Nat)
  /-- R122 -/
  | measureRaw (timeout : Nat)
  /-- R126 -/
  | ticksToCm (ticks : Nat)
  /-- R127 -/
  | ticksToInch (ticks : Nat)
  /-- R141 -/
  | twStart
  /-- R142 -/
  | twBit (bit : Bool)
  /-- R143 -/
  | twAck
  /-- R144 -/
  | twByte (byte : Byte)
  /-- R145 -/
  | twStop
  /-- R146 -/
  | twTransaction (bytes : List Byte)
  /-- R147 -/
  | textToFrame (text : Text)
  /-- R148 -/
  | numToText (value : Nat)
  /-- R149 -/
  | writeFrame
  /-- R150 -/
  | writeDigits (text : Text)
  /-- R151 -/
  | setBrightness (level : Byte)
  /-- R171 -/
  | srBit (bit : Bool)
  /-- R172 -/
  | srLatch
  /-- R173 -/
  | sendPattern (pattern : Byte)
  /-- R174 -/
  | ledPattern (distance threshold : Dist)
  /-- R185 -/
  | adcSample
  /-- R186 -/
  | classify (sample : Nat)
  /-- R188 -/
  | readRaw
  /-- R189 -/
  | readDebounced
  /-- R200 -/
  | tick
  /-- R210 -/
  | rangingCycle
  /-- R211 -/
  | showError
  /-- R212 -/
  | showDistance (raw : Nat)
  /-- R213 -/
  | showThreshold
  /-- R214 -/
  | thrAdjust (delta : Int)
  /-- R215 -/
  | cmToInch (cm : Dist)
  /-- R216 -/
  | thrInUnit
  /-- R230 -/
  | delayUs (n : Nat)
  /-- R231 -/
  | delayMs (n : Nat)
  /-- R232 -/
  | logText (text : Text)
  /-- R233 -/
  | logNumber (number : BitVec 32)
  /-- R270 -/
  | reset
  /-- R273 -/
  | boot
  /-- R201 -/
  | mNone
  /-- R202 -/
  | mMode
  /-- R203 -/
  | mUp
  /-- R204 -/
  | mDown
  /-- R205 -/
  | sNone
  /-- R206 -/
  | sMode
  /-- R207 -/
  | sUp
  /-- R208 -/
  | sDown
  /-- R209; its word's low three bits, STATE[0] and EV[1:0], are ignored and kept here -/
  | fRecover (ignored : BitVec 3)
  /-- R83 -/
  | cmdAutoinc
  /-- R84 -/
  | cmdAddr0
  /-- R85 -/
  | cmdCtrl (level : BitVec 3)
deriving DecidableEq, Repr

end Sys2Proof
end

