-- ==== Sys2Proof/WellFormed.lean ====
section
/-! DEFINITION. What the spec asks of an operation's operands beyond their types. -/

namespace Sys2Proof

/-- A transaction has at least one byte (R81, R146: "a list of n >= 1 bytes"). Every other operand's range
is its type; an operand outside a range a rule mentions (R174, R212, R215) has a defined effect and is no
ill-formed term (log 15). -/
abbrev Instr.wellFormed : Instr → Bool
  | .twTransaction bytes => !bytes.isEmpty
  | .cntTick | .echoRise | .echoFall | .cfClear | .setEdgeRising | .setEdgeFalling | .ccrRead
    | .cfRead | .trigPulse | .waitCapture _ | .measureRaw _ | .ticksToCm _ | .ticksToInch _
    | .twStart | .twBit _ | .twAck | .twByte _ | .twStop | .textToFrame _ | .numToText _
    | .writeFrame | .writeDigits _ | .setBrightness _ | .srBit _ | .srLatch | .sendPattern _
    | .ledPattern _ _ | .adcSample | .classify _ | .readRaw | .readDebounced | .tick
    | .rangingCycle | .showError | .showDistance _ | .showThreshold | .thrAdjust _ | .cmToInch _
    | .thrInUnit | .delayUs _ | .delayMs _ | .logText _ | .logNumber _ | .reset | .boot | .mNone
    | .mMode | .mUp | .mDown | .sNone | .sMode | .sUp | .sDown | .fRecover _ | .cmdAutoinc
    | .cmdAddr0 | .cmdCtrl _ => true

end Sys2Proof
end

