-- ==== Sys2Proof/Decode.lean ====
section
/-! DEFINITION. From words to operations and back. The words are the table's (30_encoding R92, R87,
R83 to R85); the bytes of the operands are the model's own, since the spec encodes no operand (log 11). -/

namespace Sys2Proof

/-- Why bytes are no operation. -/
inductive DecodeError where
  /-- there is no word -/
  | noWord
  /-- OPX 46 to 63: "not assigned ... it is not an operation" (R92) -/
  | unassignedOpx (opx : Nat)
  /-- a byte of the operation space whose bits 7:6 are not 0: OPX has six bits -/
  | notSixBits (byte : Byte)
  /-- a byte of the dispatch space whose bits 7:4 are not 0: DW has four bits -/
  | notFourBits (byte : Byte)
  /-- a byte that is none of the display command bytes: "never sent" (R88) -/
  | notACommand (byte : Byte)
  /-- an operand byte is missing -/
  | truncated
  /-- an operand's bits above its width are not 0, or a continuation byte is neither 0 nor 1 -/
  | badOperand
deriving DecidableEq, Repr

/-- What reading from a list of bytes gives: a value and the rest, or the reason there is none. -/
abbrev Read (α : Type) := Except DecodeError (α × List Byte)

/-- Goes on with what was read. -/
def Read.map {α β : Type} (f : α → β) : Read α → Read β
  | .ok (a, rest) => .ok (f a, rest)
  | .error e => .error e

/-- One bit, in a byte. -/
def readBit : List Byte → Read Bool
  | [] => .error .truncated
  | b :: rest => if b = 0 then .ok (false, rest) else if b = 1 then .ok (true, rest) else .error .badOperand

/-- Eight bits. -/
def readByte : List Byte → Read Byte
  | [] => .error .truncated
  | b :: rest => .ok (b, rest)

/-- Sixteen bits, the low byte first. -/
def readHalf : List Byte → Read (BitVec 16)
  | lo :: hi :: rest => .ok (hi ++ lo, rest)
  | _ => .error .truncated

/-- Thirty-two bits, the low byte first. -/
def readWord : List Byte → Read (BitVec 32)
  | b0 :: b1 :: b2 :: b3 :: rest => .ok (b3 ++ b2 ++ b1 ++ b0, rest)
  | _ => .error .truncated

/-- `w` bits in two bytes, the bits above them 0. -/
def readNarrow (w : Nat) (bytes : List Byte) : Read (BitVec w) :=
  match readHalf bytes with
  | .ok (v, rest) => if v.toNat < 2 ^ w then .ok (v.setWidth w, rest) else .error .badOperand
  | .error e => .error e

/-- A list of bytes: each stands behind a 1, a 0 ends it. -/
def readList : List Byte → Read (List Byte)
  | [] => .error .truncated
  | [f] => if f = 0 then .ok ([], []) else .error .truncated
  | f :: c :: rest =>
    if f = 0 then .ok ([], c :: rest)
    else if f = 1 then (readList rest).map (c :: ·)
    else .error .badOperand

/-- A list of at least one byte: the first, then the others as `readList` reads them. -/
def readList1 : List Byte → Read (List Byte)
  | [] => .error .truncated
  | b :: rest => (readList rest).map (b :: ·)

/-- A natural number: seven bits a byte, the low ones first, bit 7 says that another byte follows. -/
def readNat : List Byte → Read Nat
  | [] => .error .truncated
  | b :: rest =>
    if b.toNat < 128 then .ok (b.toNat, rest)
    else (readNat rest).map (fun n => b.toNat - 128 + 128 * n)

/-- An integer: z >= 0 as the number 2 z, z < 0 as -2 z - 1. -/
def readInt (bytes : List Byte) : Read Int :=
  (readNat bytes).map (fun n => if n % 2 = 0 then Int.ofNat (n / 2) else Int.negSucc (n / 2))

/-- The operation whose OPX is the byte (the map of R92), with its operands from the bytes behind it. -/
def decodeOpx (byte : Byte) (rest : List Byte) : Read Instr :=
  match byte.toNat with
  | 0 => .ok (.cntTick, rest)
  | 1 => .ok (.echoRise, rest)
  | 2 => .ok (.echoFall, rest)
  | 3 => .ok (.cfClear, rest)
  | 4 => .ok (.setEdgeRising, rest)
  | 5 => .ok (.setEdgeFalling, rest)
  | 6 => .ok (.ccrRead, rest)
  | 7 => .ok (.cfRead, rest)
  | 8 => .ok (.trigPulse, rest)
  | 9 => (readNat rest).map .waitCapture
  | 10 => (readNat rest).map .measureRaw
  | 11 => (readNat rest).map .ticksToCm
  | 12 => (readNat rest).map .ticksToInch
  | 13 => .ok (.twStart, rest)
  | 14 => (readBit rest).map .twBit
  | 15 => .ok (.twAck, rest)
  | 16 => (readByte rest).map .twByte
  | 17 => .ok (.twStop, rest)
  | 18 => (readList1 rest).map .twTransaction
  | 19 => (readList rest).map .textToFrame
  | 20 => (readNat rest).map .numToText
  | 21 => .ok (.writeFrame, rest)
  | 22 => (readList rest).map .writeDigits
  | 23 => (readByte rest).map .setBrightness
  | 24 => (readBit rest).map .srBit
  | 25 => .ok (.srLatch, rest)
  | 26 => (readByte rest).map .sendPattern
  | 27 =>
    match readNarrow ThrBits rest with
    | .ok (distance, rest) => (readNarrow ThrBits rest).map (.ledPattern distance)
    | .error e => .error e
  | 28 => .ok (.adcSample, rest)
  | 29 => (readNat rest).map .classify
  | 30 => .ok (.readRaw, rest)
  | 31 => .ok (.readDebounced, rest)
  | 32 => .ok (.tick, rest)
  | 33 => .ok (.rangingCycle, rest)
  | 34 => .ok (.showError, rest)
  | 35 => (readNat rest).map .showDistance
  | 36 => .ok (.showThreshold, rest)
  | 37 => (readInt rest).map .thrAdjust
  | 38 => (readNarrow ThrBits rest).map .cmToInch
  | 39 => .ok (.thrInUnit, rest)
  | 40 => (readNat rest).map .delayUs
  | 41 => (readNat rest).map .delayMs
  | 42 => (readList rest).map .logText
  | 43 => (readWord rest).map .logNumber
  | 44 => .ok (.reset, rest)
  | 45 => .ok (.boot, rest)
  | n => if n < 64 then .error (.unassignedOpx n) else .error (.notSixBits byte)

/-- The arm the dispatch word DW selects (the map of R87). -/
def decodeDw (dw : BitVec 4) : Instr :=
  match dw.toNat with
  | 0 => .mNone
  | 1 => .mMode
  | 2 => .mUp
  | 3 => .mDown
  | 4 => .sNone
  | 5 => .sMode
  | 6 => .sUp
  | 7 => .sDown
  | _ => .fRecover (dw.setWidth 3)

/-- The display command of a byte (R83, R84, R85). -/
def decodeCmd (byte : Byte) : Except DecodeError Instr :=
  if byte = 0x40#8 then .ok .cmdAutoinc
  else if byte = 0xC0#8 then .ok .cmdAddr0
  else if byte &&& 0xF8#8 = 0x88#8 then .ok (.cmdCtrl (byte.setWidth 3))
  else .error (.notACommand byte)

/-- The operation that bytes stand for in a word space, and the bytes behind it. -/
def decode (space : WordSpace) : List Byte → Read Instr
  | [] => .error .noWord
  | byte :: rest =>
    match space with
    | .opx => decodeOpx byte rest
    | .dw => if byte.toNat < 16 then .ok (decodeDw (byte.setWidth 4), rest) else .error (.notFourBits byte)
    | .cmd =>
      match decodeCmd byte with
      | .ok i => .ok (i, rest)
      | .error e => .error e

/-! ## The encoder -/

/-- One bit as a byte. -/
def bitBytes (b : Bool) : List Byte := [if b then 1 else 0]

/-- Up to sixteen bits, the low byte first. -/
def halfBytes {w : Nat} (v : BitVec w) : List Byte :=
  [(v.setWidth 16).extractLsb' 0 8, (v.setWidth 16).extractLsb' 8 8]

/-- Thirty-two bits, the low byte first. -/
def wordBytes (v : BitVec 32) : List Byte :=
  [v.extractLsb' 0 8, v.extractLsb' 8 8, v.extractLsb' 16 8, v.extractLsb' 24 8]

/-- What `readList` reads. -/
def listBytes : List Byte → List Byte
  | [] => [0]
  | c :: rest => 1 :: c :: listBytes rest

/-- What `readList1` reads; the empty list has no encoding and is given the encoding of [0]. -/
def list1Bytes : List Byte → List Byte
  | [] => [0, 0]
  | b :: rest => b :: listBytes rest

/-- `natBytes` with the recursion bounded by `fuel`. -/
def natBytesAux : Nat → Nat → List Byte
  | 0, _ => [0]
  | fuel + 1, n =>
    if n < 128 then [BitVec.ofNat 8 n] else BitVec.ofNat 8 (n % 128 + 128) :: natBytesAux fuel (n / 128)

/-- What `readNat` reads. -/
def natBytes (n : Nat) : List Byte := natBytesAux (n + 1) n

/-- What `readInt` reads. -/
def intBytes : Int → List Byte
  | .ofNat n => natBytes (2 * n)
  | .negSucc n => natBytes (2 * n + 1)

/-- An operation of the OPX space. -/
def opx (n : Nat) (operands : List Byte) : OpWord := ⟨.opx, BitVec.ofNat 8 n :: operands⟩

/-- An arm of the DW space. -/
def dw (n : Nat) : OpWord := ⟨.dw, [BitVec.ofNat 8 n]⟩

/-- A display command. -/
def cmd (byte : Byte) : OpWord := ⟨.cmd, [byte]⟩

/-- The word of an operation. -/
def encode : Instr → OpWord
  | .cntTick => opx 0 []
  | .echoRise => opx 1 []
  | .echoFall => opx 2 []
  | .cfClear => opx 3 []
  | .setEdgeRising => opx 4 []
  | .setEdgeFalling => opx 5 []
  | .ccrRead => opx 6 []
  | .cfRead => opx 7 []
  | .trigPulse => opx 8 []
  | .waitCapture timeout => opx 9 (natBytes timeout)
  | .measureRaw timeout => opx 10 (natBytes timeout)
  | .ticksToCm ticks => opx 11 (natBytes ticks)
  | .ticksToInch ticks => opx 12 (natBytes ticks)
  | .twStart => opx 13 []
  | .twBit bit => opx 14 (bitBytes bit)
  | .twAck => opx 15 []
  | .twByte byte => opx 16 [byte]
  | .twStop => opx 17 []
  | .twTransaction bytes => opx 18 (list1Bytes bytes)
  | .textToFrame text => opx 19 (listBytes text)
  | .numToText value => opx 20 (natBytes value)
  | .writeFrame => opx 21 []
  | .writeDigits text => opx 22 (listBytes text)
  | .setBrightness level => opx 23 [level]
  | .srBit bit => opx 24 (bitBytes bit)
  | .srLatch => opx 25 []
  | .sendPattern pattern => opx 26 [pattern]
  | .ledPattern distance threshold => opx 27 (halfBytes distance ++ halfBytes threshold)
  | .adcSample => opx 28 []
  | .classify sample => opx 29 (natBytes sample)
  | .readRaw => opx 30 []
  | .readDebounced => opx 31 []
  | .tick => opx 32 []
  | .rangingCycle => opx 33 []
  | .showError => opx 34 []
  | .showDistance raw => opx 35 (natBytes raw)
  | .showThreshold => opx 36 []
  | .thrAdjust delta => opx 37 (intBytes delta)
  | .cmToInch cm => opx 38 (halfBytes cm)
  | .thrInUnit => opx 39 []
  | .delayUs n => opx 40 (natBytes n)
  | .delayMs n => opx 41 (natBytes n)
  | .logText text => opx 42 (listBytes text)
  | .logNumber number => opx 43 (wordBytes number)
  | .reset => opx 44 []
  | .boot => opx 45 []
  | .mNone => dw 0
  | .mMode => dw 1
  | .mUp => dw 2
  | .mDown => dw 3
  | .sNone => dw 4
  | .sMode => dw 5
  | .sUp => dw 6
  | .sDown => dw 7
  | .fRecover ignored => dw (8 + ignored.toNat)
  | .cmdAutoinc => cmd 0x40
  | .cmdAddr0 => cmd 0xC0
  | .cmdCtrl level => cmd (0x88 ||| level.setWidth 8)

/-! ## The host's numbering of the table's words -/

/-- The space of a word of the table that has `nbits` bits. Four bits are a dispatch word, five or six an
operation index. In whole bytes (7 bits or more) the operation indices are below 64 and the command bytes
above; a whole byte never names an arm, whose four bits are the numbers of operations too (log 11). -/
def tableSpace (nbits w : Nat) : WordSpace :=
  if nbits ≤ 4 then .dw
  else if nbits ≤ 6 then .opx
  else if w % 256 < 64 then .opx
  else .cmd

/-- The bytes of a word of the table, the lowest first, with zeros behind them for the operands. -/
def tableBytes (nbits w : Nat) : List Byte :=
  (List.range ((nbits + 7) / 8)).map (fun k => BitVec.ofNat 8 (w >>> (8 * k))) ++ List.replicate 8 0

/-- The launch of a word of the table. -/
def tableWord (nbits w : Nat) : OpWord := ⟨tableSpace nbits w, tableBytes nbits w⟩

/-- The operation the decoder reads from a word of the table. -/
def decodeTableWord (nbits w : Nat) : Option Instr :=
  match decode (tableWord nbits w).space (tableWord nbits w).bytes with
  | .ok (i, _) => some i
  | .error _ => none

end Sys2Proof
end

