-- ==== Sys2Proof/Config.lean ====
section
/-! DEFINITION. The parameters of the machine (00_scope section 4, 10_state R33) as one record, and
the free values: what the spec leaves to a draw or to ENV. -/

namespace Sys2Proof

/-- The parameter record. "A model takes it as an argument" (00_scope section 4): the record stands in
`Machine.State.cfg`, no step changes it (log 10). The literals the source states (58, 148, 400, 157, 10, 8, 4)
are definitions of Machine/Params.lean. -/
structure Config where
  /-- CNT_BITS, the width W of CNT, CCR, RISE, FALL and RawEcho (D3). -/
  cntBits : Nat
  /-- POLL_BITS, the width of POLLN and of `timeout_ticks` (D4). -/
  pollBits : Nat
  /-- ADC_BITS, the width of an analog sample, OPEN (D21). -/
  adcBits : Nat
  /-- TIMEOUT_RESTART (D5). -/
  timeoutRestart : Bool
  /-- OVERCAPTURE (D6). -/
  overcapture : Overcapture
  /-- MEASURE_TIMEOUT, OPEN (D31). -/
  measureTimeout : Nat
  /-- BRIGHT_INIT, OPEN: `none` or a level 0..7 (D18). -/
  brightInit : Option (BitVec 3)
  /-- UP_LO, OPEN (D21). -/
  upLo : Nat
  /-- UP_HI, OPEN (D21). -/
  upHi : Nat
  /-- DOWN_LO, OPEN (D21). -/
  downLo : Nat
  /-- DOWN_HI, OPEN (D21). -/
  downHi : Nat
  /-- MODE_TH, OPEN (D21). -/
  modeTh : Nat
  /-- CMD_AUTOINC (D13). -/
  cmdAutoinc : Byte
  /-- CMD_ADDR0 (D13). -/
  cmdAddr0 : Byte
  /-- CMD_CTRL_BASE (D13). -/
  cmdCtrlBase : Byte
  /-- SEGMAP (R80): cells (character code, segment byte) in the canonical form of Machine/Mem.lean; a
  code that is not listed reads as 0x00. -/
  segmap : List Host.Cell
  /-- ERR_TEXT (D17). -/
  errText : Text
  /-- CM2IN (D26). -/
  cm2in : Cm2In
  /-- The delay parameters T_TRIG, T_SETUP, T_HOLD, T_START, T_STOP, T_SETTLE, T_GAP, T_SETUP_TICK, in
  microseconds, OPEN (D31), T_SR (D20) and the rate TICK_HZ of CNT (D35); only their constraints are read,
  since "no rule depends on a value" (log 25). -/
  tTrig : Nat
  tSetup : Nat
  tHold : Nat
  tStart : Nat
  tStop : Nat
  tSettle : Nat
  tGap : Nat
  tSetupTick : Nat
  tSr : Nat
  tickHz : Nat
  /-- "Timers are ready" and the pins are configured: the launch premise (R234, R272). -/
  timersReady : Bool
deriving DecidableEq, Repr

/-- The values RESET leaves unspecified (10_state R34, 93 U1 to U3): one draw. A count is any number; the
register takes it in its width. -/
structure ResetDraw where
  cnt : Nat
  ccr : Nat
  cf : Bool
  rise : Nat
  fall : Nat
  polln : Nat
  sh : Byte
  bi : BitVec 4
  ackv : Bool
  frame0 : Byte
  frame1 : Byte
  frame2 : Byte
  frame3 : Byte
  cand : Button
  raw : Nat
  dist : Dist
  thru : Dist
  ev : Button
deriving DecidableEq, Repr, Inhabited

/-- What the display controller holds where the spec says "any value" (93 U9): digit memory, mode,
brightness, on. -/
structure PanelDraw where
  digit0 : Byte
  digit1 : Byte
  digit2 : Byte
  digit3 : Byte
  autoInc : Bool
  bright : BitVec 3
  isOn : Bool
deriving DecidableEq, Repr, Inhabited

/-- What lies outside the CORE at power-on, all unspecified (10_state R16, R18, R32). -/
structure PowerDraw where
  echo : Bool
  dioExt : Bool
  panel : PanelDraw
  inTxn : Bool
  nbits : Fin 9
  cur : Byte
  bytes : List Byte
  nack : Bool
  shift : Byte
  store : Byte
deriving DecidableEq, Repr, Inhabited

/-- Free value: the draw of the n-th RESET, power-on being number 0 (log 5). -/
opaque Config.freeReset : Nat → ResetDraw

/-- Free value: what stands outside the CORE at power-on (log 8, 24). -/
opaque Config.freePower : Nat → PowerDraw

/-- Free value: the n-th analog sample, where ENV's queue gives none, before it is cut to ADC_BITS bits
(93 U6, log 6). -/
opaque Config.freeSample : Nat → Nat

/-- Free value: the DIO level of the n-th ACK cycle, where ENV's queue gives none (93 U7, log 6). -/
opaque Config.freeAck : Nat → Bool

/-- Free value: whether the n-th overcapture overwrites CCR, under OVERCAPTURE = `either`, where the
queue gives none (R105, log 7). -/
opaque Config.freeOver : Nat → Bool

/-- Free value: what the display controller holds after the n-th transaction whose effect on it the spec
leaves open: one not acknowledged or of none of the three shapes (93 U9, log 8). -/
opaque Config.freePanel : Nat → PanelDraw

end Sys2Proof
end

