-- ==== Sys2Proof/Machine/Mem.lean ====
section
/-! DEFINITION. The byte memories: a list of cells in one canonical form (addresses strictly rising, no
cell that holds what an unlisted address reads as). Two things are held so: SEGMAP, read-only (20_memory
R51), and the external display memory (R53). -/

namespace Sys2Proof.Machine

/-- Cells (address, byte). -/
abbrev Mem := List Host.Cell

/-- What an unlisted address reads as: 0x00, the blank pattern ("unsupported characters render as blank",
R51, R80). -/
def Mem.blank : Byte := 0

/-- The byte at an address. -/
def Mem.read : Mem → Nat → Byte
  | [], _ => Mem.blank
  | (a, b) :: rest, addr => if a = addr then b else Mem.read rest addr

/-- A byte in front of cells, or nothing where it is the blank. -/
def Mem.cons (addr : Nat) (b : Byte) (m : Mem) : Mem :=
  if b = Mem.blank then m else (addr, b) :: m

/-- The memory with `b` at an address: the canonical form is kept. -/
def Mem.write (addr : Nat) (b : Byte) : Mem → Mem
  | [] => Mem.cons addr b []
  | (a, c) :: rest =>
    if addr < a then Mem.cons addr b ((a, c) :: rest)
    else if addr = a then Mem.cons addr b rest
    else (a, c) :: Mem.write addr b rest

/-- Every address of the cells is above `low`, rising, and no cell is blank. -/
def Mem.risingFrom : Nat → Mem → Bool
  | _, [] => true
  | low, (a, b) :: rest => decide (low ≤ a) && decide (b ≠ Mem.blank) && Mem.risingFrom (a + 1) rest

/-- The canonical form. -/
def Mem.wf (m : Mem) : Bool := Mem.risingFrom 0 m

/-- Every address of the cells is below `high`. -/
def Mem.below (high : Nat) (m : Mem) : Bool := m.all (fun c => decide (c.1 < high))

/-- Four bytes at addresses 0..3 (R53). -/
def Mem.writeDigits (b0 b1 b2 b3 : Byte) (m : Mem) : Mem :=
  Mem.write 3 b3 (Mem.write 2 b2 (Mem.write 1 b1 (Mem.write 0 b0 m)))

end Sys2Proof.Machine
end

