-- ==== Sys2Proof/Machine/Parts.lean ====
section
/-! DEFINITION. The parts of the state, by the five classes of 10_state R10, ENV's inputs, the external
devices of R32, and the observations of 00_scope R7. -/

namespace Sys2Proof.Machine

/-- Capture-unit registers (R11 to R14); `cnt` and `ccr` have W bits. -/
structure Capu where
  cnt : Nat
  ccr : Nat
  edge : Edge
  cf : Bool
deriving DecidableEq, Repr

/-- The pins SEQ writes (R15, R17 to R19). -/
inductive Pin where
  | trig | dclk | dio | sdat | sclk | slat
deriving DecidableEq, Repr

/-- Pin latches and the direction of DIO (R15, R17 to R19). -/
structure Pins where
  trig : Bool
  dclk : Bool
  dioOut : Bool
  dioDir : Dir
  sdat : Bool
  sclk : Bool
  slat : Bool
deriving DecidableEq, Repr

/-- Persistent control state (R27 to R30). `opState` is STATE. -/
structure Ctrl where
  opState : BitVec StateBits
  unit : MeasureUnit
  threshold : Dist
  stable : Button
deriving DecidableEq, Repr

/-- The SegmentFrame FRAME[0..3] (R25, R78). -/
structure Frame where
  d0 : Byte
  d1 : Byte
  d2 : Byte
  d3 : Byte
deriving DecidableEq, Repr

/-- Working registers (R21 to R26, R36, R37); `rise`, `fall` and `raw` have W bits, `polln` POLL_BITS. -/
structure Work where
  rise : Nat
  fall : Nat
  polln : Nat
  sh : Byte
  bi : BitVec 4
  ackv : Bool
  frame : Frame
  cand : Button
  raw : Nat
  dist : Dist
  thru : Dist
  ev : Button
deriving DecidableEq, Repr

/-- Where SEQ is between operations (R20): IDLE with BOOT next, as after reset, or in the endless loop
with a TICK next (70 R273). Inside an operation its position is the evaluation of the operation. -/
inductive SeqPos where
  | idle | loop
deriving DecidableEq, Repr

/-- What another agent than SEQ does in a window before a micro-step (R5, R6). -/
inductive EnvEvent where
  /-- n steps of CNT_TICK (R101) -/
  | cnt (n : Nat)
  /-- ENV puts ECHO at a level (R102) -/
  | echo (level : Bool)
  /-- RESET (R270) -/
  | reset
deriving DecidableEq, Repr

/-- How many draws of each kind there have been: the arguments of the free values. -/
structure Counts where
  sample : Nat
  ack : Nat
  overcap : Nat
  reset : Nat
  panel : Nat
deriving DecidableEq, Repr

/-- ENV: its levels (R16, R18) and what it is going to do, as 30_encoding R90 scripts it. -/
structure Env where
  /-- the ECHO level (R16) -/
  echo : Bool
  /-- the level of the DIO line while the CORE does not drive it (R18) -/
  dioExt : Bool
  /-- "the values the next AdcSample() calls return, in order" (R90); ADC_BITS bits of each are taken -/
  adc : List Nat
  /-- "the DIO levels the next ACK cycles sample, in order" (R90) -/
  ack : List Bool
  /-- whether the next overcaptures overwrite, under OVERCAPTURE = `either` (R105) -/
  overcap : List Bool
  /-- the draws of the next RESETs (R34) -/
  resets : List ResetDraw
  /-- the events to come, each with the number of SEQ micro-steps that pass before it, counted from the
  event in front of it (log 4) -/
  schedule : List (Nat × EnvEvent)
  count : Counts
deriving DecidableEq, Repr

/-- What the display controller keeps (R32): digit memory, mode, brightness, on. -/
structure Panel where
  mem : Mem
  autoInc : Bool
  bright : BitVec 3
  isOn : Bool
deriving DecidableEq, Repr

/-- The companion receiver of the display bus (42_twowire_display R153) with the panel behind it. -/
structure Display where
  inTxn : Bool
  nbits : Fin 9
  cur : Byte
  bytes : List Byte
  /-- an ACK slot of this transaction was at level 1 (93 U9, log 8) -/
  nack : Bool
  panel : Panel
deriving DecidableEq, Repr

/-- The companion receiver of the shift bus (43_shift_ledbar R176): `shift` is SR, `store` is STORE. -/
structure Leds where
  shift : Byte
  store : Byte
deriving DecidableEq, Repr

/-- A delay as the trace marks it (R7, R8): `Delay(T)` with a parameter's name, or a call of DELAY_US or
DELAY_MS by itself. "A model without time treats both as the same marker" (R231). -/
inductive DelayKind where
  | param (p : DelayParam)
  | call
deriving DecidableEq, Repr

/-- An event of the pin trace (R7; the notation of 42_twowire_display). -/
inductive TraceEvent where
  /-- `W(pin,v)` -/
  | write (pin : Pin) (level : Bool)
  /-- `R(DIO)=v` -/
  | read (level : Bool)
  /-- `D(DIO,dir)` -/
  | dir (d : Dir)
  /-- `Delay(T)` -/
  | delay (k : DelayKind)
deriving DecidableEq, Repr

/-- The result of WAIT_CAPTURE (R121). -/
inductive WaitResult where
  | captured | timedOut
deriving DecidableEq, Repr

/-- The return value of an operation (R7 c). -/
inductive Value where
  /-- no operation has ended since reset -/
  | none
  /-- the operation returns nothing -/
  | unit
  | ticks (v : Nat)
  | bit (b : Bool)
  | wait (w : WaitResult)
  | dist (v : Dist)
  | byte (v : Byte)
  | text (t : Text)
  | sample (v : Nat)
  | button (b : Button)
deriving DecidableEq, Repr

end Sys2Proof.Machine
end

