-- ==== Sys2Proof/Machine/Params.lean ====
section
/-! DEFINITION. The literals of 00_scope section 4, the default configuration, and the constraints a
configuration must meet. -/

namespace Sys2Proof

/-- A number as W bits hold it. -/
def Config.ticks (cfg : Config) (n : Nat) : Nat := n % 2 ^ cfg.cntBits

/-- A number as POLL_BITS bits hold it. -/
def Config.polls (cfg : Config) (n : Nat) : Nat := n % 2 ^ cfg.pollBits

/-- A number as ADC_BITS bits hold it. -/
def Config.sample (cfg : Config) (n : Nat) : Nat := n % 2 ^ cfg.adcBits

end Sys2Proof

namespace Sys2Proof.Machine

/-- CM_DIV (R126). -/
def cmDiv : Nat := 58
/-- IN_DIV (R127). -/
def inDiv : Nat := 148
/-- CM_MAX (R126). -/
def cmMax : Nat := 400
/-- IN_MAX (R127). -/
def inMax : Nat := 157
/-- THR_MAX (R29); THR_MIN is 0. -/
def thrMax : Nat := 400
/-- THR_STEP (R29). -/
def thrStep : Nat := 10
/-- THR_RESET (R29). -/
def thrReset : Nat := 0
/-- LED_COUNT (R174, D19). -/
def ledCount : Nat := 8
/-- N_DIGITS (R78). -/
def nDigits : Nat := 4
/-- The largest brightness level (R85). -/
def brightMax : Nat := 7
/-- The space character (R79). -/
def space : Byte := 0x20

/-- STATE code MEASURE (R71). -/
def stMeasure : BitVec StateBits := 0
/-- STATE code SETUP (R71). -/
def stSetup : BitVec StateBits := 1

/-- The code of a ButtonEvent (R70). -/
def buttonCode : Button → BitVec 2
  | .none => 0
  | .mode => 1
  | .up => 2
  | .down => 3

/-- The default SEGMAP (the table of R80); space and every code that is not listed are blank. -/
def segmapDefault : Mem :=
  [(0x2D, 0x40)] ++
  [(0x30, 0x3F), (0x31, 0x06), (0x32, 0x5B), (0x33, 0x4F), (0x34, 0x66),
   (0x35, 0x6D), (0x36, 0x7D), (0x37, 0x07), (0x38, 0x7F), (0x39, 0x6F)] ++
  [(0x41, 0x77), (0x42, 0x7C), (0x43, 0x39), (0x44, 0x5E), (0x45, 0x79), (0x46, 0x71), (0x48, 0x76),
   (0x4C, 0x38), (0x4E, 0x54), (0x4F, 0x5C), (0x50, 0x73), (0x52, 0x50), (0x54, 0x78), (0x55, 0x3E)] ++
  [(0x5F, 0x08)] ++
  [(0x61, 0x77), (0x62, 0x7C), (0x63, 0x39), (0x64, 0x5E), (0x65, 0x79), (0x66, 0x71), (0x68, 0x76),
   (0x6C, 0x38), (0x6E, 0x54), (0x6F, 0x5C), (0x70, 0x73), (0x72, 0x50), (0x74, 0x78), (0x75, 0x3E)]

/-- The configuration of `State.reset` (log 10): the spec's defaults where it gives them, the values of its
test vectors for ADC_BITS, the band limits, MEASURE_TIMEOUT and BRIGHT_INIT, and durations that meet the
constraints. -/
def configDefault : Config where
  cntBits := 16
  pollBits := 32
  adcBits := 12
  timeoutRestart := true
  overcapture := .either
  measureTimeout := 1000
  brightInit := .none
  upLo := 800
  upHi := 1600
  downLo := 1800
  downHi := 2800
  modeTh := 3000
  cmdAutoinc := 0x40
  cmdAddr0 := 0xC0
  cmdCtrlBase := 0x88
  segmap := segmapDefault
  errText := [0x45, 0x72, 0x72]
  cm2in := .formula
  tTrig := 10
  tSetup := 1
  tHold := 1
  tStart := 1
  tStop := 1
  tSettle := 1
  tGap := 1
  tSetupTick := 2
  tSr := 0
  tickHz := 1000000
  timersReady := true

/-- The constraint on the bands (R187). -/
def bandsOk (c : Config) : Bool :=
  decide (c.upLo ≤ c.upHi) && decide (c.upHi < c.downLo) && decide (c.downLo ≤ c.downHi) &&
  decide (c.downHi ≤ c.modeTh) && decide (c.modeTh < 2 ^ c.adcBits - 1)

/-- A letter, in ASCII (R79). -/
def isLetter (c : Byte) : Bool :=
  (decide (0x41 ≤ c) && decide (c ≤ 0x5A)) || (decide (0x61 ≤ c) && decide (c ≤ 0x7A))

/-- The constraints on SEGMAP (R80): the source's characters and "the letters of ERR_TEXT" have a pattern,
space is blank, bit 7 of every entry is 0; and the table is canonical cells of 8-bit codes. DESIGN CHOICE
(log 31): a character of ERR_TEXT that is no ASCII letter and none of the source's need not be supported. -/
def segmapOk (c : Config) : Bool :=
  Mem.wf c.segmap && Mem.below 256 c.segmap &&
  ([0x30, 0x31, 0x32, 0x33, 0x34, 0x35, 0x36, 0x37, 0x38, 0x39, 0x2D, 0x5F] ++ c.errText.filter isLetter).all
    (fun ch => decide (Mem.read c.segmap ch.toNat ≠ 0)) &&
  decide (Mem.read c.segmap space.toNat = 0) &&
  c.segmap.all (fun cell => !cell.2.getLsbD 7)

/-- The constraint on CM2IN: its results are 0 to 157 for the operands 0 to 400 (R215), and 0 gives 0, as R216
states of every configuration (log 27). -/
def cm2inOk (c : Config) : Bool :=
  match c.cm2in with
  | .formula => true
  | .table values => decide (values[0] = 0) && (values.toList.take (cmMax + 1)).all (fun v => decide (v.toNat ≤ inMax))

/-- The constraints of 00_scope section 4 on the OPEN numbers: 1 <= MEASURE_TIMEOUT < 2^POLL_BITS, T_TRIG >= 10 us,
T_SETUP_TICK > T_GAP. -/
def timesOk (c : Config) : Bool :=
  decide (1 ≤ c.measureTimeout) && decide (c.measureTimeout < 2 ^ c.pollBits) && decide (10 ≤ c.tTrig) &&
  decide (c.tGap < c.tSetupTick)

/-- A configuration the spec allows (93 U16: one that breaks the constraint is refused). -/
def configOk (c : Config) : Bool := bandsOk c && segmapOk c && cm2inOk c && timesOk c

end Sys2Proof.Machine
end

