-- ==== Sys2Proof/Machine/ResetValues.lean ====
section
/-! DEFINITION. The values of the parts right after reset (10_state R34) and outside the CORE at power-on
(R32). -/

namespace Sys2Proof.Machine

/-- CNT, CCR and CF are unspecified, EDGE is RISING. -/
def capuReset (cfg : Config) (d : ResetDraw) : Capu where
  cnt := cfg.ticks d.cnt
  ccr := cfg.ticks d.ccr
  edge := .rising
  cf := d.cf

/-- Every pin at its idle level. -/
def pinsReset : Pins where
  trig := false
  dclk := true
  dioOut := true
  dioDir := .out
  sdat := false
  sclk := false
  slat := false

/-- MEASURE, CENTIMETERS, THR_RESET, NONE. -/
def ctrlReset : Ctrl where
  opState := stMeasure
  unit := .centimeters
  threshold := BitVec.ofNat ThrBits thrReset
  stable := .none

/-- The working registers are unspecified. -/
def workReset (cfg : Config) (d : ResetDraw) : Work where
  rise := cfg.ticks d.rise
  fall := cfg.ticks d.fall
  polln := cfg.polls d.polln
  sh := d.sh
  bi := d.bi
  ackv := d.ackv
  frame := ⟨d.frame0, d.frame1, d.frame2, d.frame3⟩
  cand := d.cand
  raw := cfg.ticks d.raw
  dist := d.dist
  thru := d.thru
  ev := d.ev

/-- A panel of any content (93 U9). -/
def panelOf (d : PanelDraw) : Panel where
  mem := Mem.writeDigits d.digit0 d.digit1 d.digit2 d.digit3 []
  autoInc := d.autoInc
  bright := d.bright
  isOn := d.isOn

/-- The display controller at power-on: any content (R32). -/
def displayPower (d : PowerDraw) : Display where
  inTxn := d.inTxn
  nbits := d.nbits
  cur := d.cur
  bytes := d.bytes
  nack := d.nack
  panel := panelOf d.panel

/-- The LED register at power-on: any content (R32). -/
def ledsPower (d : PowerDraw) : Leds := ⟨d.shift, d.store⟩

/-- ENV at power-on: any levels, nothing queued. -/
def envPower (d : PowerDraw) : Env where
  echo := d.echo
  dioExt := d.dioExt
  adc := []
  ack := []
  overcap := []
  resets := []
  schedule := []
  count := ⟨0, 0, 0, 1, 0⟩

end Sys2Proof.Machine
end

