-- ==== Sys2Proof/Machine/State.lean ====
section
/-! DEFINITION. The whole state, the reasons a step can stop, and the state after reset. -/

namespace Sys2Proof.Machine

/-- The CORE (R10), ENV's inputs, the external devices (R32), the observations (R7), and the model's own
fields `script`, `micro`, `cfg`. -/
structure State where
  /-- capture-unit registers -/
  capu : Capu
  /-- pin latches -/
  pins : Pins
  /-- persistent control state -/
  ctrl : Ctrl
  /-- working registers -/
  work : Work
  /-- the sequencer position between operations -/
  seq : SeqPos
  /-- ENV -/
  env : Env
  /-- the display controller -/
  display : Display
  /-- the LED bank's shift and storage register -/
  leds : Leds
  /-- the pin trace with its delay markers, NEWEST FIRST (R7) -/
  trace : List TraceEvent
  /-- the return value of the last operation (R7) -/
  result : Value
  /-- how many micro-steps SEQ has made (log 29) -/
  micro : Nat
  /-- operations to launch before the control flow goes on (R9, R90; log 11, 30) -/
  script : List OpWord
  /-- the parameters (00_scope section 4); no step changes them -/
  cfg : Config
deriving DecidableEq, Repr

/-- The faults. There is none: "No operation of the CORE raises an exception" (60_exceptions R240). -/
inductive Fault where
deriving DecidableEq, Repr

/-- The refusals: of a launch, never of an operation's effect (R240: "refusal of a launch that breaks a
premise"). All are safe: the machine stops where the spec says nothing. -/
inductive Refusal where
  /-- raised by `exec` for an operation the model gives no meaning yet; safe -/
  | notModelled (mnemonic : String)
  /-- raised by `step` for launch bytes that are no operation (R92); safe -/
  | notAnOperation (e : DecodeError)
  /-- raised by `step` when "timers are ready" does not hold (R234, R272, 93 U11); safe -/
  | launchPremise
  /-- raised by `step` for a configuration that breaks its constraints (R187, 93 U16); safe -/
  | badConfig
deriving DecidableEq, Repr

/-- What an operation or a step answers. -/
abbrev Answer := Host.Outcome State Fault Refusal

/-- The machine right after reset at power-on (R34, R270). What R34 leaves unspecified is the free value
`Config.freeReset 0`, what lies outside the CORE is `Config.freePower 0` (log 5, 8, 24). -/
def State.reset : State where
  capu := capuReset configDefault (Config.freeReset 0)
  pins := pinsReset
  ctrl := ctrlReset
  work := workReset configDefault (Config.freeReset 0)
  seq := .idle
  env := envPower (Config.freePower 0)
  display := displayPower (Config.freePower 0)
  leds := ledsPower (Config.freePower 0)
  trace := []
  result := .none
  micro := 0
  script := []
  cfg := configDefault

end Sys2Proof.Machine
end

