-- ==== Sys2Proof/Machine/Update.lean ====
section
/-! DEFINITION. The updates of the state, one per part. Their field lemmas are in Laws/State.lean. -/

namespace Sys2Proof.Machine.State

/-- Replaces the capture unit. -/
def setCapu (s : State) (c : Capu) : State := { s with capu := c }
/-- Replaces the pins. -/
def setPins (s : State) (p : Pins) : State := { s with pins := p }
/-- Replaces the control state. -/
def setCtrl (s : State) (c : Ctrl) : State := { s with ctrl := c }
/-- Replaces the working registers. -/
def setWork (s : State) (w : Work) : State := { s with work := w }
/-- Replaces SEQ's position. -/
def setSeq (s : State) (q : SeqPos) : State := { s with seq := q }
/-- Replaces ENV. -/
def setEnv (s : State) (e : Env) : State := { s with env := e }
/-- Replaces the display controller. -/
def setDisplay (s : State) (d : Display) : State := { s with display := d }
/-- Replaces the LED bank. -/
def setLeds (s : State) (l : Leds) : State := { s with leds := l }
/-- Appends an event to the pin trace. -/
def addTrace (s : State) (e : TraceEvent) : State := { s with trace := e :: s.trace }
/-- Records a return value. -/
def setResult (s : State) (v : Value) : State := { s with result := v }
/-- Counts a micro-step. -/
def countMicro (s : State) : State := { s with micro := s.micro + 1 }
/-- Replaces the script. -/
def setScript (s : State) (l : List OpWord) : State := { s with script := l }

/-- Replaces the events to come. -/
def setSchedule (s : State) (l : List (Nat × EnvEvent)) : State :=
  s.setEnv { s.env with schedule := l }

end Sys2Proof.Machine.State
end

