-- ==== Sys2Proof/Machine/Flags.lean ====
section
/-! DEFINITION. The one flag, the capture-event flag CF, and what sets and clears it with CCR
(40_capture_unit R103 to R106). -/

namespace Sys2Proof.Machine

/-- A configured edge arrives: CCR takes CNT and CF is set, in one step (R103, R104, 20_memory R59). Where
CF is set already it stays set, and CCR is overwritten or held (R105). -/
def Capu.capture (overwrite : Bool) (c : Capu) : Capu :=
  { c with ccr := if c.cf && !overwrite then c.ccr else c.cnt, cf := true }

/-- CF <- 0, nothing else (R106). -/
def Capu.clearFlag (c : Capu) : Capu := { c with cf := false }

/-- n increments of CNT modulo 2^W (R101). -/
def Capu.count (cfg : Config) (n : Nat) (c : Capu) : Capu := { c with cnt := cfg.ticks (c.cnt + n) }

/-- The edge a change of ECHO to a level is: rising to 1, falling to 0 (R102). -/
def edgeTo : Bool → Edge
  | true => .rising
  | false => .falling

end Sys2Proof.Machine
end

