-- ==== Sys2Proof/Machine/Operands.lean ====
section
/-! DEFINITION. The pure computations on operands: conversion, formatting, text assembly, patterns,
classification. Each is total. -/

namespace Sys2Proof.Machine

/-- TICKS_TO_CM: `min(floor(t / 58), 400)` (R126). -/
def ticksToCm (t : Nat) : Dist := BitVec.ofNat ThrBits (min (t / cmDiv) cmMax)

/-- TICKS_TO_INCH: `min(floor(t / 148), 157)` (R127). -/
def ticksToInch (t : Nat) : Dist := BitVec.ofNat ThrBits (min (t / inDiv) inMax)

/-- CM_TO_INCH, the parameter CM2IN: at its default `min(floor(c * 100 / 254), 157)` (R215). -/
def cmToInch (cfg : Config) (c : Dist) : Dist :=
  match cfg.cm2in with
  | .formula => BitVec.ofNat ThrBits (min (c.toNat * 100 / 254) inMax)
  | .table values => values.get c.toFin

/-- The threshold in a unit (R216). -/
def thresholdIn (cfg : Config) (u : MeasureUnit) (threshold : Dist) : Dist :=
  match u with
  | .centimeters => threshold
  | .inches => cmToInch cfg threshold

/-- `(FALL - RISE) mod 2^W`, the borrow discarded (R123). -/
def pulseTicks (cfg : Config) (rise fall : Nat) : Nat := cfg.ticks (fall + (2 ^ cfg.cntBits - cfg.ticks rise))

/-- A RawEcho converted to a unit (R212). -/
def distanceIn (u : MeasureUnit) (raw : Nat) : Dist :=
  match u with
  | .centimeters => ticksToCm raw
  | .inches => ticksToInch raw

/-- `clamp(THRESHOLD + delta, 0, 400)`, the sum over the integers (R214). -/
def adjustThreshold (threshold : Dist) (delta : Int) : Dist :=
  BitVec.ofNat ThrBits (min (max ((threshold.toNat : Int) + delta) 0) (thrMax : Int)).toNat

/-- How many LEDs light (R174): `floor((threshold - distance) * 8 / threshold)`, clamped. -/
def litLeds (distance threshold : Nat) : Nat :=
  min ((threshold - distance) * ledCount / threshold) ledCount

/-- LED_PATTERN (R174). -/
def ledPattern (distance threshold : Dist) : Byte :=
  if threshold = 0 ∨ threshold ≤ distance then 0
  else BitVec.ofNat 8 (2 ^ litLeds distance.toNat threshold.toNat - 1)

/-- CLASSIFY (R186). -/
def classify (cfg : Config) (s : Nat) : Button :=
  if cfg.modeTh < s then .mode
  else if cfg.downLo ≤ s ∧ s ≤ cfg.downHi then .down
  else if cfg.upLo ≤ s ∧ s ≤ cfg.upHi then .up
  else .none

/-- The character of a decimal digit (R79, ASCII). -/
def digitChar (d : Nat) : Byte := BitVec.ofNat 8 (0x30 + d)

/-- The decimal digits of `v` in front of `behind`, with the recursion bounded by `fuel`. -/
def decimalAux : Nat → Nat → Text → Text
  | 0, _, behind => behind
  | fuel + 1, v, behind =>
    if v < 10 then digitChar v :: behind
    else decimalAux fuel (v / 10) (digitChar (v % 10) :: behind)

/-- NUM_TO_TEXT: base-10 digits, most significant first, no leading zeros; 0 gives "0" (R91, R148). -/
def numToText (v : Nat) : Text := decimalAux (v + 1) v []

/-- The character of digit position `i` of a text: the trailing four, right-justified with spaces (R89,
R147). -/
def frameChar (text : Text) (i : Nat) : Byte :=
  if nDigits ≤ text.length then text.getD (text.length - nDigits + i) space
  else if i < nDigits - text.length then space
  else text.getD (i - (nDigits - text.length)) space

/-- The segment byte of a character: `MemRead(SEGMAP, c, 1)` (R51). -/
def segment (cfg : Config) (c : Byte) : Byte := Mem.read cfg.segmap c.toNat

/-- The brightness command: `CMD_CTRL_BASE | min(level, 7)` (R85, R151). -/
def brightCommand (cfg : Config) (level : Byte) : Byte :=
  cfg.cmdCtrlBase ||| (if level.toNat ≤ brightMax then level else BitVec.ofNat 8 brightMax)

/-- The dispatch word `{STATE[1:0], EV[1:0]}` (R87). -/
def dispatchWord (st : BitVec StateBits) (ev : Button) : BitVec 4 := st ++ buttonCode ev

/-- The other unit (R72: "toggle is the bitwise complement"). -/
def toggleUnit : MeasureUnit → MeasureUnit
  | .centimeters => .inches
  | .inches => .centimeters

/-- A byte with one bit set to a level. -/
def withBit (b : Byte) (i : Nat) (level : Bool) : Byte :=
  if level then b ||| BitVec.twoPow 8 i else b &&& ~~~(BitVec.twoPow 8 i)

end Sys2Proof.Machine
end

