-- ==== Sys2Proof/Machine/Ops.lean ====
section
/-! DEFINITION. The shared operations: ENV's draws, the events of the other agents, RESET, the pins with
the two receivers behind them, and the micro-step with its window for the other agents. There is no
exception entry or return to share: "no trap mechanism" (60_exceptions R240, R248). -/

namespace Sys2Proof.Machine

/-! ## ENV's draws (93 U4, U6, U7) -/

/-- The next analog sample, before it is cut to ADC_BITS bits. -/
def Env.nextSample (e : Env) : Nat :=
  match e.adc with
  | v :: _ => v
  | [] => Config.freeSample e.count.sample

/-- ENV with one sample consumed (R58). -/
def Env.dropSample (e : Env) : Env :=
  { e with adc := e.adc.tail, count := { e.count with sample := e.count.sample + 1 } }

/-- The DIO level of the next ACK cycle. -/
def Env.nextAck (e : Env) : Bool :=
  match e.ack with
  | v :: _ => v
  | [] => Config.freeAck e.count.ack

/-- ENV in an ACK cycle: the line is at the level drawn for it (R143, log 21). -/
def Env.holdAck (e : Env) : Env :=
  { e with dioExt := e.nextAck, ack := e.ack.tail, count := { e.count with ack := e.count.ack + 1 } }

/-- Whether the next overcapture overwrites CCR (R105). -/
def Env.nextOver (mode : Overcapture) (e : Env) : Bool :=
  match mode with
  | .overwrite => true
  | .hold => false
  | .either =>
    match e.overcap with
    | v :: _ => v
    | [] => Config.freeOver e.count.overcap

/-- ENV after an overcapture; only under `either` is there a draw. -/
def Env.dropOver (mode : Overcapture) (e : Env) : Env :=
  match mode with
  | .either => { e with overcap := e.overcap.tail, count := { e.count with overcap := e.count.overcap + 1 } }
  | .overwrite => e
  | .hold => e

/-- The draw of the next RESET (R34). -/
def Env.nextReset (e : Env) : ResetDraw :=
  match e.resets with
  | d :: _ => d
  | [] => Config.freeReset e.count.reset

/-- ENV after a RESET. -/
def Env.dropReset (e : Env) : Env :=
  { e with resets := e.resets.tail, count := { e.count with reset := e.count.reset + 1 } }

namespace State

/-! ## Events of the counter, of ENV with CAPU, and RESET -/

/-- n steps of CNT_TICK (R101). -/
def cntTicks (n : Nat) (s : State) : State := s.setCapu (s.capu.count s.cfg n)

/-- A configured edge reaches CAPU (R103, R104, R105). -/
def capture (s : State) : State :=
  (s.setCapu (s.capu.capture (s.env.nextOver s.cfg.overcapture))).setEnv
    (if s.capu.cf then s.env.dropOver s.cfg.overcapture else s.env)

/-- ENV puts ECHO at a level: an edge where the level differs, and CAPU's reaction to it, as one atomic
step (R102 to R104). -/
def echoTo (level : Bool) (s : State) : State :=
  if s.env.echo = level then s
  else if s.capu.edge = edgeTo level then (s.setEnv { s.env with echo := level }).capture
  else s.setEnv { s.env with echo := level }

/-- RESET (R270): the CORE at the values of R34; ENV, the external devices (R271) and the record of the pin
trace are not reached. SEQ is IDLE, and BOOT is the CORE's own next operation. The launches still in `script`,
which stands outside the machine, are kept and come before BOOT: DESIGN CHOICE (log 30). -/
def coreReset (s : State) : State :=
  { s with
    capu := capuReset s.cfg s.env.nextReset
    pins := pinsReset
    ctrl := ctrlReset
    work := workReset s.cfg s.env.nextReset
    seq := .idle
    env := s.env.dropReset
    result := .none }

/-- One event of another agent. -/
def event : EnvEvent → State → State
  | .cnt n, s => s.cntTicks n
  | .echo level, s => s.echoTo level
  | .reset, s => s.coreReset

/-- The events due before the next micro-step, in order. `error` gives the state after a RESET, which
abandons the operation (R270); the events behind it stay to come. -/
def deliver : List (Nat × EnvEvent) → State → Except State State
  | [], s => .ok (s.setSchedule [])
  | (0, .reset) :: rest, s => .error (s.coreReset.setSchedule rest)
  | (0, .cnt n) :: rest, s => deliver rest (s.cntTicks n)
  | (0, .echo level) :: rest, s => deliver rest (s.echoTo level)
  | (k + 1, e) :: rest, s => .ok (s.setSchedule ((k, e) :: rest))

/-- The window before a micro-step of SEQ (R6), and the count of the micro-step. -/
def window (s : State) : Except State State :=
  match s.deliver s.env.schedule with
  | .ok t => .ok t.countMicro
  | .error t => .error t

/-! ## The external receivers -/

/-- The level of the DIO line (R18). -/
def dioLine (s : State) : Bool :=
  match s.pins.dioDir with
  | .out => s.pins.dioOut
  | .inPullup => s.env.dioExt

end State

/-- What a delivered transaction does to the panel (R153, R83 to R85); `none` for a list of bytes of none
of the three shapes the CORE sends (R81). DESIGN CHOICE (log 32): of command bytes that coincide, CMD_AUTOINC is
taken first; a byte CMD_CTRL_BASE | l turns the display on at the level in its low three bits, whatever the other
bits of CMD_CTRL_BASE are. -/
def panelEffect (cfg : Config) (bytes : List Byte) (p : Panel) : Option Panel :=
  match bytes with
  | [b] =>
    if b = cfg.cmdAutoinc then some { p with autoInc := true }
    else if b = cfg.cmdCtrlBase ||| (b &&& 7) then some { p with bright := b.setWidth 3, isOn := true }
    else none
  | [a, b0, b1, b2, b3] =>
    if a = cfg.cmdAddr0 then some { p with mem := Mem.writeDigits b0 b1 b2 b3 p.mem } else none
  | _ => none

/-- A START condition (R153). -/
def Display.start (d : Display) : Display :=
  { d with inTxn := true, nbits := 0, cur := 0, bytes := [], nack := false }

/-- A rising clock edge inside a transaction: a data slot, least significant bit first, or the ACK slot
(R153). -/
def Display.clockRise (line : Bool) (d : Display) : Display :=
  if d.nbits.val < 8 then { d with cur := withBit d.cur d.nbits.val line, nbits := d.nbits + 1 }
  else { d with bytes := d.bytes ++ [d.cur], nbits := 0, cur := 0, nack := d.nack || line }

/-- A rising edge of SCLK: "data is sampled on the rising edge by the external register" (R171, R176). -/
def Leds.clockRise (data : Bool) (l : Leds) : Leds :=
  { l with shift := (l.shift.setWidth 7 : BitVec 7) ++ BitVec.ofBool data }

/-- A rising edge of SLAT: the storage register takes the shift register (R172, R176). -/
def Leds.latchRise (l : Leds) : Leds := { l with store := l.shift }

/-- The pins with one of them at a level; DIO's is its output latch. -/
def Pins.put (p : Pins) : Pin → Bool → Pins
  | .trig, v => { p with trig := v }
  | .dclk, v => { p with dclk := v }
  | .dio, v => { p with dioOut := v }
  | .sdat, v => { p with sdat := v }
  | .sclk, v => { p with sclk := v }
  | .slat, v => { p with slat := v }

namespace State

/-- A STOP condition delivers the bytes (R153). Where a byte was not acknowledged, or the bytes are none of
the three shapes, what the panel then holds is a free value (93 U9, log 8). -/
def displayStop (s : State) : State :=
  if s.display.inTxn then
    match s.display.nack, panelEffect s.cfg s.display.bytes s.display.panel with
    | false, some p => s.setDisplay { s.display with inTxn := false, panel := p }
    | _, _ =>
      (s.setDisplay { s.display with inTxn := false, panel := panelOf (Config.freePanel s.env.count.panel) }).setEnv
        { s.env with count := { s.env.count with panel := s.env.count.panel + 1 } }
  else s

/-- The display receiver sees the levels of DCLK and of the DIO line change from `clk` and `line` (R153). -/
def senseDisplay (clk line : Bool) (s : State) : State :=
  if clk && s.pins.dclk && line && !s.dioLine then s.setDisplay s.display.start
  else if clk && s.pins.dclk && !line && s.dioLine then s.displayStop
  else if !clk && s.pins.dclk && s.display.inTxn then s.setDisplay (s.display.clockRise s.dioLine)
  else s

/-- The LED receiver sees the levels of SCLK and SLAT change from `clk` and `latch` (R176). -/
def senseLeds (clk latch : Bool) (s : State) : State :=
  if !clk && s.pins.sclk then s.setLeds (s.leds.clockRise s.pins.sdat)
  else if !latch && s.pins.slat then s.setLeds s.leds.latchRise
  else s

/-- The pins take new values, the trace an event, and the receivers see the change of levels. -/
def drive (p : Pins) (e : TraceEvent) (s : State) : State :=
  (((s.setPins p).addTrace e).senseDisplay s.pins.dclk s.dioLine).senseLeds s.pins.sclk s.pins.slat

/-- `pin[P] <- v` (00_scope section 6). -/
def writePin (p : Pin) (v : Bool) (s : State) : State := s.drive (s.pins.put p v) (.write p v)

/-- `dir[DIO] <- OUT` or `IN_PULLUP`; DIO_OUT keeps its value (R18). Releasing the line begins an ACK
cycle, for which ENV draws the level. -/
def setDir (d : Dir) (s : State) : State :=
  match d with
  | .out => s.drive { s.pins with dioDir := .out } (.dir .out)
  | .inPullup =>
    (((s.setEnv s.env.holdAck).setPins { s.pins with dioDir := .inPullup }).addTrace (.dir .inPullup)).senseDisplay
      s.pins.dclk s.dioLine

end State

/-! ## Operations of SEQ -/

/-- An operation of SEQ, or a part of one: it ends with a result, or is abandoned by a RESET in the state
after it (R9, R270). -/
abbrev Op (α : Type) := StateT State (Except State) α

/-- One micro-step (R6): the window of the other agents, then the step. -/
def micro {α : Type} (f : State → α × State) : Op α := fun s =>
  match s.window with
  | .ok t => .ok (f t)
  | .error t => .error t

/-- A micro-step that changes the state. -/
def act (f : State → State) : Op Unit := micro fun s => ((), f s)

/-- A micro-step that reads. -/
def look {α : Type} (g : State → α) : Op α := micro fun s => (g s, s)

/-- A line that only decides or jumps, where its rule calls it a micro-step (R121): the window, and no change. -/
def control : Op Unit := act id

/-- What SEQ decides on between two micro-steps: registers and parameters it reads without a statement of
its own (log 3). -/
def query {α : Type} (g : State → α) : Op α := fun s => .ok (g s, s)

/-- A change of the sequencer position. -/
def goto (q : SeqPos) : Op Unit := fun s => .ok ((), s.setSeq q)

/-- A write of a working register. -/
def putWork (f : Work → Work) : Op Unit := act fun s => s.setWork (f s.work)

/-- A write of the control state. -/
def putCtrl (f : Ctrl → Ctrl) : Op Unit := act fun s => s.setCtrl (f s.ctrl)

/-- `pin[P] <- v`. -/
def pinWrite (p : Pin) (v : Bool) : Op Unit := act (State.writePin p v)

/-- `dir[DIO] <- d`. -/
def dirWrite (d : Dir) : Op Unit := act (State.setDir d)

/-- `Delay(T)` (R8, R230, R231): a marker in the trace. -/
def delay (k : DelayKind) : Op Unit := act fun s => s.addTrace (.delay k)

/-- Runs an operation from a state to its end and records its return value; an abandoned one leaves the
state after the RESET. -/
def run {α : Type} (m : Op α) (value : α → Value) (s : State) : State :=
  match m s with
  | .ok (a, t) => t.setResult (value a)
  | .error t => t

end Sys2Proof.Machine
end

