-- ==== Sys2Proof/Machine/Buttons.lean ====
section
/-! DEFINITION. The analog button reader and its debouncer (44_button_adc_debounce). -/

namespace Sys2Proof.Machine

/-- ADC_SAMPLE (R185): one sample of ENV's is consumed (R58), ADC_BITS bits of it. -/
def adcSample : Op Nat := micro fun s => (s.cfg.sample s.env.nextSample, s.setEnv s.env.dropSample)

/-- READ_RAW (R188). -/
def readRaw : Op Button := do
  let v ← adcSample
  query fun s => classify s.cfg v

/-- READ_DEBOUNCED after a first sample that differs from STABLE (R189). -/
def confirm : Op Button := do
  delay (.param .settle)
  let c2 ← readRaw
  let cand ← query fun s => s.work.cand
  if c2 = cand then do
    act fun s => s.setCtrl { s.ctrl with stable := s.work.cand }
    query fun s => s.ctrl.stable
  else query fun s => s.ctrl.stable

/-- READ_DEBOUNCED (R189). -/
def readDebounced : Op Button := do
  let c ← readRaw
  putWork fun w => { w with cand := c }
  let stable ← query fun s => s.ctrl.stable
  if c = stable then pure stable else confirm

/-- ADC_SAMPLE (R185). -/
def execAdcSample (s : State) : Answer := .next (run adcSample .sample s)

/-- CLASSIFY, a pure function of the sample, ADC_BITS bits, and the band parameters (R186). -/
def execClassify (sample : Nat) (s : State) : Answer :=
  .next (s.setResult (.button (classify s.cfg (s.cfg.sample sample))))

/-- READ_RAW (R188). -/
def execReadRaw (s : State) : Answer := .next (run readRaw .button s)

/-- READ_DEBOUNCED (R189). -/
def execReadDebounced (s : State) : Answer := .next (run readDebounced .button s)

end Sys2Proof.Machine
end

