-- ==== Sys2Proof/Machine/Capture.lean ====
section
/-! DEFINITION. The input-capture unit (40_capture_unit): its events and SEQ's five primitives. -/

namespace Sys2Proof.Machine

/-- CF_CLEAR (R106). -/
def cfClear : Op Unit := act fun s => s.setCapu s.capu.clearFlag

/-- SET_EDGE_RISING and SET_EDGE_FALLING (R107, R108): no capture (R111). -/
def setEdge (e : Edge) : Op Unit := act fun s => s.setCapu { s.capu with edge := e }

/-- CCR_READ (R109). -/
def ccrRead : Op Nat := look fun s => s.capu.ccr

/-- CF_READ (R110). -/
def cfRead : Op Bool := look fun s => s.capu.cf

/-- CNT_TICK, a step of the counter (R101). -/
def execCntTick (s : State) : Answer := .next ((s.cntTicks 1).setResult .unit)

/-- ECHO_RISE, a step of ENV and CAPU (R103). Where ECHO is 1 already there is no edge and no event
(R102). -/
def execEchoRise (s : State) : Answer := .next ((s.echoTo true).setResult .unit)

/-- ECHO_FALL, a step of ENV and CAPU (R104). Where ECHO is 0 already there is no edge and no event
(R102). -/
def execEchoFall (s : State) : Answer := .next ((s.echoTo false).setResult .unit)

/-- CF_CLEAR (R106). -/
def execCfClear (s : State) : Answer := .next (run cfClear (fun _ => .unit) s)

/-- SET_EDGE_RISING (R107). -/
def execSetEdgeRising (s : State) : Answer := .next (run (setEdge .rising) (fun _ => .unit) s)

/-- SET_EDGE_FALLING (R108). -/
def execSetEdgeFalling (s : State) : Answer := .next (run (setEdge .falling) (fun _ => .unit) s)

/-- CCR_READ (R109). -/
def execCcrRead (s : State) : Answer := .next (run ccrRead .ticks s)

/-- CF_READ (R110). -/
def execCfRead (s : State) : Answer := .next (run cfRead .bit s)

end Sys2Proof.Machine
end

