-- ==== Sys2Proof/Machine/Range.lean ====
section
/-! DEFINITION. The range sensor sequencer and the distance converter (41_range_sensor). -/

namespace Sys2Proof.Machine

/-- TRIG_PULSE (R120). -/
def trigPulse : Op Unit := do
  pinWrite .trig true
  delay (.param .trig)
  pinWrite .trig false

/-- `POLLN <- POLLN + 1`, in POLL_BITS bits (R121). -/
def countPoll : Op Unit := act fun s => s.setWork { s.work with polln := s.cfg.polls (s.work.polln + 1) }

/-- One poll of a capture wait (R121), "each line one micro-step": the read of CF, the test of it, the count, the
comparison, the jump. The flag is tested before the poll is counted. `again` is the rest of the loop. -/
def pollOnce (timeout : Nat) (again : Op WaitResult) : Op WaitResult := do
  let f ← cfRead
  control
  if f then pure .captured
  else do
    countPoll
    let n ← look fun s => s.work.polln
    if timeout ≤ n then pure .timedOut
    else do
      control
      again

/-- The loop of a capture wait (R121). `fuel` bounds the recursion; with `timeout` polls at hand the
comparison ends the loop before it runs out (log 22). -/
def pollLoop (timeout : Nat) : Nat → Op WaitResult
  | 0 => pollOnce timeout (pure .timedOut)
  | fuel + 1 => pollOnce timeout (pollLoop timeout fuel)

/-- WAIT_CAPTURE without its first line: from the poll count as it stands (R122, TIMEOUT_RESTART = false). The
operand is read in POLL_BITS bits. -/
def continueWait (timeout : Nat) : Op WaitResult := do
  let budget ← query fun s => s.cfg.polls timeout
  pollLoop budget budget

/-- WAIT_CAPTURE (R121). -/
def waitCapture (timeout : Nat) : Op WaitResult := do
  putWork fun w => { w with polln := 0 }
  continueWait timeout

/-- M8 of MEASURE_RAW: the second wait, with a fresh budget or, where TIMEOUT_RESTART is false, with what
the first left (R122, D5). -/
def secondWait (timeout : Nat) : Op WaitResult := do
  let restart ← query fun s => s.cfg.timeoutRestart
  if restart then waitCapture timeout else continueWait timeout

/-- M5 to M11 of MEASURE_RAW, after the rising edge was captured (R122, R123). M11 is a phase a script may name, so
it is a micro-step (R90). -/
def measureFall (timeout : Nat) : Op Nat := do
  act fun s => s.setWork { s.work with rise := s.capu.ccr }
  cfClear
  setEdge .falling
  let r ← secondWait timeout
  match r with
  | .timedOut => do
    setEdge .rising
    pure 0
  | .captured => do
    act fun s => s.setWork { s.work with fall := s.capu.ccr }
    setEdge .rising
    look fun s => pulseTicks s.cfg s.work.rise s.work.fall

/-- MEASURE_RAW (R122). -/
def measureRaw (timeout : Nat) : Op Nat := do
  cfClear
  setEdge .rising
  trigPulse
  let r ← waitCapture timeout
  match r with
  | .timedOut => pure 0
  | .captured => measureFall timeout

/-- TRIG_PULSE (R120). -/
def execTrigPulse (s : State) : Answer := .next (run trigPulse (fun _ => .unit) s)

/-- WAIT_CAPTURE (R121). -/
def execWaitCapture (timeout : Nat) (s : State) : Answer := .next (run (waitCapture timeout) .wait s)

/-- MEASURE_RAW (R122). -/
def execMeasureRaw (timeout : Nat) (s : State) : Answer := .next (run (measureRaw timeout) .ticks s)

/-- TICKS_TO_CM, a pure function of its operand, W bits (R126). -/
def execTicksToCm (ticks : Nat) (s : State) : Answer :=
  .next (s.setResult (.dist (ticksToCm (s.cfg.ticks ticks))))

/-- TICKS_TO_INCH, a pure function of its operand, W bits (R127). -/
def execTicksToInch (ticks : Nat) (s : State) : Answer :=
  .next (s.setResult (.dist (ticksToInch (s.cfg.ticks ticks))))

end Sys2Proof.Machine
end

