-- ==== Sys2Proof/Machine/Shift.lean ====
section
/-! DEFINITION. The shift-register driver and the LED pattern (43_shift_ledbar). -/

namespace Sys2Proof.Machine

/-- SR_BIT (R171). -/
def srBit (b : Bool) : Op Unit := do
  pinWrite .sdat b
  pinWrite .sclk true
  pinWrite .sclk false

/-- SR_LATCH (R172). -/
def srLatch : Op Unit := do
  pinWrite .slat true
  pinWrite .slat false

/-- The shifts of SEND_PATTERN, `left` of the eight to go (R173): bit 7 of SH, then SH one to the left. -/
def srBits : Nat → Op Unit
  | 0 => pure ()
  | left + 1 => do
    putWork fun w => { w with bi := BitVec.ofNat 4 (7 - left) }
    let b ← query fun s => s.work.sh.getLsbD 7
    srBit b
    putWork fun w => { w with sh := w.sh <<< 1 }
    srBits left

/-- SEND_PATTERN (R173). -/
def sendPattern (p : Byte) : Op Unit := do
  pinWrite .slat false
  putWork fun w => { w with sh := p }
  srBits 8
  srLatch

/-- SR_BIT (R171). -/
def execSrBit (bit : Bool) (s : State) : Answer := .next (run (srBit bit) (fun _ => .unit) s)

/-- SR_LATCH (R172). -/
def execSrLatch (s : State) : Answer := .next (run srLatch (fun _ => .unit) s)

/-- SEND_PATTERN (R173). -/
def execSendPattern (pattern : Byte) (s : State) : Answer :=
  .next (run (sendPattern pattern) (fun _ => .unit) s)

/-- LED_PATTERN, a pure function (R174). -/
def execLedPattern (distance threshold : Dist) (s : State) : Answer :=
  .next (s.setResult (.byte (ledPattern distance threshold)))

end Sys2Proof.Machine
end

