-- ==== Sys2Proof/Machine/TwoWire.lean ====
section
/-! DEFINITION. The two-wire display transmitter (42_twowire_display) and the display commands
(30_encoding R83 to R85). -/

namespace Sys2Proof.Machine

/-- TW_START (R141). -/
def twStart : Op Unit := do
  pinWrite .dio true
  pinWrite .dclk true
  delay (.param .start)
  pinWrite .dio false
  delay (.param .start)

/-- TW_BIT (R142). -/
def twBit (b : Bool) : Op Unit := do
  pinWrite .dclk false
  pinWrite .dio b
  delay (.param .setup)
  pinWrite .dclk true
  delay (.param .hold)

/-- `ACKV <- pin[DIO]`: the read and its trace event (R143). -/
def sampleAck : Op Unit := act fun s =>
  (s.addTrace (.read s.dioLine)).setWork { s.work with ackv := s.dioLine }

/-- TW_ACK (R143). -/
def twAck : Op Bool := do
  pinWrite .dclk false
  dirWrite .inPullup
  pinWrite .dclk true
  sampleAck
  pinWrite .dclk false
  dirWrite .out
  query fun s => s.work.ackv

/-- The data slots of TW_BYTE, `left` of the eight to go (R144): bit 0 of SH, then SH one to the right. -/
def twBits : Nat → Op Unit
  | 0 => pure ()
  | left + 1 => do
    putWork fun w => { w with bi := BitVec.ofNat 4 (7 - left) }
    let b ← query fun s => s.work.sh.getLsbD 0
    twBit b
    putWork fun w => { w with sh := w.sh >>> 1 }
    twBits left

/-- TW_BYTE (R144). -/
def twByte (v : Byte) : Op Bool := do
  putWork fun w => { w with sh := v }
  twBits 8
  twAck

/-- TW_STOP (R145). -/
def twStop : Op Unit := do
  pinWrite .dclk false
  pinWrite .dio false
  delay (.param .stop)
  pinWrite .dclk true
  delay (.param .stop)
  pinWrite .dio true
  delay (.param .stop)

/-- The bytes of a transaction, each result dropped (R146, R152). -/
def twBytes : List Byte → Op Unit
  | [] => pure ()
  | v :: rest => do
    let _ ← twByte v
    twBytes rest

/-- TW_TRANSACTION (R146). -/
def twTransaction (bytes : List Byte) : Op Unit := do
  twStart
  twBytes bytes
  twStop

/-- `FRAME[i] <- MemRead(SEGMAP, c, 1)` (R147); `store` names the digit. -/
def putDigit (c : Byte) (store : Frame → Byte → Frame) : Op Unit := act fun s =>
  s.setWork { s.work with frame := store s.work.frame (segment s.cfg c) }

/-- TEXT_TO_FRAME (R147). -/
def textToFrame (text : Text) : Op Unit := do
  putDigit (frameChar text 0) fun f b => { f with d0 := b }
  putDigit (frameChar text 1) fun f b => { f with d1 := b }
  putDigit (frameChar text 2) fun f b => { f with d2 := b }
  putDigit (frameChar text 3) fun f b => { f with d3 := b }

/-- The transaction of the auto-increment command (R83, R149 a). -/
def sendAutoinc : Op Unit := do
  let command ← query fun s => s.cfg.cmdAutoinc
  twTransaction [command]

/-- The transaction of the address command with the four digit bytes (R84, R149 b). -/
def sendDigits : Op Unit := do
  let bytes ← query fun s =>
    [s.cfg.cmdAddr0, s.work.frame.d0, s.work.frame.d1, s.work.frame.d2, s.work.frame.d3]
  twTransaction bytes

/-- WRITE_FRAME (R149). -/
def writeFrame : Op Unit := do
  sendAutoinc
  sendDigits

/-- WRITE_DIGITS (R150). -/
def writeDigits (text : Text) : Op Unit := do
  textToFrame text
  writeFrame

/-- SET_BRIGHTNESS (R151). -/
def setBrightness (level : Byte) : Op Unit := do
  let command ← query fun s => brightCommand s.cfg level
  twTransaction [command]

/-- TW_START (R141). -/
def execTwStart (s : State) : Answer := .next (run twStart (fun _ => .unit) s)

/-- TW_BIT (R142). -/
def execTwBit (bit : Bool) (s : State) : Answer := .next (run (twBit bit) (fun _ => .unit) s)

/-- TW_ACK (R143). -/
def execTwAck (s : State) : Answer := .next (run twAck .bit s)

/-- TW_BYTE (R144). -/
def execTwByte (byte : Byte) (s : State) : Answer := .next (run (twByte byte) .bit s)

/-- TW_STOP (R145). -/
def execTwStop (s : State) : Answer := .next (run twStop (fun _ => .unit) s)

/-- TW_TRANSACTION (R146). -/
def execTwTransaction (bytes : List Byte) (s : State) : Answer :=
  .next (run (twTransaction bytes) (fun _ => .unit) s)

/-- TEXT_TO_FRAME (R147); its result is FRAME. -/
def execTextToFrame (text : Text) (s : State) : Answer := .next (run (textToFrame text) (fun _ => .unit) s)

/-- NUM_TO_TEXT, a pure function (R148). -/
def execNumToText (value : Nat) (s : State) : Answer := .next (s.setResult (.text (numToText value)))

/-- WRITE_FRAME (R149). -/
def execWriteFrame (s : State) : Answer := .next (run writeFrame (fun _ => .unit) s)

/-- WRITE_DIGITS (R150). -/
def execWriteDigits (text : Text) (s : State) : Answer := .next (run (writeDigits text) (fun _ => .unit) s)

/-- SET_BRIGHTNESS (R151). -/
def execSetBrightness (level : Byte) (s : State) : Answer :=
  .next (run (setBrightness level) (fun _ => .unit) s)

/-- CMD_AUTOINC (R83): "the single byte of the first transaction of a digit update" (log 13). -/
def execCmdAutoinc (s : State) : Answer := .next (run sendAutoinc (fun _ => .unit) s)

/-- CMD_ADDR0 (R84): "the first byte of the second transaction of a digit update" (log 13). -/
def execCmdAddr0 (s : State) : Answer := .next (run sendDigits (fun _ => .unit) s)

/-- CMD_CTRL (R85): the transaction of the brightness command with a 3-bit level (log 13). -/
def execCmdCtrl (level : BitVec 3) (s : State) : Answer :=
  .next (run (setBrightness (level.setWidth 8)) (fun _ => .unit) s)

end Sys2Proof.Machine
end

