-- ==== Sys2Proof/Machine/Fsm.lean ====
section
/-! DEFINITION. The ranging and setup state machine (45_ranging_fsm). -/

namespace Sys2Proof.Machine

/-- SHOW_ERROR (R211). -/
def showError : Op Unit := do
  let text ← query fun s => s.cfg.errText
  writeDigits text
  sendPattern 0

/-- SHOW_DISTANCE (R212). -/
def showDistance (raw : Nat) : Op Unit := do
  act fun s => s.setWork { s.work with dist := distanceIn s.ctrl.unit raw }
  let dist ← query fun s => s.work.dist
  writeDigits (numToText dist.toNat)
  act fun s => s.setWork { s.work with thru := thresholdIn s.cfg s.ctrl.unit s.ctrl.threshold }
  let pattern ← query fun s => ledPattern s.work.dist s.work.thru
  sendPattern pattern

/-- SHOW_THRESHOLD (R213). -/
def showThreshold : Op Unit := do
  act fun s => s.setWork { s.work with thru := thresholdIn s.cfg s.ctrl.unit s.ctrl.threshold }
  let thru ← query fun s => s.work.thru
  writeDigits (numToText thru.toNat)

/-- THR_ADJUST (R214). -/
def thrAdjust (delta : Int) : Op Unit :=
  putCtrl fun c => { c with threshold := adjustThreshold c.threshold delta }

/-- `STATE <- v`. -/
def putState (v : BitVec StateBits) : Op Unit := putCtrl fun c => { c with opState := v }

/-- RANGING_CYCLE (R210): the test is on the RawEcho, not on the distance. -/
def rangingCycle : Op Unit := do
  let timeout ← query fun s => s.cfg.measureTimeout
  let echo ← measureRaw timeout
  act fun s => s.setWork { s.work with raw := s.cfg.ticks echo }
  let raw ← query fun s => s.work.raw
  if raw = 0 then showError else showDistance raw

/-- M_NONE (R201). -/
def mNone : Op Unit := do
  rangingCycle
  delay (.param .gap)

/-- M_MODE (R202). -/
def mMode : Op Unit := putCtrl fun c => { c with unit := toggleUnit c.unit }

/-- M_UP (R203). -/
def mUp : Op Unit := do
  putState stSetup
  showThreshold

/-- M_DOWN (R204). -/
def mDown : Op Unit := do
  putState stSetup
  showThreshold

/-- S_NONE (R205). -/
def sNone : Op Unit := do
  showThreshold
  delay (.param .setupTick)

/-- S_MODE (R206). -/
def sMode : Op Unit := do
  putState stMeasure
  delay (.param .setupTick)

/-- S_UP (R207). -/
def sUp : Op Unit := do
  thrAdjust (thrStep : Int)
  showThreshold
  delay (.param .setupTick)

/-- S_DOWN (R208). -/
def sDown : Op Unit := do
  thrAdjust (-(thrStep : Int))
  showThreshold
  delay (.param .setupTick)

/-- F_RECOVER (R209). -/
def fRecover : Op Unit := putState stMeasure

/-- The arm a dispatch word selects (R87, R200). -/
def arm (dw : BitVec 4) : Op Unit :=
  match dw.toNat with
  | 0 => mNone
  | 1 => mMode
  | 2 => mUp
  | 3 => mDown
  | 4 => sNone
  | 5 => sMode
  | 6 => sUp
  | 7 => sDown
  | _ => fRecover

/-- TICK (R200). -/
def tick : Op Unit := do
  let e ← readDebounced
  putWork fun w => { w with ev := e }
  let dw ← query fun s => dispatchWord s.ctrl.opState s.work.ev
  arm dw

/-- TICK (R200). -/
def execTick (s : State) : Answer := .next (run tick (fun _ => .unit) s)

/-- M_NONE (R201); invoked alone an arm runs its body whatever STATE and EV are (log 12). -/
def execMNone (s : State) : Answer := .next (run mNone (fun _ => .unit) s)

/-- M_MODE (R202). -/
def execMMode (s : State) : Answer := .next (run mMode (fun _ => .unit) s)

/-- M_UP (R203). -/
def execMUp (s : State) : Answer := .next (run mUp (fun _ => .unit) s)

/-- M_DOWN (R204). -/
def execMDown (s : State) : Answer := .next (run mDown (fun _ => .unit) s)

/-- S_NONE (R205). -/
def execSNone (s : State) : Answer := .next (run sNone (fun _ => .unit) s)

/-- S_MODE (R206). -/
def execSMode (s : State) : Answer := .next (run sMode (fun _ => .unit) s)

/-- S_UP (R207). -/
def execSUp (s : State) : Answer := .next (run sUp (fun _ => .unit) s)

/-- S_DOWN (R208). -/
def execSDown (s : State) : Answer := .next (run sDown (fun _ => .unit) s)

/-- F_RECOVER (R209): "any EV", and STATE[0] is ignored. -/
def execFRecover (_ignored : BitVec 3) (s : State) : Answer := .next (run fRecover (fun _ => .unit) s)

/-- RANGING_CYCLE (R210). -/
def execRangingCycle (s : State) : Answer := .next (run rangingCycle (fun _ => .unit) s)

/-- SHOW_ERROR (R211). -/
def execShowError (s : State) : Answer := .next (run showError (fun _ => .unit) s)

/-- SHOW_DISTANCE (R212); its operand has W bits. -/
def execShowDistance (raw : Nat) (s : State) : Answer :=
  .next (run (showDistance (s.cfg.ticks raw)) (fun _ => .unit) s)

/-- SHOW_THRESHOLD (R213). -/
def execShowThreshold (s : State) : Answer := .next (run showThreshold (fun _ => .unit) s)

/-- THR_ADJUST (R214). -/
def execThrAdjust (delta : Int) (s : State) : Answer := .next (run (thrAdjust delta) (fun _ => .unit) s)

/-- CM_TO_INCH, a pure function of its operand and CM2IN (R215). -/
def execCmToInch (cm : Dist) (s : State) : Answer := .next (s.setResult (.dist (cmToInch s.cfg cm)))

/-- THR_IN_UNIT: reads UNIT and THRESHOLD, writes nothing (R216). -/
def execThrInUnit (s : State) : Answer :=
  .next (s.setResult (.dist (thresholdIn s.cfg s.ctrl.unit s.ctrl.threshold)))

end Sys2Proof.Machine
end

