-- ==== Sys2Proof/Machine/Services.lean ====
section
/-! DEFINITION. The consumed services (46_external_services), RESET and BOOT (70_reset_and_hazards). -/

namespace Sys2Proof.Machine

/-- BOOT (R273): the brightness step, then the endless loop, each TICK of which is a step of its own
(log 19). -/
def boot : Op Unit := do
  let level ← query fun s => s.cfg.brightInit
  match level with
  | some l => do
    setBrightness (l.setWidth 8)
    goto .loop
  | none => goto .loop

/-- DELAY_US (R230): no effect on the CORE's state, a marker in the trace. How long is time, which the model
does not have (R8). -/
def execDelayUs (_n : Nat) (s : State) : Answer := .next (run (delay .call) (fun _ => .unit) s)

/-- DELAY_MS (R231): the same marker as DELAY_US, "a model without time treats both as the same marker". -/
def execDelayMs (_n : Nat) (s : State) : Answer := .next (run (delay .call) (fun _ => .unit) s)

/-- LOG_TEXT (R232): no effect on the CORE's state. -/
def execLogText (_text : Text) (s : State) : Answer := .next (s.setResult .unit)

/-- LOG_NUMBER (R233): no effect on the CORE's state. -/
def execLogNumber (_number : BitVec 32) (s : State) : Answer := .next (s.setResult .unit)

/-- RESET (R270). -/
def execReset (s : State) : Answer := .next s.coreReset

/-- BOOT (R273). -/
def execBoot (s : State) : Answer := .next (run boot (fun _ => .unit) s)

end Sys2Proof.Machine
end

