-- ==== Sys2Proof/Machine/Dispatch.lean ====
section
/-! DEFINITION. The dispatch: one arm per operation, each one call of its meaning. -/

namespace Sys2Proof.Machine

def exec (i : Instr) (s : State) : Host.Outcome State Fault Refusal :=
  match i with
  | .cntTick => Sys2Proof.Machine.execCntTick s
  | .echoRise => Sys2Proof.Machine.execEchoRise s
  | .echoFall => Sys2Proof.Machine.execEchoFall s
  | .cfClear => Sys2Proof.Machine.execCfClear s
  | .setEdgeRising => Sys2Proof.Machine.execSetEdgeRising s
  | .setEdgeFalling => Sys2Proof.Machine.execSetEdgeFalling s
  | .ccrRead => Sys2Proof.Machine.execCcrRead s
  | .cfRead => Sys2Proof.Machine.execCfRead s
  | .trigPulse => Sys2Proof.Machine.execTrigPulse s
  | .waitCapture timeout => Sys2Proof.Machine.execWaitCapture timeout s
  | .measureRaw timeout => Sys2Proof.Machine.execMeasureRaw timeout s
  | .ticksToCm ticks => Sys2Proof.Machine.execTicksToCm ticks s
  | .ticksToInch ticks => Sys2Proof.Machine.execTicksToInch ticks s
  | .twStart => Sys2Proof.Machine.execTwStart s
  | .twBit bit => Sys2Proof.Machine.execTwBit bit s
  | .twAck => Sys2Proof.Machine.execTwAck s
  | .twByte byte => Sys2Proof.Machine.execTwByte byte s
  | .twStop => Sys2Proof.Machine.execTwStop s
  | .twTransaction bytes => Sys2Proof.Machine.execTwTransaction bytes s
  | .textToFrame text => Sys2Proof.Machine.execTextToFrame text s
  | .numToText value => Sys2Proof.Machine.execNumToText value s
  | .writeFrame => Sys2Proof.Machine.execWriteFrame s
  | .writeDigits text => Sys2Proof.Machine.execWriteDigits text s
  | .setBrightness level => Sys2Proof.Machine.execSetBrightness level s
  | .srBit bit => Sys2Proof.Machine.execSrBit bit s
  | .srLatch => Sys2Proof.Machine.execSrLatch s
  | .sendPattern pattern => Sys2Proof.Machine.execSendPattern pattern s
  | .ledPattern distance threshold => Sys2Proof.Machine.execLedPattern distance threshold s
  | .adcSample => Sys2Proof.Machine.execAdcSample s
  | .classify sample => Sys2Proof.Machine.execClassify sample s
  | .readRaw => Sys2Proof.Machine.execReadRaw s
  | .readDebounced => Sys2Proof.Machine.execReadDebounced s
  | .tick => Sys2Proof.Machine.execTick s
  | .rangingCycle => Sys2Proof.Machine.execRangingCycle s
  | .showError => Sys2Proof.Machine.execShowError s
  | .showDistance raw => Sys2Proof.Machine.execShowDistance raw s
  | .showThreshold => Sys2Proof.Machine.execShowThreshold s
  | .thrAdjust delta => Sys2Proof.Machine.execThrAdjust delta s
  | .cmToInch cm => Sys2Proof.Machine.execCmToInch cm s
  | .thrInUnit => Sys2Proof.Machine.execThrInUnit s
  | .delayUs n => Sys2Proof.Machine.execDelayUs n s
  | .delayMs n => Sys2Proof.Machine.execDelayMs n s
  | .logText text => Sys2Proof.Machine.execLogText text s
  | .logNumber number => Sys2Proof.Machine.execLogNumber number s
  | .reset => Sys2Proof.Machine.execReset s
  | .boot => Sys2Proof.Machine.execBoot s
  | .mNone => Sys2Proof.Machine.execMNone s
  | .mMode => Sys2Proof.Machine.execMMode s
  | .mUp => Sys2Proof.Machine.execMUp s
  | .mDown => Sys2Proof.Machine.execMDown s
  | .sNone => Sys2Proof.Machine.execSNone s
  | .sMode => Sys2Proof.Machine.execSMode s
  | .sUp => Sys2Proof.Machine.execSUp s
  | .sDown => Sys2Proof.Machine.execSDown s
  | .fRecover ignored => Sys2Proof.Machine.execFRecover ignored s
  | .cmdAutoinc => Sys2Proof.Machine.execCmdAutoinc s
  | .cmdAddr0 => Sys2Proof.Machine.execCmdAddr0 s
  | .cmdCtrl level => Sys2Proof.Machine.execCmdCtrl level s

end Sys2Proof.Machine
end

