-- ==== Sys2Proof/Machine/Launch.lean ====
section
/-! DEFINITION. What runs next: the launch premises, the script, the control flow (70_reset_and_hazards
R272, R273; 00_scope R9). -/

namespace Sys2Proof.Machine

/-- Why the machine does not start, if it does not: "timers are ready" does not hold (R234, R272, 93 U11),
or the configuration breaks its constraints (R187, 93 U16). -/
def launchRefusal (cfg : Config) : Option Refusal :=
  if !cfg.timersReady then some .launchPremise
  else if !configOk cfg then some .badConfig
  else none

/-- The next operation and the state it starts from: the first of the script (one operation invoked alone,
R9); with an empty script SEQ's own next one, BOOT from IDLE and TICK in the loop (R273). -/
def fetch (s : State) : Except DecodeError (Instr × State) :=
  match s.script with
  | w :: rest =>
    match decode w.space w.bytes with
    | .ok (i, _) => .ok (i, s.setScript rest)
    | .error e => .error e
  | [] =>
    match s.seq with
    | .idle => .ok (.boot, s)
    | .loop => .ok (.tick, s)

end Sys2Proof.Machine
end

