-- ==== Sys2Proof/Machine/Step.lean ====
section
/-! DEFINITION. One step of the machine: one operation, run to its end (log 2). -/

namespace Sys2Proof.Machine

/-- One step. -/
def step (s : State) : Host.Outcome State Fault Refusal :=
  match launchRefusal s.cfg with
  | some r => .refused r
  | none =>
    match fetch s with
    | .ok (i, t) => exec i t
    | .error e => .refused (.notAnOperation e)

/-- `s` with a word of the table in front of its script, where `fetch` takes the next operation. -/
def State.withFetchWord (s : State) (nbits w : Nat) : State := s.setScript (tableWord nbits w :: s.script)

end Sys2Proof.Machine
end

