-- ==== Sys2Proof/Safety.lean ====
section
/-! DEFINITION. The terms the claims use: when no other agent disturbs an operation, the invariants, the
pin traces the rules write out, and who writes which part of the state. -/

namespace Sys2Proof.Machine

/-! ## The other agents -/

/-- No event of another agent is to come. -/
def Quiet (s : State) : Prop := s.env.schedule = []

/-- No RESET is to come; the counter and ECHO are free to do anything. -/
def NoReset (s : State) : Prop := ∀ e ∈ s.env.schedule, e.2 ≠ EnvEvent.reset

/-- The level of the k-th ACK cycle from now: ENV's queue, then free values (93 U7). -/
def ackAt (s : State) (k : Nat) : Bool :=
  match s.env.ack[k]? with
  | some v => v
  | none => Config.freeAck (s.env.count.ack + k)

/-- The levels of the next n ACK cycles. -/
def ackLevels (s : State) (n : Nat) : List Bool := (List.range n).map (ackAt s)

/-- The k-th analog sample from now: ENV's queue, then free values (93 U6). -/
def sampleAt (s : State) (k : Nat) : Nat :=
  s.cfg.sample (match s.env.adc[k]? with
    | some v => v
    | none => Config.freeSample (s.env.count.sample + k))

/-- The class of the k-th sample from now. -/
def classAt (s : State) (k : Nat) : Button := classify s.cfg (sampleAt s k)

/-- What READ_DEBOUNCED reports from a state (R189). -/
def debounced (s : State) : Button :=
  if classAt s 0 = s.ctrl.stable then s.ctrl.stable
  else if classAt s 1 = classAt s 0 then classAt s 0
  else s.ctrl.stable

/-! ## Invariants -/

/-- The display bus is idle (R140). -/
def DisplayBusIdle (p : Pins) : Prop := p.dclk = true ∧ p.dioDir = .out ∧ p.dioOut = true

/-- Every pin rests as R35 (d) says. -/
def PinsIdle (p : Pins) : Prop := p.trig = false ∧ DisplayBusIdle p ∧ p.sclk = false ∧ p.slat = false

/-- The STATE register holds MEASURE or SETUP (R35 c). -/
def LegalState (c : Ctrl) : Prop := c.opState = 0 ∨ c.opState = 1

/-- What holds whenever SEQ is idle in a run of the control loop (R35). -/
def Between (s : State) : Prop :=
  s.capu.edge = .rising ∧ s.ctrl.threshold.toNat ≤ 400 ∧ s.ctrl.threshold.toNat % 10 = 0 ∧
  LegalState s.ctrl ∧ PinsIdle s.pins

/-- CNT and CCR hold numbers of W bits (R11, R12). -/
def Capu.InWidth (cfg : Config) (c : Capu) : Prop := c.cnt < 2 ^ cfg.cntBits ∧ c.ccr < 2 ^ cfg.cntBits

/-- RISE, FALL and RAW hold numbers of W bits, POLLN one of POLL_BITS bits (R21 to R23, R37). -/
def Work.InWidth (cfg : Config) (w : Work) : Prop :=
  w.rise < 2 ^ cfg.cntBits ∧ w.fall < 2 ^ cfg.cntBits ∧ w.raw < 2 ^ cfg.cntBits ∧ w.polln < 2 ^ cfg.pollBits

/-- What every operation keeps, alone or in the loop: the display memory is in canonical form and has the
addresses 0..3 only, THRESHOLD is in its range, STATE is legal, the counts are in their widths. -/
def MachineInv (s : State) : Prop :=
  Mem.wf s.display.panel.mem = true ∧ Mem.below 4 s.display.panel.mem = true ∧
  s.ctrl.threshold.toNat ≤ 400 ∧ LegalState s.ctrl ∧ s.capu.InWidth s.cfg ∧ s.work.InWidth s.cfg

/-! ## Pin traces, oldest event first -/

/-- The trace of an execution grew by these events, oldest first (the trace is kept newest first). -/
def Emitted (s t : State) (events : List TraceEvent) : Prop := t.trace = events.reverse ++ s.trace

/-- TW_START (R141). -/
def startEvents : List TraceEvent :=
  [.write .dio true, .write .dclk true, .delay (.param .start), .write .dio false, .delay (.param .start)]

/-- TW_BIT (R142). -/
def bitEvents (b : Bool) : List TraceEvent :=
  [.write .dclk false, .write .dio b, .delay (.param .setup), .write .dclk true, .delay (.param .hold)]

/-- TW_ACK with the sampled level (R143). -/
def ackEvents (level : Bool) : List TraceEvent :=
  [.write .dclk false, .dir .inPullup, .write .dclk true, .read level, .write .dclk false, .dir .out]

/-- TW_STOP (R145). -/
def stopEvents : List TraceEvent :=
  [.write .dclk false, .write .dio false, .delay (.param .stop), .write .dclk true, .delay (.param .stop),
   .write .dio true, .delay (.param .stop)]

/-- TW_BYTE: bit 0 first, bit 7 last, then the ACK cycle (R54, R144). -/
def byteEvents (v : Byte) (level : Bool) : List TraceEvent :=
  (List.range 8).flatMap (fun k => bitEvents (v.getLsbD k)) ++ ackEvents level

/-- TW_TRANSACTION with the level of each ACK cycle (R146). -/
def transactionEvents (bytes : List Byte) (levels : List Bool) : List TraceEvent :=
  startEvents ++ (bytes.zip levels).flatMap (fun p => byteEvents p.1 p.2) ++ stopEvents

/-- The four segment bytes TEXT_TO_FRAME gives a text (R147). -/
def frameOf (cfg : Config) (text : Text) : Frame :=
  ⟨segment cfg (frameChar text 0), segment cfg (frameChar text 1), segment cfg (frameChar text 2),
    segment cfg (frameChar text 3)⟩

/-- WRITE_FRAME with the levels of its six ACK cycles: the two transactions of a digit update (R149). -/
def updateEvents (cfg : Config) (f : Frame) (levels : List Bool) : List TraceEvent :=
  transactionEvents [cfg.cmdAutoinc] (levels.take 1) ++
    transactionEvents [cfg.cmdAddr0, f.d0, f.d1, f.d2, f.d3] (levels.drop 1)

/-- SR_BIT (R171). -/
def shiftEvents (b : Bool) : List TraceEvent := [.write .sdat b, .write .sclk true, .write .sclk false]

/-- SEND_PATTERN: bit 7 first, bit 0 last, then the latch pulse (R55, R173). -/
def patternEvents (p : Byte) : List TraceEvent :=
  [.write .slat false] ++ (List.range 8).flatMap (fun k => shiftEvents (p.getLsbD (7 - k))) ++
    [.write .slat true, .write .slat false]

/-- A trace event with the level of a read forgotten (R152). -/
def forgetRead : TraceEvent → TraceEvent
  | .read _ => .read false
  | .write p v => .write p v
  | .dir d => .dir d
  | .delay k => .delay k

/-! ## Who writes what (R218 and the "written only by" of 10_state) -/

/-- TICK, RESET. -/
def isTickOrReset : Instr → Bool
  | .tick | .reset => true
  | _ => false

/-- The operations that measure: MEASURE_RAW and those that call it. -/
def measures : Instr → Bool
  | .measureRaw _ | .rangingCycle | .mNone => true
  | i => isTickOrReset i

/-- The operations that refresh the display with a text. -/
def writesText : Instr → Bool
  | .writeDigits _ | .showError | .showDistance _ | .showThreshold | .rangingCycle | .mNone | .mUp | .mDown
  | .sNone | .sUp | .sDown => true
  | i => isTickOrReset i

/-- The operations that write FRAME (R25). -/
def writesFrame : Instr → Bool
  | .textToFrame _ => true
  | i => writesText i

/-- The operations that send bytes on the display bus. -/
def sendsBytes : Instr → Bool
  | .twByte _ | .twTransaction _ | .writeFrame | .setBrightness _ | .boot | .cmdAutoinc | .cmdAddr0
  | .cmdCtrl _ => true
  | i => writesText i

/-- The operations that write the pins of the display bus (R17, R18). -/
def drivesDisplay : Instr → Bool
  | .twStart | .twBit _ | .twAck | .twStop => true
  | i => sendsBytes i

/-- The operations that send a pattern on the shift bus. -/
def sendsPattern : Instr → Bool
  | .sendPattern _ | .showError | .showDistance _ | .rangingCycle | .mNone => true
  | i => isTickOrReset i

/-- The operations that write the pins of the shift bus (R19). -/
def drivesShift : Instr → Bool
  | .srBit _ | .srLatch => true
  | i => sendsPattern i

/-- The operations that write STATE (R218). -/
def writesState : Instr → Bool
  | .mUp | .mDown | .sMode | .fRecover _ => true
  | i => isTickOrReset i

/-- The operations that write UNIT (R218). -/
def writesUnit : Instr → Bool
  | .mMode => true
  | i => isTickOrReset i

/-- The operations that write THRESHOLD (R218). -/
def writesThreshold : Instr → Bool
  | .thrAdjust _ | .sUp | .sDown => true
  | i => isTickOrReset i

/-- The operations that write STABLE (R192). -/
def writesStable : Instr → Bool
  | .readDebounced => true
  | i => isTickOrReset i

/-- The operations that write EDGE (R13). -/
def writesEdge : Instr → Bool
  | .setEdgeRising | .setEdgeFalling => true
  | i => measures i

/-- The operations that write a capture-unit register. -/
def writesCapu : Instr → Bool
  | .cntTick | .echoRise | .echoFall | .cfClear => true
  | i => writesEdge i

/-- The operations that write POLLN (R23). -/
def writesPolln : Instr → Bool
  | .waitCapture _ => true
  | i => measures i

/-- The operations that write DIST (R37). -/
def writesDist : Instr → Bool
  | .showDistance _ | .rangingCycle | .mNone => true
  | i => isTickOrReset i

/-- The operations that write THRU (R37). -/
def writesThru : Instr → Bool
  | .showDistance _ | .showThreshold | .rangingCycle | .mNone | .mUp | .mDown | .sNone | .sUp | .sDown => true
  | i => isTickOrReset i

/-- The operations that write RAW (R37). -/
def writesRaw : Instr → Bool
  | .rangingCycle | .mNone => true
  | i => isTickOrReset i

end Sys2Proof.Machine
end

