-- ==== Sys2Proof/Certificates/Slice0/Obligations.lean ====
section
/-! DEFINITION. The statements for the provers. -/

open Sys2Proof Sys2Proof.Machine

/-! ## Words -/

/-- R92, R87, R83 to R85 and log 11: no bit of an encoding is dropped. The operand bytes are the model's own
encoding (log 11). -/
def Obligations.EncodeDecodeRoundTrip : Prop :=
  ∀ (i : Instr) (rest : List Byte), i.wellFormed = true →
    decode (encode i).space ((encode i).bytes ++ rest) = .ok (i, rest)

/-- R81, R146, "a list of n >= 1 bytes": what the decoder gives is well-formed. -/
def Obligations.DecodedOperationsAreWellFormed : Prop :=
  ∀ (space : WordSpace) (bytes : List Byte) (i : Instr) (rest : List Byte),
    decode space bytes = .ok (i, rest) → i.wellFormed = true

/-- R92, R87, R83 to R85: some words of the table, written out. The zeros that stand for operands behind a word, and
that eight bits are read as an operation index below 64 and as a command byte above, are the model's choice
(log 11). -/
def Obligations.TableWordsDecode : Prop :=
  decodeTableWord 6 0b000000 = some .cntTick ∧ decodeTableWord 6 0b001010 = some (.measureRaw 0) ∧
  decodeTableWord 6 0b010010 = some (.twTransaction [0]) ∧ decodeTableWord 6 0b011010 = some (.sendPattern 0) ∧
  decodeTableWord 6 0b011111 = some .readDebounced ∧ decodeTableWord 6 0b100000 = some .tick ∧
  decodeTableWord 6 0b101101 = some .boot ∧ decodeTableWord 4 0b0000 = some .mNone ∧
  decodeTableWord 4 0b0111 = some .sDown ∧ decodeTableWord 4 0b1110 = some (.fRecover 0b110) ∧
  decodeTableWord 8 0b01000000 = some .cmdAutoinc ∧ decodeTableWord 8 0b11000000 = some .cmdAddr0 ∧
  decodeTableWord 8 0b10001101 = some (.cmdCtrl 5)

/-- R87: the value of the dispatch word, STATE in the upper two bits and the code of R70 in the lower two, and the
complete map from it to the arms. -/
def Obligations.DispatchWordMap : Prop :=
  (∀ (st : BitVec 2) (ev : Button), (dispatchWord st ev).toNat =
    4 * st.toNat + (match ev with | .none => 0 | .mode => 1 | .up => 2 | .down => 3)) ∧
  (∀ ev : Button, decodeDw (dispatchWord 0 ev) =
    match ev with | .none => .mNone | .mode => .mMode | .up => .mUp | .down => .mDown) ∧
  (∀ ev : Button, decodeDw (dispatchWord 1 ev) =
    match ev with | .none => .sNone | .mode => .sMode | .up => .sUp | .down => .sDown) ∧
  (∀ (st : BitVec 2) (ev : Button), 2 ≤ st.toNat → ∃ k, decodeDw (dispatchWord st ev) = .fRecover k)

/-! ## Steps -/

/-- R9, R90, R273: a step runs the operation its launch decodes to; with nothing launched, BOOT from IDLE and
one TICK after the other in the loop. -/
def Obligations.StepRunsDecodedOperation : Prop :=
  (∀ (s : State) (w : OpWord) (more : List OpWord) (i : Instr) (rest : List Byte),
    launchRefusal s.cfg = none → s.script = w :: more → decode w.space w.bytes = .ok (i, rest) →
    step s = exec i (s.setScript more)) ∧
  ∀ s : State, launchRefusal s.cfg = none → s.script = [] →
    (s.seq = .idle → step s = exec .boot s) ∧ (s.seq = .loop → step s = exec .tick s)

/-- R240: "the only outcomes of a step are next state and ... refusal of a launch that breaks a premise"; a
launch is refused for its premise (R234), for its configuration (R187, U16, U10), or for being no operation,
an unassigned index among them (R92). That these are refusals of the step is the model's choice (log 20).
Which configurations are allowed: the band constraint (R187), the numbers of 00_scope section 4, SEGMAP (R80; that
a character of ERR_TEXT that is no letter need not be supported is log 31), CM2IN (R215, R216; log 27). That SEGMAP is
a list of cells in canonical form, the first clause about it, is the model's own form and no constraint of R80
(log 23). -/
def Obligations.OnlyLaunchesAreRefused : Prop :=
  (∀ c : Config, configOk c = true ↔
    (c.upLo ≤ c.upHi ∧ c.upHi < c.downLo ∧ c.downLo ≤ c.downHi ∧ c.downHi ≤ c.modeTh ∧
      c.modeTh < 2 ^ c.adcBits - 1) ∧
    (1 ≤ c.measureTimeout ∧ c.measureTimeout < 2 ^ c.pollBits ∧ 10 ≤ c.tTrig ∧ c.tGap < c.tSetupTick) ∧
    (Mem.wf c.segmap = true ∧ (∀ cell ∈ c.segmap, cell.1 < 256) ∧
      (∀ ch : Byte, (0x30 ≤ ch.toNat ∧ ch.toNat ≤ 0x39) ∨ ch = 0x2D ∨ ch = 0x5F ∨
        (ch ∈ c.errText ∧ ((0x41 ≤ ch.toNat ∧ ch.toNat ≤ 0x5A) ∨ (0x61 ≤ ch.toNat ∧ ch.toNat ≤ 0x7A))) →
        segment c ch ≠ 0) ∧
      segment c 0x20 = 0 ∧ ∀ ch : Byte, (segment c ch).getLsbD 7 = false) ∧
    (∀ values, c.cm2in = .table values →
      cmToInch c 0 = 0 ∧ ∀ cm : Dist, cm.toNat ≤ 400 → (cmToInch c cm).toNat ≤ 157)) ∧
  (∀ s : State,
    (∃ t, step s = .next t) ∨ (s.cfg.timersReady = false ∧ step s = .refused .launchPremise) ∨
    (s.cfg.timersReady = true ∧ configOk s.cfg = false ∧ step s = .refused .badConfig) ∨
    (∃ w more e, s.script = w :: more ∧ decode w.space w.bytes = .error e ∧
      step s = .refused (.notAnOperation e))) ∧
  ∀ (s : State) (b : Byte) (rest : List Byte) (more : List OpWord),
    46 ≤ b.toNat → b.toNat < 64 → launchRefusal s.cfg = none → s.script = ⟨.opx, b :: rest⟩ :: more →
    step s = .refused (.notAnOperation (.unassignedOpx b.toNat))

/-! ## The capture unit -/

/-- R101: one step of the counter: CNT modulo 2^W, nothing else; from 2^W - 1 it goes to 0. W is a parameter
(log 1). -/
def Obligations.CounterTickWraps : Prop :=
  ∀ s : State, ∃ c : Nat, c = (s.capu.cnt + 1) % 2 ^ s.cfg.cntBits ∧
    (s.capu.cnt = 2 ^ s.cfg.cntBits - 1 → c = 0) ∧
    exec .cntTick s = .next ((s.setCapu { s.capu with cnt := c }).setResult .unit)

/-- R102, R103, R104: a configured edge with CF = 0 writes CCR and CF together; another edge changes nothing
in the CORE; setting ECHO to the level it already has is no event (log 14). -/
def Obligations.ConfiguredEdgeCaptures : Prop :=
  ∀ s : State,
    (s.env.echo = false → s.capu.edge = .rising → s.capu.cf = false →
      exec .echoRise s = .next (((s.setCapu { s.capu with ccr := s.capu.cnt, cf := true }).setEnv
        { s.env with echo := true }).setResult .unit)) ∧
    (s.env.echo = false → s.capu.edge = .falling →
      exec .echoRise s = .next ((s.setEnv { s.env with echo := true }).setResult .unit)) ∧
    (s.env.echo = true → exec .echoRise s = .next (s.setResult .unit)) ∧
    (s.env.echo = true → s.capu.edge = .falling → s.capu.cf = false →
      exec .echoFall s = .next (((s.setCapu { s.capu with ccr := s.capu.cnt, cf := true }).setEnv
        { s.env with echo := false }).setResult .unit)) ∧
    (s.env.echo = true → s.capu.edge = .rising →
      exec .echoFall s = .next ((s.setEnv { s.env with echo := false }).setResult .unit)) ∧
    (s.env.echo = false → exec .echoFall s = .next (s.setResult .unit))

/-- R105: a configured edge with CF = 1: CF stays 1; CCR is overwritten, held, or one of the two, as ENV's
queue or a free value draws it (log 7). -/
def Obligations.OvercaptureKeepsFlag : Prop :=
  ∀ (s : State) (rise : Bool), s.env.echo = !rise → s.capu.edge = (if rise then .rising else .falling) →
    s.capu.cf = true →
    ∃ (ccr : Nat) (e : Env),
      exec (if rise then .echoRise else .echoFall) s =
        .next (((s.setCapu { s.capu with ccr := ccr }).setEnv e).setResult .unit) ∧
      e.echo = rise ∧ (ccr = s.capu.cnt ∨ ccr = s.capu.ccr) ∧
      (s.cfg.overcapture = .overwrite → ccr = s.capu.cnt) ∧ (s.cfg.overcapture = .hold → ccr = s.capu.ccr) ∧
      (∀ v more, s.cfg.overcapture = .either → s.env.overcap = v :: more →
        ccr = (if v then s.capu.cnt else s.capu.ccr))

/-- R106 to R111: SEQ's five primitives, in the state the window of the other agents leaves. -/
def Obligations.CapturePrimitives : Prop :=
  ∀ s t : State, s.window = .ok t →
    exec .cfClear s = .next ((t.setCapu { t.capu with cf := false }).setResult .unit) ∧
    exec .setEdgeRising s = .next ((t.setCapu { t.capu with edge := .rising }).setResult .unit) ∧
    exec .setEdgeFalling s = .next ((t.setCapu { t.capu with edge := .falling }).setResult .unit) ∧
    exec .ccrRead s = .next (t.setResult (.ticks t.capu.ccr)) ∧
    exec .cfRead s = .next (t.setResult (.bit t.capu.cf))

/-- R6, R60: what a window is: with nothing due only the micro-step is counted (log 29); due events happen first, in
their order, and a RESET among them ends the operation in the state of R270; an event that is not due comes nearer by
one micro-step. The schedule is the model's form of the interleaving (log 4). -/
def Obligations.WindowDeliversDueEvents : Prop :=
  ∀ s : State, (s.env.schedule = [] → s.window = .ok s.countMicro) ∧
    (∀ k e rest, s.env.schedule = (k + 1, e) :: rest →
      s.window = .ok (s.setSchedule ((k, e) :: rest)).countMicro) ∧
    (∀ n rest, s.env.schedule = (0, .cnt n) :: rest →
      s.window = ((s.cntTicks n).setSchedule rest).window) ∧
    (∀ v rest, s.env.schedule = (0, .echo v) :: rest →
      s.window = ((s.echoTo v).setSchedule rest).window) ∧
    (∀ rest, s.env.schedule = (0, .reset) :: rest → s.window = .error (s.coreReset.setSchedule rest))

/-! ## The range sensor -/

/-- R120: the trigger pulse. -/
def Obligations.TriggerPulse : Prop :=
  ∀ s : State, NoReset s → ∃ t, exec .trigPulse s = .next t ∧
    Emitted s t [.write .trig true, .delay (.param .trig), .write .trig false] ∧
    t.pins = { s.pins with trig := false } ∧ t.result = .unit

/-- R121: a wait without a capture: a flag that is set is seen by the first poll, after three lines; otherwise
max(timeout, 1) polls read 0. Each line is one micro-step, five a poll, of which the last has no jump behind it and the
first line of all stands before them (log 3). The operand has POLL_BITS bits (log 1). -/
def Obligations.QuietCaptureWait : Prop :=
  ∀ (s : State) (timeout : Nat), Quiet s → ∃ t, exec (.waitCapture timeout) s = .next t ∧
    t.capu = s.capu ∧
    (s.capu.cf = true → t.result = .wait .captured ∧ t.work = { s.work with polln := 0 } ∧
      t.micro = s.micro + 3) ∧
    (s.capu.cf = false → t.result = .wait .timedOut ∧
      t.work = { s.work with polln := s.cfg.polls (max (s.cfg.polls timeout) 1) } ∧
      t.micro = s.micro + 5 * max (s.cfg.polls timeout) 1)

/-- R121: a capture between poll n and poll n + 1, within the budget and before any of the five lines from the test
of the one to the read of the other, is seen by poll n + 1, with POLLN = n. R246 (a): one after the last poll of the
budget and before the return is lost, the wait times out with CF = 1. Each line is one micro-step (log 3), and the place
of the event in the schedule is counted in them as log 4 says; the operand has POLL_BITS bits (log 1). -/
def Obligations.CaptureIsSeenByNextPoll : Prop :=
  ∀ (s : State) (timeout n k : Nat), s.capu.cf = false → s.capu.edge = .rising → s.env.echo = false →
    s.env.schedule = [(k, .echo true)] →
    ∃ t, exec (.waitCapture timeout) s = .next t ∧
      (n < max (s.cfg.polls timeout) 1 → 5 * n ≤ k + 3 → k ≤ 5 * n + 1 →
        t.result = .wait .captured ∧ t.work = { s.work with polln := n } ∧
        t.capu = { s.capu with ccr := s.capu.cnt, cf := true }) ∧
      (5 * max (s.cfg.polls timeout) 1 ≤ k + 3 → k + 1 ≤ 5 * max (s.cfg.polls timeout) 1 →
        t.result = .wait .timedOut ∧
        t.work = { s.work with polln := s.cfg.polls (max (s.cfg.polls timeout) 1) } ∧
        t.capu = { s.capu with ccr := s.capu.cnt, cf := true })

/-- R122, R123: ECHO rises before poll r + 1 of the first wait, after a timer ticks, and falls before poll
f + 1 of the second, after b more: the result is b modulo 2^W, whether the counter wraps or not. The second
wait restarts POLLN, or under TIMEOUT_RESTART = false goes on from r. The places of the events in the schedule
are counted as logs 3 and 4 say; the operand has POLL_BITS bits (log 1). -/
def Obligations.MeasureRawReturnsPulseWidth : Prop :=
  ∀ (s : State) (timeout r f a b : Nat), s.env.echo = false →
    r < max (s.cfg.polls timeout) 1 →
    (if s.cfg.timeoutRestart then f else r + f) < max (s.cfg.polls timeout) 1 →
    s.env.schedule = [(6 + 5 * r, .cnt a), (0, .echo true),
      ((if s.cfg.timeoutRestart then 6 else 5) + 5 * f, .cnt b), (0, .echo false)] →
    ∃ t, exec (.measureRaw timeout) s = .next t ∧ t.result = .ticks (b % 2 ^ s.cfg.cntBits) ∧
      t.work.rise = (s.capu.cnt + a) % 2 ^ s.cfg.cntBits ∧
      t.work.fall = (s.capu.cnt + a + b) % 2 ^ s.cfg.cntBits ∧
      t.work.polln = (if s.cfg.timeoutRestart then f else r + f) ∧
      t.capu = ⟨t.work.fall, t.work.fall, .rising, true⟩ ∧ t.env.schedule = [] ∧
      t.pins = { s.pins with trig := false } ∧ t.ctrl = s.ctrl ∧
      Emitted s t [.write .trig true, .delay (.param .trig), .write .trig false]

/-- R122, R247: the two timeouts. With no edge the first wait times out: the result is 0 and nothing is
latched. With an echo that rises and never falls the second does, after the whole budget, or under
TIMEOUT_RESTART = false after what the first wait left of it: the result is 0, RISE is latched and FALL is not.
EDGE is RISING after both. The schedule and the micro-steps are counted as logs 3 and 4 say; the operand has
POLL_BITS bits (log 1). -/
def Obligations.MeasureRawTimesOut : Prop :=
  ∀ (s : State) (timeout : Nat),
    (Quiet s → ∃ t, exec (.measureRaw timeout) s = .next t ∧
      t.result = .ticks 0 ∧ t.work = { s.work with polln := s.cfg.polls (max (s.cfg.polls timeout) 1) } ∧
      t.capu = { s.capu with edge := .rising, cf := false } ∧ t.pins = { s.pins with trig := false }) ∧
    ∀ r : Nat, s.env.echo = false → r < max (s.cfg.polls timeout) 1 →
      s.env.schedule = [(6 + 5 * r, .echo true)] →
      ∃ t, exec (.measureRaw timeout) s = .next t ∧ t.result = .ticks 0 ∧
        t.work = { s.work with
          rise := s.capu.cnt
          polln := s.cfg.polls (max (s.cfg.polls timeout) 1) } ∧
        t.capu = ⟨s.capu.cnt, s.capu.cnt, .rising, false⟩ ∧
        t.micro = s.micro + 12 + 5 * r + (if s.cfg.timeoutRestart then 5 * max (s.cfg.polls timeout) 1
          else 5 * (max (s.cfg.polls timeout) 1 - r) - 1)

/-- R275: an echo that ends in one of the windows up to SET_EDGE_FALLING is lost: the result is 0. The
windows are those of logs 3 and 4; the operand has POLL_BITS bits (log 1). -/
def Obligations.EchoEndingBeforeSwitchIsLost : Prop :=
  ∀ (s : State) (timeout r j : Nat), s.env.echo = false → r < max (s.cfg.polls timeout) 1 → j ≤ 4 →
    s.env.schedule = [(6 + 5 * r, .echo true), (j, .echo false)] →
    ∃ t, exec (.measureRaw timeout) s = .next t ∧ t.result = .ticks 0 ∧ t.capu.edge = .rising ∧
      t.capu.cf = false ∧ t.work.rise = s.capu.cnt ∧ t.work.fall = s.work.fall

/-- R124, R125: whatever ENV does, MEASURE_RAW ends, after at most 2 max(timeout, 1) polls of five micro-steps
and seven other micro-steps as log 3 counts them, with EDGE = RISING; a RESET in its midst included. The operand has
POLL_BITS bits (log 1). -/
def Obligations.MeasureRawEndsWithRisingEdge : Prop :=
  ∀ (s : State) (timeout : Nat), ∃ t, exec (.measureRaw timeout) s = .next t ∧ t.capu.edge = .rising ∧
    t.micro ≤ s.micro + 7 + 10 * max (s.cfg.polls timeout) 1

/-- R126, R127: the converter: the quotient by 58 or 148, clamped to 400 or 157, of an operand of W bits. That a wider
operand, which the spec does not have, gives its low W bits is the model's choice (log 1). -/
def Obligations.ConverterSaturates : Prop :=
  ∀ (s : State) (ticks : Nat), ∃ cm inch : Dist,
    exec (.ticksToCm ticks) s = .next (s.setResult (.dist cm)) ∧
    exec (.ticksToInch ticks) s = .next (s.setResult (.dist inch)) ∧
    cm.toNat = min (ticks % 2 ^ s.cfg.cntBits / 58) 400 ∧
    inch.toNat = min (ticks % 2 ^ s.cfg.cntBits / 148) 157 ∧
    (cm.toNat = 400 ↔ 23200 ≤ ticks % 2 ^ s.cfg.cntBits) ∧
    (inch.toNat = 157 ↔ 23236 ≤ ticks % 2 ^ s.cfg.cntBits)

/-! ## The display bus -/

/-- R141, R142, R145: START, a data bit, STOP: their traces and the levels they leave. -/
def Obligations.BusConditions : Prop :=
  ∀ s : State, NoReset s →
    (∃ t, exec .twStart s = .next t ∧ Emitted s t startEvents ∧
      t.pins = { s.pins with dclk := true, dioOut := false }) ∧
    (∀ b, ∃ t, exec (.twBit b) s = .next t ∧ Emitted s t (bitEvents b) ∧
      t.pins = { s.pins with dclk := true, dioOut := b }) ∧
    (∃ t, exec .twStop s = .next t ∧ Emitted s t stopEvents ∧
      t.pins = { s.pins with dclk := true, dioOut := true })

/-- R143: the ACK cycle: the level ENV gives (log 6) goes to ACKV and is returned; DIO_OUT keeps its
value. -/
def Obligations.AckCycle : Prop :=
  ∀ s : State, NoReset s → ∃ t, exec .twAck s = .next t ∧ Emitted s t (ackEvents (ackAt s 0)) ∧
    t.pins = { s.pins with dclk := false, dioDir := .out } ∧
    t.work = { s.work with ackv := ackAt s 0 } ∧ t.result = .bit (ackAt s 0)

/-- R54, R82, R144: a byte goes least significant bit first, then the ACK cycle. -/
def Obligations.ByteIsSentLowBitFirst : Prop :=
  ∀ (s : State) (v : Byte), NoReset s → ∃ t, exec (.twByte v) s = .next t ∧
    Emitted s t (byteEvents v (ackAt s 0)) ∧
    t.pins = { s.pins with dclk := false, dioOut := v.getLsbD 7, dioDir := .out } ∧
    t.work = { s.work with sh := 0, bi := 7, ackv := ackAt s 0 } ∧ t.result = .bit (ackAt s 0)

/-- R146: START, every byte with its ACK cycle, STOP, whatever the levels; the bus ends idle. -/
def Obligations.TransactionTrace : Prop :=
  ∀ (s : State) (bytes : List Byte), NoReset s → bytes ≠ [] →
    ∃ t, exec (.twTransaction bytes) s = .next t ∧
      Emitted s t (transactionEvents bytes (ackLevels s bytes.length)) ∧
      t.pins = { s.pins with dclk := true, dioOut := true, dioDir := .out } ∧
      t.work = { s.work with sh := 0, bi := 7, ackv := ackAt s (bytes.length - 1) }

/-- R149, R150, R56: the two transactions of a digit update, and the frame WRITE_DIGITS puts before them. -/
def Obligations.DigitUpdateTrace : Prop :=
  ∀ (s : State) (text : Text), NoReset s →
    (∃ t, exec .writeFrame s = .next t ∧ t.work.frame = s.work.frame ∧
      Emitted s t (updateEvents s.cfg s.work.frame (ackLevels s 6))) ∧
    (∃ t, exec (.writeDigits text) s = .next t ∧ t.work.frame = frameOf s.cfg text ∧
      Emitted s t (updateEvents s.cfg (frameOf s.cfg text) (ackLevels s 6)))

/-- R83, R84, R85, R151: the transactions of the display commands; the level is clamped to 7. That a command
word launched alone is its transaction is the model's choice (log 13). -/
def Obligations.CommandTransactions : Prop :=
  ∀ (s : State) (level : Byte) (l : BitVec 3), NoReset s →
    (∃ t, exec .cmdAutoinc s = .next t ∧
      Emitted s t (transactionEvents [s.cfg.cmdAutoinc] (ackLevels s 1))) ∧
    (∃ t, exec .cmdAddr0 s = .next t ∧
      Emitted s t (transactionEvents
        [s.cfg.cmdAddr0, s.work.frame.d0, s.work.frame.d1, s.work.frame.d2, s.work.frame.d3] (ackLevels s 5))) ∧
    (∃ t, exec (.setBrightness level) s = .next t ∧
      Emitted s t (transactionEvents [s.cfg.cmdCtrlBase ||| BitVec.ofNat 8 (min level.toNat 7)] (ackLevels s 1))) ∧
    (∃ t, exec (.cmdCtrl l) s = .next t ∧
      Emitted s t (transactionEvents [s.cfg.cmdCtrlBase ||| l.setWidth 8] (ackLevels s 1)))

/-- R53, R149, R153: from the idle bus, with six ACK cycles at 0, WRITE_DIGITS leaves the segment bytes of
the four characters at the display addresses 0..3, and nothing else of the display memory changes. The
controller is the companion receiver, a part of State (log 8), and its levels are ENV's queue (log 6). That under a
configuration whose command bytes coincide the first transaction selects auto-increment alone, and brightness and on/off
stay as they were, is the model's choice (log 32). -/
def Obligations.WriteDigitsReachesDisplayMemory : Prop :=
  ∀ (s : State) (text : Text), NoReset s → DisplayBusIdle s.pins → Mem.wf s.display.panel.mem = true →
    (∀ k, k < 6 → ackAt s k = false) →
    ∃ t, exec (.writeDigits text) s = .next t ∧ t.display.panel.autoInc = true ∧
      t.display.panel.bright = s.display.panel.bright ∧ t.display.panel.isOn = s.display.panel.isOn ∧
      Mem.wf t.display.panel.mem = true ∧
      ∀ k, Mem.read t.display.panel.mem k =
        if k < 4 then segment s.cfg (frameChar text k) else Mem.read s.display.panel.mem k

/-- R85, R151, R153: from the idle bus, with the ACK cycle at 0 and the default command bytes, SET_BRIGHTNESS
turns the display on at the clamped level and keeps the digits. The controller is the companion receiver
(log 8), its level ENV's queue (log 6). -/
def Obligations.BrightnessReachesDisplay : Prop :=
  ∀ (s : State) (level : Byte), NoReset s → DisplayBusIdle s.pins → ackAt s 0 = false →
    s.cfg.cmdCtrlBase = 0x88 → s.cfg.cmdAutoinc = 0x40 →
    ∃ t, exec (.setBrightness level) s = .next t ∧
      t.display.panel = { s.display.panel with bright := BitVec.ofNat 3 (min level.toNat 7), isOn := true }

/-- R147, R89, R57: four writes of FRAME, no pin, no trace; a long text keeps its last four characters, a
short one stands behind spaces. R51, R77, R80: what SEGMAP reads: a listed code its byte, an unlisted one 0x00; in an
allowed table the space is blank and bit 7 is 0. The cells (log 23): a byte written is read back and every other
address keeps its byte. -/
def Obligations.TextToFrameJustifiesRight : Prop :=
  (∀ (s : State) (text : Text), NoReset s → ∃ t, exec (.textToFrame text) s = .next t ∧
    t.work = { s.work with frame := frameOf s.cfg text } ∧
    t.pins = s.pins ∧ t.trace = s.trace ∧ t.display = s.display) ∧
  (∀ (text : Text) (i : Nat), i < 4 →
    (∀ front t4 : Text, text = front ++ t4 → t4.length = 4 → t4[i]? = some (frameChar text i)) ∧
    (text.length < 4 → (List.replicate (4 - text.length) 0x20#8 ++ text)[i]? = some (frameChar text i))) ∧
  (∀ (cfg : Config) (c : Byte), Mem.wf cfg.segmap = true →
    (∀ b, (c.toNat, b) ∈ cfg.segmap → segment cfg c = b) ∧
    ((∀ b, (c.toNat, b) ∉ cfg.segmap) → segment cfg c = 0) ∧
    (segmapOk cfg = true → segment cfg 0x20 = 0 ∧ (segment cfg c).getLsbD 7 = false)) ∧
  ∀ (m : Mem) (a b : Nat) (v : Byte), Mem.wf m = true →
    Mem.read (Mem.write a v m) b = if b = a then v else Mem.read m b

/-- R91, R148: the decimal text: digits only, of the right value, no leading zero. -/
def Obligations.NumToTextIsDecimal : Prop :=
  ∀ (s : State) (v : Nat), ∃ t : Text, exec (.numToText v) s = .next (s.setResult (.text t)) ∧
    (∀ c ∈ t, 0x30 ≤ c.toNat ∧ c.toNat ≤ 0x39) ∧
    t.foldl (fun n c => 10 * n + (c.toNat - 0x30)) 0 = v ∧
    (v = 0 → t = [0x30]) ∧ (v ≠ 0 → t.head? ≠ some 0x30#8 ∧ t ≠ [])

/-- R91: what four digits show of a number: the digit of 10^i stands i places from the right; above the number
there are spaces; above 9999 the four least significant digits with their zeros. -/
def Obligations.FourDigitsShowNumber : Prop :=
  ∀ (v i : Nat), i < 4 →
    frameChar (numToText v) (3 - i) =
      if i = 0 ∨ 10 ^ i ≤ v then BitVec.ofNat 8 (0x30 + v / 10 ^ i % 10) else 0x20

/-- R152: whatever levels the display controller answers with (ENV's queue, log 6), the pin trace is the same
but for the levels of the `R(DIO)` events, the CORE's state is the same but for ACKV, and so are the LED
registers, the samples, ECHO, the schedule, the count of micro-steps (log 29) and, but for TW_ACK and TW_BYTE, the
result. -/
def Obligations.AcknowledgeIsNotActedUpon : Prop :=
  ∀ (i : Instr) (s t : State) (levels : List Bool),
    exec i s = .next t →
    ∃ t', exec i (s.setEnv { s.env with ack := levels }) = .next t' ∧
      t'.trace.map forgetRead = t.trace.map forgetRead ∧
      t'.capu = t.capu ∧ t'.pins = t.pins ∧ t'.ctrl = t.ctrl ∧ t'.leds = t.leds ∧ t'.seq = t.seq ∧
      t'.micro = t.micro ∧ { t'.work with ackv := false } = { t.work with ackv := false } ∧
      t'.env.adc = t.env.adc ∧ t'.env.echo = t.env.echo ∧ t'.env.schedule = t.env.schedule ∧
      (i ≠ .twAck → (∀ v, i ≠ .twByte v) → t'.result = t.result)

/-! ## The shift bus -/

/-- R171, R172: a shifted bit and the latch pulse. -/
def Obligations.ShiftBusParts : Prop :=
  ∀ s : State, NoReset s →
    (∀ b, ∃ t, exec (.srBit b) s = .next t ∧ Emitted s t (shiftEvents b) ∧
      t.pins = { s.pins with sdat := b, sclk := false }) ∧
    (∃ t, exec .srLatch s = .next t ∧ Emitted s t [.write .slat true, .write .slat false] ∧
      t.pins = { s.pins with slat := false })

/-- R55, R86, R173: a pattern goes most significant bit first, then the latch pulse. -/
def Obligations.PatternIsSentHighBitFirst : Prop :=
  ∀ (s : State) (p : Byte), NoReset s → ∃ t, exec (.sendPattern p) s = .next t ∧
    Emitted s t (patternEvents p) ∧
    t.pins = { s.pins with sdat := p.getLsbD 0, sclk := false, slat := false } ∧
    t.work = { s.work with sh := 0, bi := 7 }

/-- R173, R176: with SCLK at rest the external registers end with the pattern, whatever they held. They
are the companion receiver (log 8). -/
def Obligations.PatternReachesStorageRegister : Prop :=
  ∀ (s : State) (p : Byte), NoReset s → s.pins.sclk = false →
    ∃ t, exec (.sendPattern p) s = .next t ∧ t.leds = ⟨p, p⟩

/-- R174, R76: how many LEDs light, and that they are a low run. -/
def Obligations.LedPatternIsLowRun : Prop :=
  ∀ (s : State) (d t : Dist), ∃ p : Byte, exec (.ledPattern d t) s = .next (s.setResult (.byte p)) ∧
    (t.toNat = 0 ∨ t.toNat ≤ d.toNat → p = 0) ∧
    (d.toNat < t.toNat → ∀ i, i < 8 → (p.getLsbD i = true ↔ i < (t.toNat - d.toNat) * 8 / t.toNat))

/-- R175: non-increasing in the distance; all-zero where the threshold is 0 or not above the distance;
all-ones exactly at distance 0 with a threshold above 0. -/
def Obligations.LedPatternIsMonotonic : Prop :=
  ∀ d1 d2 t : Dist,
    (0 < t.toNat → d1.toNat ≤ d2.toNat → (ledPattern d2 t).toNat ≤ (ledPattern d1 t).toNat) ∧
    (t.toNat = 0 ∨ t.toNat ≤ d1.toNat → ledPattern d1 t = 0) ∧
    (ledPattern d1 t = 0xFF ↔ d1.toNat = 0 ∧ 0 < t.toNat)

/-! ## The buttons -/

/-- R185, R188, R58: one sample of ENV's queue (log 6) is consumed, and READ_RAW classifies it. -/
def Obligations.SampleIsConsumed : Prop :=
  ∀ s : State, NoReset s →
    (∃ t, exec .adcSample s = .next t ∧ t.result = .sample (sampleAt s 0) ∧ t.env.adc = s.env.adc.tail ∧
      t.env.count.sample = s.env.count.sample + 1) ∧
    (∃ t, exec .readRaw s = .next t ∧ t.result = .button (classAt s 0) ∧ t.env.adc = s.env.adc.tail ∧
      t.env.count.sample = s.env.count.sample + 1 ∧ t.ctrl = s.ctrl)

/-- R186, R187: the four classes under the band constraint: each sample, of ADC_BITS bits, has exactly its band's
class. That a wider operand, which the spec does not have, gives its low ADC_BITS bits is the model's choice (log 1). -/
def Obligations.ClassesFollowBands : Prop :=
  ∀ (s : State) (v : Nat), bandsOk s.cfg = true → ∃ b : Button,
    exec (.classify v) s = .next (s.setResult (.button b)) ∧
    (b = .mode ↔ s.cfg.modeTh < v % 2 ^ s.cfg.adcBits) ∧
    (b = .down ↔ s.cfg.downLo ≤ v % 2 ^ s.cfg.adcBits ∧ v % 2 ^ s.cfg.adcBits ≤ s.cfg.downHi) ∧
    (b = .up ↔ s.cfg.upLo ≤ v % 2 ^ s.cfg.adcBits ∧ v % 2 ^ s.cfg.adcBits ≤ s.cfg.upHi)

/-- R189: the confirmation-on-change debouncer: one sample where nothing changed; a second, after the settle
delay, where the first differs, and a commit where it agrees. -/
def Obligations.DebouncerConfirmsChange : Prop :=
  ∀ s : State, NoReset s → ∃ t, exec .readDebounced s = .next t ∧ t.work = { s.work with cand := classAt s 0 } ∧
    (classAt s 0 = s.ctrl.stable → t.result = .button s.ctrl.stable ∧ t.ctrl = s.ctrl ∧
      Emitted s t [] ∧ t.env.count.sample = s.env.count.sample + 1) ∧
    (classAt s 0 ≠ s.ctrl.stable → classAt s 1 = classAt s 0 → t.result = .button (classAt s 0) ∧
      t.ctrl = { s.ctrl with stable := classAt s 0 } ∧ Emitted s t [.delay (.param .settle)] ∧
      t.env.count.sample = s.env.count.sample + 2) ∧
    (classAt s 0 ≠ s.ctrl.stable → classAt s 1 ≠ classAt s 0 → t.result = .button s.ctrl.stable ∧
      t.ctrl = s.ctrl ∧ Emitted s t [.delay (.param .settle)] ∧
      t.env.count.sample = s.env.count.sample + 2)

/-! ## The state machine -/

/-- R200 to R209, R214: what a TICK does to STATE, UNIT, THRESHOLD and STABLE, for every STATE and every
debounced button, whatever the counter and ECHO do. -/
def Obligations.TickTransition : Prop :=
  ∀ s : State, NoReset s → ∃ t, exec .tick s = .next t ∧ t.work.ev = debounced s ∧
    t.ctrl.stable = debounced s ∧
    t.ctrl.opState = (if s.ctrl.opState = 0 then
        (if debounced s = .up ∨ debounced s = .down then 1 else 0)
      else if s.ctrl.opState = 1 then (if debounced s = .mode then 0 else 1) else 0) ∧
    t.ctrl.unit = (if s.ctrl.opState = 0 ∧ debounced s = .mode then
        (if s.ctrl.unit = .centimeters then .inches else .centimeters) else s.ctrl.unit) ∧
    t.ctrl.threshold.toNat = (if s.ctrl.opState = 1 ∧ debounced s = .up then min (s.ctrl.threshold.toNat + 10) 400
      else if s.ctrl.opState = 1 ∧ debounced s = .down then min (s.ctrl.threshold.toNat - 10) 400
      else s.ctrl.threshold.toNat)

/-- R200: a TICK is READ_DEBOUNCED, the write of EV, and the one arm the dispatch word selects. -/
def Obligations.TickRunsSelectedArm : Prop :=
  ∀ (s u v : State) (e : Button), readDebounced s = .ok (e, u) → u.window = .ok v →
    ∃ t, exec .tick s = .next t ∧
      exec (decodeDw (dispatchWord v.ctrl.opState e)) (v.setWork { v.work with ev := e }) = .next t

/-- R202, R209: M_MODE toggles UNIT and does nothing else, F_RECOVER sets STATE to MEASURE and does nothing
else; no pin, no delay. That an arm launched alone runs in any STATE is the model's choice (log 12). -/
def Obligations.SingleWriteArms : Prop :=
  ∀ (s t : State) (k : BitVec 3), s.window = .ok t →
    exec .mMode s = .next ((t.setCtrl { t.ctrl with
      unit := if t.ctrl.unit = .centimeters then .inches else .centimeters }).setResult .unit) ∧
    exec (.fRecover k) s = .next ((t.setCtrl { t.ctrl with opState := 0 }).setResult .unit)

/-- R203, R204: entering SETUP shows the threshold in the active unit and adjusts nothing; no delay, no
LED. That an arm launched alone runs in any STATE is the model's choice (log 12). -/
def Obligations.EnteringSetupShowsThreshold : Prop :=
  ∀ s : State, NoReset s → ∀ i, i = Instr.mUp ∨ i = Instr.mDown →
    ∃ t, exec i s = .next t ∧ t.ctrl = { s.ctrl with opState := 1 } ∧
      t.work.thru = thresholdIn s.cfg s.ctrl.unit s.ctrl.threshold ∧
      t.work.frame = frameOf s.cfg (numToText t.work.thru.toNat) ∧
      Emitted s t (updateEvents s.cfg t.work.frame (ackLevels s 6)) ∧ t.leds = s.leds

/-- R205 to R208: the arms in SETUP: the threshold by one step of 10 within 0..400, the redraw of what it is
then, STATE in S_MODE, and the per-tick delay last in each. That an arm launched alone runs in any STATE is the
model's choice (log 12). -/
def Obligations.SetupArms : Prop :=
  ∀ s : State, NoReset s →
    (∃ t, exec .sMode s = .next t ∧ t.ctrl = { s.ctrl with opState := 0 } ∧ t.work = s.work ∧
      Emitted s t [.delay (.param .setupTick)]) ∧
    ∀ i, i = Instr.sNone ∨ i = Instr.sUp ∨ i = Instr.sDown →
      ∃ t, exec i s = .next t ∧ t.ctrl = { s.ctrl with threshold := t.ctrl.threshold } ∧
        t.ctrl.threshold.toNat = (if i = .sUp then min (s.ctrl.threshold.toNat + 10) 400
          else if i = .sDown then min (s.ctrl.threshold.toNat - 10) 400 else s.ctrl.threshold.toNat) ∧
        t.work.thru = thresholdIn s.cfg s.ctrl.unit t.ctrl.threshold ∧
        t.work.frame = frameOf s.cfg (numToText t.work.thru.toNat) ∧
        Emitted s t (updateEvents s.cfg t.work.frame (ackLevels s 6) ++ [.delay (.param .setupTick)]) ∧
        t.leds = s.leds

/-- R214: the threshold after any adjustment, of any size and sign, from any start value; clamping twice is
clamping once. -/
def Obligations.ThresholdIsClamped : Prop :=
  ∀ (s : State) (delta : Int), NoReset s → ∃ t, exec (.thrAdjust delta) s = .next t ∧
    t.ctrl = { s.ctrl with threshold := t.ctrl.threshold } ∧
    (t.ctrl.threshold.toNat : Int) = min (max ((s.ctrl.threshold.toNat : Int) + delta) 0) 400 ∧
    adjustThreshold t.ctrl.threshold 0 = t.ctrl.threshold

/-- R215, R216: CM_TO_INCH is CM2IN, at its default the spec's formula; the threshold in the active unit; 0 is 0 in
both units, of a configuration that is allowed. The form of CM2IN and its constraint are log 27. -/
def Obligations.ThresholdConverts : Prop :=
  ∀ s : State, ∃ inch : Dist → Dist,
    (∀ c, exec (.cmToInch c) s = .next (s.setResult (.dist (inch c)))) ∧
    (s.cfg.cm2in = .formula → ∀ c, (inch c).toNat = min (c.toNat * 100 / 254) 157) ∧
    (∀ values, s.cfg.cm2in = .table values → ∀ c, values[c.toNat]? = some (inch c)) ∧
    ∃ thr : Dist, exec .thrInUnit s = .next (s.setResult (.dist thr)) ∧
      (s.ctrl.unit = .centimeters → thr = s.ctrl.threshold) ∧
      (s.ctrl.unit = .inches → thr = inch s.ctrl.threshold) ∧
      (configOk s.cfg = true → s.ctrl.threshold = 0 → thr = 0)

/-- R211, R212, R213: the registers the display operations write, their two bus updates, and the pattern the
LEDs get (the receiver of log 8). RAW has W bits; a wider operand gives its low W bits (log 1). -/
def Obligations.ShowOperations : Prop :=
  ∀ (s : State) (raw : Nat), NoReset s → s.pins.sclk = false →
    (∃ t, exec (.showDistance raw) s = .next t ∧
      t.work.dist.toNat = (if s.ctrl.unit = .centimeters then min (raw % 2 ^ s.cfg.cntBits / 58) 400
        else min (raw % 2 ^ s.cfg.cntBits / 148) 157) ∧
      t.work.thru = thresholdIn s.cfg s.ctrl.unit s.ctrl.threshold ∧
      t.work.frame = frameOf s.cfg (numToText t.work.dist.toNat) ∧
      Emitted s t (updateEvents s.cfg t.work.frame (ackLevels s 6) ++
        patternEvents (ledPattern t.work.dist t.work.thru)) ∧
      t.leds.store = ledPattern t.work.dist t.work.thru ∧ t.ctrl = s.ctrl) ∧
    (∃ t, exec .showThreshold s = .next t ∧ t.work.thru = thresholdIn s.cfg s.ctrl.unit s.ctrl.threshold ∧
      t.work.frame = frameOf s.cfg (numToText t.work.thru.toNat) ∧
      Emitted s t (updateEvents s.cfg t.work.frame (ackLevels s 6)) ∧ t.leds = s.leds ∧ t.ctrl = s.ctrl) ∧
    (∃ t, exec .showError s = .next t ∧ t.work.frame = frameOf s.cfg s.cfg.errText ∧
      Emitted s t (updateEvents s.cfg t.work.frame (ackLevels s 6) ++ patternEvents 0) ∧
      t.leds.store = 0 ∧ t.ctrl = s.ctrl)

/-- R210, R201: a ranging cycle measures into RAW, shows the error text and dark LEDs where RAW is 0, and the
converted distance with its pattern where it is not; M_NONE adds the inter-measurement delay. The trace: the trigger
pulse, one digit update, one pattern, and that delay. The LED register is the receiver of log 8; that M_NONE
launched alone runs in any STATE is the model's choice (log 12). -/
def Obligations.RangingCycleShowsResult : Prop :=
  ∀ (s : State) (i : Instr), NoReset s → s.pins.sclk = false → i = .rangingCycle ∨ i = .mNone →
    ∃ t m, exec i s = .next t ∧ exec (.measureRaw s.cfg.measureTimeout) s = .next m ∧
      m.result = .ticks t.work.raw ∧ t.ctrl = s.ctrl ∧ t.capu.edge = .rising ∧
      (t.work.raw = 0 → t.leds.store = 0 ∧ t.work.frame = frameOf s.cfg s.cfg.errText) ∧
      (t.work.raw ≠ 0 → t.work.dist = distanceIn s.ctrl.unit t.work.raw ∧
        t.work.thru = thresholdIn s.cfg s.ctrl.unit s.ctrl.threshold ∧
        t.work.frame = frameOf s.cfg (numToText t.work.dist.toNat) ∧
        t.leds.store = ledPattern t.work.dist t.work.thru) ∧
      Emitted s t ([.write .trig true, .delay (.param .trig), .write .trig false] ++
        updateEvents s.cfg t.work.frame (ackLevels s 6) ++ patternEvents t.leds.store ++
        (if i = .mNone then [.delay (.param .gap)] else []))

/-! ## Services, RESET, BOOT -/

/-- R230 to R233: a delay is a marker in the trace, the same for both, and nothing else; the logger has no
effect. -/
def Obligations.ServicesHaveNoEffect : Prop :=
  ∀ (s : State) (n : Nat) (text : Text) (number : BitVec 32),
    exec (.logText text) s = .next (s.setResult .unit) ∧
    exec (.logNumber number) s = .next (s.setResult .unit) ∧
    ∀ t, s.window = .ok t →
      exec (.delayUs n) s = .next ((t.addTrace (.delay .call)).setResult .unit) ∧
      exec (.delayMs n) s = .next ((t.addTrace (.delay .call)).setResult .unit)

/-- R270, R271, R34: RESET from any state: the specified values, the rest of the CORE as the draw says, the
external devices and ENV's levels as they were. The draw is log 5, that the receivers see no edge log 9, that the trace is
kept log 17, that ENV's levels are log 24. -/
def Obligations.ResetRestoresDefaults : Prop :=
  ∀ s : State, ∃ t, exec .reset s = .next t ∧ t.ctrl = ⟨0, .centimeters, 0, .none⟩ ∧
    t.pins = ⟨false, true, true, .out, false, false, false⟩ ∧ t.capu.edge = .rising ∧ t.seq = .idle ∧
    t.display = s.display ∧ t.leds = s.leds ∧ t.env.echo = s.env.echo ∧ t.env.dioExt = s.env.dioExt ∧
    t.trace = s.trace ∧
    ∀ d more, s.env.resets = d :: more → t.env.resets = more ∧
      t.capu = ⟨s.cfg.ticks d.cnt, s.cfg.ticks d.ccr, .rising, d.cf⟩ ∧
      t.work = ⟨s.cfg.ticks d.rise, s.cfg.ticks d.fall, s.cfg.polls d.polln, d.sh, d.bi, d.ackv,
        ⟨d.frame0, d.frame1, d.frame2, d.frame3⟩, d.cand, s.cfg.ticks d.raw, d.dist, d.thru, d.ev⟩

/-- R270, R271: a RESET before any micro-step of a transaction abandons it: its pins, control state and edge
are those of reset, the trace has grown by at most the micro-steps made, and the events behind the RESET stay
to come. A transaction of n bytes has 12 + 63 n micro-steps, as log 3 counts them. The schedule is log 4, the trace and
the result after a RESET log 17, the count of micro-steps log 29. -/
def Obligations.ResetAbandonsTransaction : Prop :=
  ∀ (s : State) (k : Nat) (rest : List (Nat × EnvEvent)) (bytes : List Byte),
    bytes ≠ [] → k < 12 + 63 * bytes.length → s.env.schedule = (k, .reset) :: rest →
    ∃ t, exec (.twTransaction bytes) s = .next t ∧ t.pins = pinsReset ∧ t.ctrl = ctrlReset ∧
      t.capu.edge = .rising ∧ t.seq = .idle ∧ t.result = .none ∧ t.env.schedule = rest ∧
      t.micro = s.micro + k ∧ ∃ l, l.length ≤ k ∧ t.trace = l ++ s.trace

/-- R273: BOOT sends the brightness command where BRIGHT_INIT is a level, nothing where it is none, and SEQ
goes into the loop, where the model has BOOT end (log 19). -/
def Obligations.BootSendsBrightness : Prop :=
  ∀ s : State, NoReset s → ∃ t, exec .boot s = .next t ∧ t.seq = .loop ∧ t.ctrl = s.ctrl ∧
    (s.cfg.brightInit = none → Emitted s t [] ∧ t.pins = s.pins ∧ t.micro = s.micro) ∧
    (∀ l, s.cfg.brightInit = some l →
      Emitted s t (transactionEvents [s.cfg.cmdCtrlBase ||| l.setWidth 8] (ackLevels s 1)))

/-! ## Frames: who writes what -/

/-- R218, R192: the writers of STATE, UNIT, THRESHOLD, STABLE. -/
def Obligations.ControlStateOwnership : Prop :=
  ∀ (i : Instr) (s : State), NoReset s → ∃ t, exec i s = .next t ∧
    (writesState i = false → t.ctrl.opState = s.ctrl.opState) ∧
    (writesUnit i = false → t.ctrl.unit = s.ctrl.unit) ∧
    (writesThreshold i = false → t.ctrl.threshold = s.ctrl.threshold) ∧
    (writesStable i = false → t.ctrl.stable = s.ctrl.stable)

/-- R11 to R14, R16: the writers of the capture unit's registers and of ECHO. With no event to come only the
operations named write any of them; whatever the counter and ECHO do, only those of `writesEdge` write
EDGE. -/
def Obligations.CaptureUnitOwnership : Prop :=
  ∀ (i : Instr) (s : State), NoReset s → ∃ t, exec i s = .next t ∧
    (writesEdge i = false → t.capu.edge = s.capu.edge) ∧
    (Quiet s → writesCapu i = false → t.capu = s.capu) ∧
    (Quiet s → i ≠ .echoRise → i ≠ .echoFall → t.env.echo = s.env.echo)

/-- R15, R17 to R19, R32: the writers of each pin and of the external devices, the display memory among
them (the companion receivers of log 8). -/
def Obligations.PinOwnership : Prop :=
  ∀ (i : Instr) (s : State), NoReset s → ∃ t, exec i s = .next t ∧
    (measures i = false → i ≠ .trigPulse → t.pins.trig = s.pins.trig) ∧
    (drivesDisplay i = false → t.pins.dclk = s.pins.dclk ∧ t.pins.dioOut = s.pins.dioOut ∧
      t.pins.dioDir = s.pins.dioDir ∧ t.display = s.display ∧ t.env.ack = s.env.ack) ∧
    (drivesShift i = false → t.pins.sdat = s.pins.sdat ∧ t.pins.sclk = s.pins.sclk ∧
      t.pins.slat = s.pins.slat ∧ t.leds = s.leds)

/-- R21 to R26, R36, R37: the writers of each working register. -/
def Obligations.WorkingRegisterOwnership : Prop :=
  ∀ (i : Instr) (s : State), NoReset s → ∃ t, exec i s = .next t ∧
    (measures i = false → t.work.rise = s.work.rise ∧ t.work.fall = s.work.fall) ∧
    (writesPolln i = false → t.work.polln = s.work.polln) ∧
    (sendsBytes i = false → sendsPattern i = false → t.work.sh = s.work.sh ∧ t.work.bi = s.work.bi) ∧
    (sendsBytes i = false → i ≠ .twAck → t.work.ackv = s.work.ackv) ∧
    (writesFrame i = false → t.work.frame = s.work.frame) ∧
    (writesStable i = false → t.work.cand = s.work.cand) ∧
    (writesRaw i = false → t.work.raw = s.work.raw) ∧
    (writesDist i = false → t.work.dist = s.work.dist) ∧
    (writesThru i = false → t.work.thru = s.work.thru) ∧
    (isTickOrReset i = false → t.work.ev = s.work.ev)

/-- R9, R240, R33: every operation completes, and none changes the configuration. The rest is about the model's own
fields and is its choice: no operation, a RESET included, changes the script (log 30); the pin trace (R7) only grows, a
RESET included (log 17); so does the count of micro-steps (log 29); only BOOT and RESET move SEQ between IDLE and the
loop (log 19). -/
def Obligations.ConfigIsConstantAndTraceGrows : Prop :=
  ∀ (i : Instr) (s : State), ∃ t, exec i s = .next t ∧ t.cfg = s.cfg ∧ t.script = s.script ∧
    (∃ l, t.trace = l ++ s.trace) ∧ s.micro ≤ t.micro ∧
    (NoReset s → i ≠ .boot → i ≠ .reset → t.seq = s.seq)

/-! ## Invariants -/

/-- R35: what holds between operations is kept by every step of the control loop, whatever the other agents
do, a RESET in its midst included. That a step is one TICK or the BOOT before the first, and that an empty script stays
empty, is the model's choice (logs 2, 19, 30). -/
def Obligations.LoopKeepsRestState : Prop :=
  ∀ s t : State, s.script = [] → Between s → step s = .next t → Between t ∧ t.script = []

/-- R29, R27, R53, R11, R12, R21 to R23, R37 and logs 1 and 23: every step, of the loop or of a launched operation,
keeps THRESHOLD in its range, STATE legal, the counts in their widths, and the display memory canonical. -/
def Obligations.StepKeepsMachineInvariant : Prop :=
  ∀ s t : State, MachineInv s → step s = .next t → MachineInv t

/-- R34: the values the spec gives for reset, and that both invariants hold there. That the script is empty there is the
model's choice (log 30). -/
def Obligations.ResetStateMeetsInvariants : Prop :=
  State.reset.ctrl = ⟨0, .centimeters, 0, .none⟩ ∧ State.reset.capu.edge = .rising ∧
  State.reset.pins = ⟨false, true, true, .out, false, false, false⟩ ∧ State.reset.seq = .idle ∧
  Between State.reset ∧ State.reset.script = [] ∧ MachineInv State.reset
end

