-- ==== Sys2Proof/Laws/State.lean ====
section
/-! SUPPORT. One lemma per field of the state and update, each true by rfl. -/

namespace Sys2Proof.Machine.State

@[simp] theorem setCapu_capu (s : State) (c : Capu) : (s.setCapu c).capu = c := rfl
@[simp] theorem setCapu_pins (s : State) (c : Capu) : (s.setCapu c).pins = s.pins := rfl
@[simp] theorem setCapu_ctrl (s : State) (c : Capu) : (s.setCapu c).ctrl = s.ctrl := rfl
@[simp] theorem setCapu_work (s : State) (c : Capu) : (s.setCapu c).work = s.work := rfl
@[simp] theorem setCapu_seq (s : State) (c : Capu) : (s.setCapu c).seq = s.seq := rfl
@[simp] theorem setCapu_env (s : State) (c : Capu) : (s.setCapu c).env = s.env := rfl
@[simp] theorem setCapu_display (s : State) (c : Capu) : (s.setCapu c).display = s.display := rfl
@[simp] theorem setCapu_leds (s : State) (c : Capu) : (s.setCapu c).leds = s.leds := rfl
@[simp] theorem setCapu_trace (s : State) (c : Capu) : (s.setCapu c).trace = s.trace := rfl
@[simp] theorem setCapu_result (s : State) (c : Capu) : (s.setCapu c).result = s.result := rfl
@[simp] theorem setCapu_micro (s : State) (c : Capu) : (s.setCapu c).micro = s.micro := rfl
@[simp] theorem setCapu_script (s : State) (c : Capu) : (s.setCapu c).script = s.script := rfl
@[simp] theorem setCapu_cfg (s : State) (c : Capu) : (s.setCapu c).cfg = s.cfg := rfl

@[simp] theorem setPins_capu (s : State) (p : Pins) : (s.setPins p).capu = s.capu := rfl
@[simp] theorem setPins_pins (s : State) (p : Pins) : (s.setPins p).pins = p := rfl
@[simp] theorem setPins_ctrl (s : State) (p : Pins) : (s.setPins p).ctrl = s.ctrl := rfl
@[simp] theorem setPins_work (s : State) (p : Pins) : (s.setPins p).work = s.work := rfl
@[simp] theorem setPins_seq (s : State) (p : Pins) : (s.setPins p).seq = s.seq := rfl
@[simp] theorem setPins_env (s : State) (p : Pins) : (s.setPins p).env = s.env := rfl
@[simp] theorem setPins_display (s : State) (p : Pins) : (s.setPins p).display = s.display := rfl
@[simp] theorem setPins_leds (s : State) (p : Pins) : (s.setPins p).leds = s.leds := rfl
@[simp] theorem setPins_trace (s : State) (p : Pins) : (s.setPins p).trace = s.trace := rfl
@[simp] theorem setPins_result (s : State) (p : Pins) : (s.setPins p).result = s.result := rfl
@[simp] theorem setPins_micro (s : State) (p : Pins) : (s.setPins p).micro = s.micro := rfl
@[simp] theorem setPins_script (s : State) (p : Pins) : (s.setPins p).script = s.script := rfl
@[simp] theorem setPins_cfg (s : State) (p : Pins) : (s.setPins p).cfg = s.cfg := rfl

@[simp] theorem setCtrl_capu (s : State) (c : Ctrl) : (s.setCtrl c).capu = s.capu := rfl
@[simp] theorem setCtrl_pins (s : State) (c : Ctrl) : (s.setCtrl c).pins = s.pins := rfl
@[simp] theorem setCtrl_ctrl (s : State) (c : Ctrl) : (s.setCtrl c).ctrl = c := rfl
@[simp] theorem setCtrl_work (s : State) (c : Ctrl) : (s.setCtrl c).work = s.work := rfl
@[simp] theorem setCtrl_seq (s : State) (c : Ctrl) : (s.setCtrl c).seq = s.seq := rfl
@[simp] theorem setCtrl_env (s : State) (c : Ctrl) : (s.setCtrl c).env = s.env := rfl
@[simp] theorem setCtrl_display (s : State) (c : Ctrl) : (s.setCtrl c).display = s.display := rfl
@[simp] theorem setCtrl_leds (s : State) (c : Ctrl) : (s.setCtrl c).leds = s.leds := rfl
@[simp] theorem setCtrl_trace (s : State) (c : Ctrl) : (s.setCtrl c).trace = s.trace := rfl
@[simp] theorem setCtrl_result (s : State) (c : Ctrl) : (s.setCtrl c).result = s.result := rfl
@[simp] theorem setCtrl_micro (s : State) (c : Ctrl) : (s.setCtrl c).micro = s.micro := rfl
@[simp] theorem setCtrl_script (s : State) (c : Ctrl) : (s.setCtrl c).script = s.script := rfl
@[simp] theorem setCtrl_cfg (s : State) (c : Ctrl) : (s.setCtrl c).cfg = s.cfg := rfl

@[simp] theorem setWork_capu (s : State) (w : Work) : (s.setWork w).capu = s.capu := rfl
@[simp] theorem setWork_pins (s : State) (w : Work) : (s.setWork w).pins = s.pins := rfl
@[simp] theorem setWork_ctrl (s : State) (w : Work) : (s.setWork w).ctrl = s.ctrl := rfl
@[simp] theorem setWork_work (s : State) (w : Work) : (s.setWork w).work = w := rfl
@[simp] theorem setWork_seq (s : State) (w : Work) : (s.setWork w).seq = s.seq := rfl
@[simp] theorem setWork_env (s : State) (w : Work) : (s.setWork w).env = s.env := rfl
@[simp] theorem setWork_display (s : State) (w : Work) : (s.setWork w).display = s.display := rfl
@[simp] theorem setWork_leds (s : State) (w : Work) : (s.setWork w).leds = s.leds := rfl
@[simp] theorem setWork_trace (s : State) (w : Work) : (s.setWork w).trace = s.trace := rfl
@[simp] theorem setWork_result (s : State) (w : Work) : (s.setWork w).result = s.result := rfl
@[simp] theorem setWork_micro (s : State) (w : Work) : (s.setWork w).micro = s.micro := rfl
@[simp] theorem setWork_script (s : State) (w : Work) : (s.setWork w).script = s.script := rfl
@[simp] theorem setWork_cfg (s : State) (w : Work) : (s.setWork w).cfg = s.cfg := rfl

@[simp] theorem setSeq_capu (s : State) (q : SeqPos) : (s.setSeq q).capu = s.capu := rfl
@[simp] theorem setSeq_pins (s : State) (q : SeqPos) : (s.setSeq q).pins = s.pins := rfl
@[simp] theorem setSeq_ctrl (s : State) (q : SeqPos) : (s.setSeq q).ctrl = s.ctrl := rfl
@[simp] theorem setSeq_work (s : State) (q : SeqPos) : (s.setSeq q).work = s.work := rfl
@[simp] theorem setSeq_seq (s : State) (q : SeqPos) : (s.setSeq q).seq = q := rfl
@[simp] theorem setSeq_env (s : State) (q : SeqPos) : (s.setSeq q).env = s.env := rfl
@[simp] theorem setSeq_display (s : State) (q : SeqPos) : (s.setSeq q).display = s.display := rfl
@[simp] theorem setSeq_leds (s : State) (q : SeqPos) : (s.setSeq q).leds = s.leds := rfl
@[simp] theorem setSeq_trace (s : State) (q : SeqPos) : (s.setSeq q).trace = s.trace := rfl
@[simp] theorem setSeq_result (s : State) (q : SeqPos) : (s.setSeq q).result = s.result := rfl
@[simp] theorem setSeq_micro (s : State) (q : SeqPos) : (s.setSeq q).micro = s.micro := rfl
@[simp] theorem setSeq_script (s : State) (q : SeqPos) : (s.setSeq q).script = s.script := rfl
@[simp] theorem setSeq_cfg (s : State) (q : SeqPos) : (s.setSeq q).cfg = s.cfg := rfl

@[simp] theorem setEnv_capu (s : State) (e : Env) : (s.setEnv e).capu = s.capu := rfl
@[simp] theorem setEnv_pins (s : State) (e : Env) : (s.setEnv e).pins = s.pins := rfl
@[simp] theorem setEnv_ctrl (s : State) (e : Env) : (s.setEnv e).ctrl = s.ctrl := rfl
@[simp] theorem setEnv_work (s : State) (e : Env) : (s.setEnv e).work = s.work := rfl
@[simp] theorem setEnv_seq (s : State) (e : Env) : (s.setEnv e).seq = s.seq := rfl
@[simp] theorem setEnv_env (s : State) (e : Env) : (s.setEnv e).env = e := rfl
@[simp] theorem setEnv_display (s : State) (e : Env) : (s.setEnv e).display = s.display := rfl
@[simp] theorem setEnv_leds (s : State) (e : Env) : (s.setEnv e).leds = s.leds := rfl
@[simp] theorem setEnv_trace (s : State) (e : Env) : (s.setEnv e).trace = s.trace := rfl
@[simp] theorem setEnv_result (s : State) (e : Env) : (s.setEnv e).result = s.result := rfl
@[simp] theorem setEnv_micro (s : State) (e : Env) : (s.setEnv e).micro = s.micro := rfl
@[simp] theorem setEnv_script (s : State) (e : Env) : (s.setEnv e).script = s.script := rfl
@[simp] theorem setEnv_cfg (s : State) (e : Env) : (s.setEnv e).cfg = s.cfg := rfl

@[simp] theorem setDisplay_capu (s : State) (d : Display) : (s.setDisplay d).capu = s.capu := rfl
@[simp] theorem setDisplay_pins (s : State) (d : Display) : (s.setDisplay d).pins = s.pins := rfl
@[simp] theorem setDisplay_ctrl (s : State) (d : Display) : (s.setDisplay d).ctrl = s.ctrl := rfl
@[simp] theorem setDisplay_work (s : State) (d : Display) : (s.setDisplay d).work = s.work := rfl
@[simp] theorem setDisplay_seq (s : State) (d : Display) : (s.setDisplay d).seq = s.seq := rfl
@[simp] theorem setDisplay_env (s : State) (d : Display) : (s.setDisplay d).env = s.env := rfl
@[simp] theorem setDisplay_display (s : State) (d : Display) : (s.setDisplay d).display = d := rfl
@[simp] theorem setDisplay_leds (s : State) (d : Display) : (s.setDisplay d).leds = s.leds := rfl
@[simp] theorem setDisplay_trace (s : State) (d : Display) : (s.setDisplay d).trace = s.trace := rfl
@[simp] theorem setDisplay_result (s : State) (d : Display) : (s.setDisplay d).result = s.result := rfl
@[simp] theorem setDisplay_micro (s : State) (d : Display) : (s.setDisplay d).micro = s.micro := rfl
@[simp] theorem setDisplay_script (s : State) (d : Display) : (s.setDisplay d).script = s.script := rfl
@[simp] theorem setDisplay_cfg (s : State) (d : Display) : (s.setDisplay d).cfg = s.cfg := rfl

@[simp] theorem setLeds_capu (s : State) (l : Leds) : (s.setLeds l).capu = s.capu := rfl
@[simp] theorem setLeds_pins (s : State) (l : Leds) : (s.setLeds l).pins = s.pins := rfl
@[simp] theorem setLeds_ctrl (s : State) (l : Leds) : (s.setLeds l).ctrl = s.ctrl := rfl
@[simp] theorem setLeds_work (s : State) (l : Leds) : (s.setLeds l).work = s.work := rfl
@[simp] theorem setLeds_seq (s : State) (l : Leds) : (s.setLeds l).seq = s.seq := rfl
@[simp] theorem setLeds_env (s : State) (l : Leds) : (s.setLeds l).env = s.env := rfl
@[simp] theorem setLeds_display (s : State) (l : Leds) : (s.setLeds l).display = s.display := rfl
@[simp] theorem setLeds_leds (s : State) (l : Leds) : (s.setLeds l).leds = l := rfl
@[simp] theorem setLeds_trace (s : State) (l : Leds) : (s.setLeds l).trace = s.trace := rfl
@[simp] theorem setLeds_result (s : State) (l : Leds) : (s.setLeds l).result = s.result := rfl
@[simp] theorem setLeds_micro (s : State) (l : Leds) : (s.setLeds l).micro = s.micro := rfl
@[simp] theorem setLeds_script (s : State) (l : Leds) : (s.setLeds l).script = s.script := rfl
@[simp] theorem setLeds_cfg (s : State) (l : Leds) : (s.setLeds l).cfg = s.cfg := rfl

@[simp] theorem addTrace_capu (s : State) (e : TraceEvent) : (s.addTrace e).capu = s.capu := rfl
@[simp] theorem addTrace_pins (s : State) (e : TraceEvent) : (s.addTrace e).pins = s.pins := rfl
@[simp] theorem addTrace_ctrl (s : State) (e : TraceEvent) : (s.addTrace e).ctrl = s.ctrl := rfl
@[simp] theorem addTrace_work (s : State) (e : TraceEvent) : (s.addTrace e).work = s.work := rfl
@[simp] theorem addTrace_seq (s : State) (e : TraceEvent) : (s.addTrace e).seq = s.seq := rfl
@[simp] theorem addTrace_env (s : State) (e : TraceEvent) : (s.addTrace e).env = s.env := rfl
@[simp] theorem addTrace_display (s : State) (e : TraceEvent) : (s.addTrace e).display = s.display := rfl
@[simp] theorem addTrace_leds (s : State) (e : TraceEvent) : (s.addTrace e).leds = s.leds := rfl
@[simp] theorem addTrace_trace (s : State) (e : TraceEvent) : (s.addTrace e).trace = e :: s.trace := rfl
@[simp] theorem addTrace_result (s : State) (e : TraceEvent) : (s.addTrace e).result = s.result := rfl
@[simp] theorem addTrace_micro (s : State) (e : TraceEvent) : (s.addTrace e).micro = s.micro := rfl
@[simp] theorem addTrace_script (s : State) (e : TraceEvent) : (s.addTrace e).script = s.script := rfl
@[simp] theorem addTrace_cfg (s : State) (e : TraceEvent) : (s.addTrace e).cfg = s.cfg := rfl

@[simp] theorem setResult_capu (s : State) (v : Value) : (s.setResult v).capu = s.capu := rfl
@[simp] theorem setResult_pins (s : State) (v : Value) : (s.setResult v).pins = s.pins := rfl
@[simp] theorem setResult_ctrl (s : State) (v : Value) : (s.setResult v).ctrl = s.ctrl := rfl
@[simp] theorem setResult_work (s : State) (v : Value) : (s.setResult v).work = s.work := rfl
@[simp] theorem setResult_seq (s : State) (v : Value) : (s.setResult v).seq = s.seq := rfl
@[simp] theorem setResult_env (s : State) (v : Value) : (s.setResult v).env = s.env := rfl
@[simp] theorem setResult_display (s : State) (v : Value) : (s.setResult v).display = s.display := rfl
@[simp] theorem setResult_leds (s : State) (v : Value) : (s.setResult v).leds = s.leds := rfl
@[simp] theorem setResult_trace (s : State) (v : Value) : (s.setResult v).trace = s.trace := rfl
@[simp] theorem setResult_result (s : State) (v : Value) : (s.setResult v).result = v := rfl
@[simp] theorem setResult_micro (s : State) (v : Value) : (s.setResult v).micro = s.micro := rfl
@[simp] theorem setResult_script (s : State) (v : Value) : (s.setResult v).script = s.script := rfl
@[simp] theorem setResult_cfg (s : State) (v : Value) : (s.setResult v).cfg = s.cfg := rfl

@[simp] theorem setScript_capu (s : State) (l : List OpWord) : (s.setScript l).capu = s.capu := rfl
@[simp] theorem setScript_pins (s : State) (l : List OpWord) : (s.setScript l).pins = s.pins := rfl
@[simp] theorem setScript_ctrl (s : State) (l : List OpWord) : (s.setScript l).ctrl = s.ctrl := rfl
@[simp] theorem setScript_work (s : State) (l : List OpWord) : (s.setScript l).work = s.work := rfl
@[simp] theorem setScript_seq (s : State) (l : List OpWord) : (s.setScript l).seq = s.seq := rfl
@[simp] theorem setScript_env (s : State) (l : List OpWord) : (s.setScript l).env = s.env := rfl
@[simp] theorem setScript_display (s : State) (l : List OpWord) : (s.setScript l).display = s.display := rfl
@[simp] theorem setScript_leds (s : State) (l : List OpWord) : (s.setScript l).leds = s.leds := rfl
@[simp] theorem setScript_trace (s : State) (l : List OpWord) : (s.setScript l).trace = s.trace := rfl
@[simp] theorem setScript_result (s : State) (l : List OpWord) : (s.setScript l).result = s.result := rfl
@[simp] theorem setScript_micro (s : State) (l : List OpWord) : (s.setScript l).micro = s.micro := rfl
@[simp] theorem setScript_script (s : State) (l : List OpWord) : (s.setScript l).script = l := rfl
@[simp] theorem setScript_cfg (s : State) (l : List OpWord) : (s.setScript l).cfg = s.cfg := rfl

@[simp] theorem countMicro_capu (s : State) : (s.countMicro).capu = s.capu := rfl
@[simp] theorem countMicro_pins (s : State) : (s.countMicro).pins = s.pins := rfl
@[simp] theorem countMicro_ctrl (s : State) : (s.countMicro).ctrl = s.ctrl := rfl
@[simp] theorem countMicro_work (s : State) : (s.countMicro).work = s.work := rfl
@[simp] theorem countMicro_seq (s : State) : (s.countMicro).seq = s.seq := rfl
@[simp] theorem countMicro_env (s : State) : (s.countMicro).env = s.env := rfl
@[simp] theorem countMicro_display (s : State) : (s.countMicro).display = s.display := rfl
@[simp] theorem countMicro_leds (s : State) : (s.countMicro).leds = s.leds := rfl
@[simp] theorem countMicro_trace (s : State) : (s.countMicro).trace = s.trace := rfl
@[simp] theorem countMicro_result (s : State) : (s.countMicro).result = s.result := rfl
@[simp] theorem countMicro_micro (s : State) : (s.countMicro).micro = s.micro + 1 := rfl
@[simp] theorem countMicro_script (s : State) : (s.countMicro).script = s.script := rfl
@[simp] theorem countMicro_cfg (s : State) : (s.countMicro).cfg = s.cfg := rfl

@[simp] theorem setSchedule_capu (s : State) (l : List (Nat × EnvEvent)) : (s.setSchedule l).capu = s.capu := rfl
@[simp] theorem setSchedule_pins (s : State) (l : List (Nat × EnvEvent)) : (s.setSchedule l).pins = s.pins := rfl
@[simp] theorem setSchedule_ctrl (s : State) (l : List (Nat × EnvEvent)) : (s.setSchedule l).ctrl = s.ctrl := rfl
@[simp] theorem setSchedule_work (s : State) (l : List (Nat × EnvEvent)) : (s.setSchedule l).work = s.work := rfl
@[simp] theorem setSchedule_seq (s : State) (l : List (Nat × EnvEvent)) : (s.setSchedule l).seq = s.seq := rfl
@[simp] theorem setSchedule_env (s : State) (l : List (Nat × EnvEvent)) : (s.setSchedule l).env = { s.env with schedule := l } := rfl
@[simp] theorem setSchedule_display (s : State) (l : List (Nat × EnvEvent)) : (s.setSchedule l).display = s.display := rfl
@[simp] theorem setSchedule_leds (s : State) (l : List (Nat × EnvEvent)) : (s.setSchedule l).leds = s.leds := rfl
@[simp] theorem setSchedule_trace (s : State) (l : List (Nat × EnvEvent)) : (s.setSchedule l).trace = s.trace := rfl
@[simp] theorem setSchedule_result (s : State) (l : List (Nat × EnvEvent)) : (s.setSchedule l).result = s.result := rfl
@[simp] theorem setSchedule_micro (s : State) (l : List (Nat × EnvEvent)) : (s.setSchedule l).micro = s.micro := rfl
@[simp] theorem setSchedule_script (s : State) (l : List (Nat × EnvEvent)) : (s.setSchedule l).script = s.script := rfl
@[simp] theorem setSchedule_cfg (s : State) (l : List (Nat × EnvEvent)) : (s.setSchedule l).cfg = s.cfg := rfl

end Sys2Proof.Machine.State
end

