-- ==== Sys2Proof/Laws/Widths.lean ====
section
/-! SUPPORT. Numbers in the widths the configuration gives: W, POLL_BITS, ADC_BITS. -/

namespace Sys2Proof

theorem Config.ticks_lt (cfg : Config) (n : Nat) : cfg.ticks n < 2 ^ cfg.cntBits := Nat.mod_lt _ (Nat.two_pow_pos _)

theorem Config.polls_lt (cfg : Config) (n : Nat) : cfg.polls n < 2 ^ cfg.pollBits := Nat.mod_lt _ (Nat.two_pow_pos _)

theorem Config.sample_lt (cfg : Config) (n : Nat) : cfg.sample n < 2 ^ cfg.adcBits := Nat.mod_lt _ (Nat.two_pow_pos _)

theorem Config.ticks_of_lt {cfg : Config} {n : Nat} (h : n < 2 ^ cfg.cntBits) : cfg.ticks n = n := Nat.mod_eq_of_lt h

theorem Config.polls_of_lt {cfg : Config} {n : Nat} (h : n < 2 ^ cfg.pollBits) : cfg.polls n = n := Nat.mod_eq_of_lt h

@[simp] theorem Config.ticks_zero (cfg : Config) : cfg.ticks 0 = 0 := Nat.zero_mod _

@[simp] theorem Config.polls_zero (cfg : Config) : cfg.polls 0 = 0 := Nat.zero_mod _

@[simp] theorem Config.ticks_ticks (cfg : Config) (n : Nat) : cfg.ticks (cfg.ticks n) = cfg.ticks n := Nat.mod_mod _ _

@[simp] theorem Config.polls_polls (cfg : Config) (n : Nat) : cfg.polls (cfg.polls n) = cfg.polls n := Nat.mod_mod _ _

@[simp] theorem Config.sample_sample (cfg : Config) (n : Nat) : cfg.sample (cfg.sample n) = cfg.sample n :=
  Nat.mod_mod _ _

/-- Counting on from a register's value is counting on from the number it holds. -/
@[simp] theorem Config.ticks_add_left (cfg : Config) (a b : Nat) : cfg.ticks (cfg.ticks a + b) = cfg.ticks (a + b) := by
  simp [Config.ticks, Nat.mod_add_mod]

namespace Machine

theorem pulseTicks_lt (cfg : Config) (rise fall : Nat) : pulseTicks cfg rise fall < 2 ^ cfg.cntBits := cfg.ticks_lt _

/-- R123: the ticks between the edges, whether the counter wraps between them or not. -/
theorem pulseTicks_between (cfg : Config) (a b : Nat) : pulseTicks cfg (cfg.ticks a) (cfg.ticks (a + b)) = cfg.ticks b := by
  unfold pulseTicks Config.ticks
  generalize hM : 2 ^ cfg.cntBits = M
  have hpos : 0 < M := hM ▸ Nat.two_pow_pos _
  rw [Nat.mod_mod, Nat.mod_add_mod]
  have h1 : a % M < M := Nat.mod_lt _ hpos
  have h2 : a + b + (M - a % M) = b + M * (a / M + 1) := by
    have := Nat.div_add_mod a M
    rw [Nat.mul_add, Nat.mul_one]
    omega
  rw [h2, Nat.add_mul_mod_self_left]

end Machine

end Sys2Proof
end

