-- ==== Sys2Proof/Laws/Window.lean ====
section
/-! SUPPORT. Everything the window before a micro-step can do: the events of the counter and of ENV touch
CNT, CCR, CF and ENV's own data; a RESET abandons the operation. -/

namespace Sys2Proof.Machine

/-- What events other than RESET leave as it was. -/
structure Undisturbed (s t : State) : Prop where
  pins : t.pins = s.pins
  ctrl : t.ctrl = s.ctrl
  work : t.work = s.work
  seq : t.seq = s.seq
  display : t.display = s.display
  leds : t.leds = s.leds
  trace : t.trace = s.trace
  result : t.result = s.result
  script : t.script = s.script
  cfg : t.cfg = s.cfg
  edge : t.capu.edge = s.capu.edge
  dioExt : t.env.dioExt = s.env.dioExt
  adc : t.env.adc = s.env.adc
  ack : t.env.ack = s.env.ack
  resets : t.env.resets = s.env.resets
  sample : t.env.count.sample = s.env.count.sample
  ackCount : t.env.count.ack = s.env.count.ack
  resetCount : t.env.count.reset = s.env.count.reset
  panelCount : t.env.count.panel = s.env.count.panel
  width : s.capu.InWidth s.cfg → t.capu.InWidth s.cfg

/-- What holds after a RESET, whatever was before it (R270, R271). -/
structure AfterReset (s t : State) : Prop where
  pins : t.pins = pinsReset
  ctrl : t.ctrl = ctrlReset
  seq : t.seq = .idle
  edge : t.capu.edge = .rising
  display : t.display = s.display
  leds : t.leds = s.leds
  trace : t.trace = s.trace
  result : t.result = .none
  script : t.script = s.script
  cfg : t.cfg = s.cfg
  micro : t.micro = s.micro
  width : t.capu.InWidth s.cfg ∧ t.work.InWidth s.cfg

theorem Undisturbed.refl (s : State) : Undisturbed s s := by constructor <;> first | rfl | exact id

theorem Undisturbed.trans {s t u : State} (h : Undisturbed s t) (g : Undisturbed t u) : Undisturbed s u := by
  constructor
  · exact g.pins.trans h.pins
  · exact g.ctrl.trans h.ctrl
  · exact g.work.trans h.work
  · exact g.seq.trans h.seq
  · exact g.display.trans h.display
  · exact g.leds.trans h.leds
  · exact g.trace.trans h.trace
  · exact g.result.trans h.result
  · exact g.script.trans h.script
  · exact g.cfg.trans h.cfg
  · exact g.edge.trans h.edge
  · exact g.dioExt.trans h.dioExt
  · exact g.adc.trans h.adc
  · exact g.ack.trans h.ack
  · exact g.resets.trans h.resets
  · exact g.sample.trans h.sample
  · exact g.ackCount.trans h.ackCount
  · exact g.resetCount.trans h.resetCount
  · exact g.panelCount.trans h.panelCount
  · exact fun x => h.cfg ▸ g.width (h.cfg ▸ h.width x)

theorem undisturbed_cntTicks (n : Nat) (s : State) : Undisturbed s (s.cntTicks n) := by
  constructor <;> first | rfl | exact fun h => ⟨Config.ticks_lt _ _, h.2⟩

theorem undisturbed_capture (s : State) : Undisturbed s s.capture := by
  constructor <;> (try simp only [State.capture, State.setEnv, State.setCapu, Capu.capture]) <;>
    first
    | rfl
    | (split <;> simp only [Env.dropOver] <;> split <;> rfl)
    | exact fun h => ⟨h.1, by show (if _ then _ else _) < _; split; exacts [h.2, h.1]⟩

theorem undisturbed_setEcho (v : Bool) (s : State) : Undisturbed s (s.setEnv { s.env with echo := v }) := by
  constructor <;> first | rfl | exact id

theorem undisturbed_echoTo (v : Bool) (s : State) : Undisturbed s (s.echoTo v) := by
  unfold State.echoTo
  split
  · exact Undisturbed.refl s
  · split
    · exact (undisturbed_setEcho v s).trans (undisturbed_capture _)
    · exact undisturbed_setEcho v s

theorem undisturbed_setSchedule (l : List (Nat × EnvEvent)) (s : State) : Undisturbed s (s.setSchedule l) := by
  constructor <;> first | rfl | exact id

theorem inWidth_coreReset (s : State) : s.coreReset.capu.InWidth s.cfg ∧ s.coreReset.work.InWidth s.cfg :=
  ⟨⟨Config.ticks_lt _ _, Config.ticks_lt _ _⟩,
    Config.ticks_lt _ _, Config.ticks_lt _ _, Config.ticks_lt _ _, Config.polls_lt _ _⟩

theorem afterReset_coreReset (s : State) : AfterReset s s.coreReset := by
  constructor <;> first | rfl | exact inWidth_coreReset s

theorem capture_micro (s : State) : s.capture.micro = s.micro := rfl

theorem echoTo_micro (v : Bool) (s : State) : (s.echoTo v).micro = s.micro := by
  unfold State.echoTo
  split_ifs <;> rfl

theorem AfterReset.of_undisturbed {s t u : State} (h : Undisturbed s t) (hm : t.micro = s.micro)
    (g : AfterReset t u) : AfterReset s u where
  pins := g.pins
  ctrl := g.ctrl
  seq := g.seq
  edge := g.edge
  display := g.display.trans h.display
  leds := g.leds.trans h.leds
  trace := g.trace.trans h.trace
  result := g.result
  script := g.script.trans h.script
  cfg := g.cfg.trans h.cfg
  micro := g.micro.trans hm
  width := h.cfg ▸ g.width

/-- Everything `deliver` can do. -/
theorem deliver_cases : ∀ (l : List (Nat × EnvEvent)) (s : State),
    (∃ t, s.deliver l = .ok t ∧ Undisturbed s t ∧ t.micro = s.micro ∧
      ∀ e ∈ t.env.schedule, ∃ e' ∈ l, e.2 = e'.2) ∨
    (∃ t, s.deliver l = .error t ∧ AfterReset s t ∧ ∃ e ∈ l, e.2 = .reset)
  | [], s => .inl ⟨s.setSchedule [], rfl, undisturbed_setSchedule [] s, rfl, by simp⟩
  | (k + 1, e) :: rest, s => by
    refine .inl ⟨s.setSchedule ((k, e) :: rest), rfl, undisturbed_setSchedule _ s, rfl, ?_⟩
    intro x hx
    rcases List.mem_cons.1 hx with rfl | hx
    · exact ⟨(k + 1, e), List.mem_cons_self, rfl⟩
    · exact ⟨x, List.mem_cons_of_mem _ hx, rfl⟩
  | (0, .reset) :: rest, s =>
    .inr ⟨s.coreReset.setSchedule rest, rfl, by constructor <;> first | rfl | exact inWidth_coreReset s, (0, .reset), List.mem_cons_self, rfl⟩
  | (0, .cnt n) :: rest, s => by
    rcases deliver_cases rest (s.cntTicks n) with ⟨t, ht, hu, hm, hs⟩ | ⟨t, ht, hr, e, he, her⟩
    · refine .inl ⟨t, ht, (undisturbed_cntTicks n s).trans hu, hm, fun x hx => ?_⟩
      obtain ⟨e', he', h⟩ := hs x hx
      exact ⟨e', List.mem_cons_of_mem _ he', h⟩
    · exact .inr ⟨t, ht, hr.of_undisturbed (undisturbed_cntTicks n s) rfl, e, List.mem_cons_of_mem _ he, her⟩
  | (0, .echo v) :: rest, s => by
    rcases deliver_cases rest (s.echoTo v) with ⟨t, ht, hu, hm, hs⟩ | ⟨t, ht, hr, e, he, her⟩
    · refine .inl ⟨t, ht, (undisturbed_echoTo v s).trans hu, hm.trans (echoTo_micro v s), fun x hx => ?_⟩
      obtain ⟨e', he', h⟩ := hs x hx
      exact ⟨e', List.mem_cons_of_mem _ he', h⟩
    · exact .inr ⟨t, ht, hr.of_undisturbed (undisturbed_echoTo v s) (echoTo_micro v s), e,
        List.mem_cons_of_mem _ he, her⟩

/-- Everything a window can do: it ends undisturbed with one micro-step counted, or in a RESET that was to
come. -/
theorem window_cases (s : State) :
    (∃ t, s.window = .ok t ∧ Undisturbed s t ∧ t.micro = s.micro + 1 ∧ (NoReset s → NoReset t)) ∨
    (∃ t, s.window = .error t ∧ AfterReset s t ∧ ¬ NoReset s) := by
  unfold State.window
  rcases deliver_cases s.env.schedule s with ⟨t, ht, hu, hm, hs⟩ | ⟨t, ht, hr, e, he, her⟩
  · refine .inl ⟨t.countMicro, by rw [ht], ?_, by rw [← hm]; rfl, fun hn x hx => ?_⟩
    · exact hu.trans (by constructor <;> first | rfl | exact id)
    · obtain ⟨e', he', h⟩ := hs x hx
      rw [h]
      exact hn e' he'
  · exact .inr ⟨t, by rw [ht], hr, fun hn => hn e he her⟩

/-- Without a RESET to come a window ends undisturbed. -/
theorem window_noReset {s : State} (h : NoReset s) :
    ∃ t, s.window = .ok t ∧ Undisturbed s t ∧ t.micro = s.micro + 1 ∧ NoReset t := by
  rcases window_cases s with ⟨t, ht, hu, hm, hn⟩ | ⟨t, _, _, hn⟩
  · exact ⟨t, ht, hu, hm, hn h⟩
  · exact absurd h hn

/-- With no event to come a window only counts the micro-step. -/
theorem window_quiet {s : State} (h : Quiet s) : s.window = .ok s.countMicro := by
  unfold Quiet at h
  unfold State.window
  rw [h, State.deliver]
  simp only [State.setSchedule, State.setEnv, State.countMicro]
  rw [← h]

theorem Quiet.noReset {s : State} (h : Quiet s) : NoReset s := by
  unfold Quiet at h
  intro e he
  rw [h] at he
  cases he

/-- A RESET that is due abandons the operation before its micro-step. -/
theorem window_reset {s : State} {rest : List (Nat × EnvEvent)} (h : s.env.schedule = (0, .reset) :: rest) :
    s.window = .error (s.coreReset.setSchedule rest) := by
  unfold State.window
  rw [h]
  rfl

/-- An event that is not due yet: the micro-step comes nearer to it. -/
theorem window_later {s : State} {k : Nat} {e : EnvEvent} {rest : List (Nat × EnvEvent)}
    (h : s.env.schedule = (k + 1, e) :: rest) :
    s.window = .ok (s.setSchedule ((k, e) :: rest)).countMicro := by
  unfold State.window
  rw [h]
  rfl

end Sys2Proof.Machine
end

