-- ==== Sys2Proof/Laws/Op.lean ====
section
/-! SUPPORT. How operations of SEQ run: evaluation of their parts, and two ways of reasoning about them.
`Runs` says what an operation that ends has done, whatever the other agents do; `Holds` carries a property
through an operation and through the RESET that may abandon it. -/

namespace Sys2Proof.Machine

variable {α β γ : Type}

/-! ## Evaluation -/

@[simp] theorem pure_apply (a : α) (s : State) : (pure a : Op α) s = .ok (a, s) := rfl

theorem bind_apply (m : Op α) (k : α → Op β) (s : State) :
    (m >>= k) s = match m s with | .ok (a, t) => k a t | .error t => .error t := by
  show Except.bind (m s) (fun p => k p.1 p.2) = _
  cases m s <;> rfl

theorem bind_ok {m : Op α} {k : α → Op β} {s t : State} {a : α} (h : m s = .ok (a, t)) :
    (m >>= k) s = k a t := by rw [bind_apply, h]

theorem bind_error {m : Op α} {k : α → Op β} {s t : State} (h : m s = .error t) :
    (m >>= k) s = .error t := by rw [bind_apply, h]

@[simp] theorem query_apply (g : State → α) (s : State) : query g s = .ok (g s, s) := rfl

@[simp] theorem goto_apply (q : SeqPos) (s : State) : goto q s = .ok ((), s.setSeq q) := rfl

theorem micro_ok {f : State → α × State} {s t : State} (h : s.window = .ok t) : micro f s = .ok (f t) := by
  unfold micro; rw [h]

theorem micro_error {f : State → α × State} {s t : State} (h : s.window = .error t) :
    micro f s = .error t := by unfold micro; rw [h]

theorem act_ok {f : State → State} {s t : State} (h : s.window = .ok t) : act f s = .ok ((), f t) :=
  micro_ok h

theorem look_ok {g : State → α} {s t : State} (h : s.window = .ok t) : look g s = .ok (g t, t) := micro_ok h

theorem run_ok {m : Op α} {v : α → Value} {s t : State} {a : α} (h : m s = .ok (a, t)) :
    run m v s = t.setResult (v a) := by unfold run; rw [h]

theorem run_error {m : Op α} {v : α → Value} {s t : State} (h : m s = .error t) : run m v s = t := by
  unfold run; rw [h]

/-! ## Runs -/

/-- What an operation that a RESET abandoned leaves (R270). -/
structure Aborted (t : State) : Prop where
  pins : t.pins = pinsReset
  ctrl : t.ctrl = ctrlReset
  seq : t.seq = .idle
  edge : t.capu.edge = .rising
  result : t.result = .none

theorem AfterReset.aborted {s t : State} (h : AfterReset s t) : Aborted t :=
  ⟨h.pins, h.ctrl, h.seq, h.edge, h.result⟩

/-- From a state the operation ends and `R` holds of what it leaves, or a RESET to come abandons it. -/
def RunsAt (m : Op α) (s : State) (R : α → State → Prop) : Prop :=
  (∃ a t, m s = .ok (a, t) ∧ (NoReset s → NoReset t) ∧ R a t) ∨ (∃ t, m s = .error t ∧ Aborted t ∧ ¬ NoReset s)

/-- `R` relates the states before and after the operation wherever it ends. -/
def Runs (m : Op α) (R : State → α → State → Prop) : Prop := ∀ s, RunsAt m s (R s)

theorem RunsAt.mono {m : Op α} {s : State} {R R' : α → State → Prop} (h : RunsAt m s R)
    (hR : ∀ a t, R a t → R' a t) : RunsAt m s R' := by
  rcases h with ⟨a, t, hm, hn, hr⟩ | h
  · exact .inl ⟨a, t, hm, hn, hR a t hr⟩
  · exact .inr h

theorem Runs.mono {m : Op α} {R R' : State → α → State → Prop} (h : Runs m R)
    (hR : ∀ s a t, R s a t → R' s a t) : Runs m R' := fun s => (h s).mono (hR s)

theorem RunsAt.bind {m : Op α} {k : α → Op β} {s : State} {R : α → State → Prop} {R' : β → State → Prop}
    (h : RunsAt m s R) (h' : ∀ a t, R a t → RunsAt (k a) t R') : RunsAt (m >>= k) s R' := by
  rcases h with ⟨a, t, hm, hn, hr⟩ | ⟨t, hm, ha, hn⟩
  · rcases h' a t hr with ⟨b, u, hk, hn', hr'⟩ | ⟨u, hk, ha, hn'⟩
    · exact .inl ⟨b, u, (bind_ok hm).trans hk, fun h => hn' (hn h), hr'⟩
    · exact .inr ⟨u, (bind_ok hm).trans hk, ha, fun h => hn' (hn h)⟩
  · exact .inr ⟨t, bind_error hm, ha, hn⟩

theorem Runs.pure (a : α) : Runs (Pure.pure a : Op α) (fun s b t => b = a ∧ t = s) :=
  fun s => .inl ⟨a, s, rfl, id, rfl, rfl⟩

theorem Runs.query (g : State → α) : Runs (Machine.query g) (fun s a t => a = g s ∧ t = s) :=
  fun s => .inl ⟨g s, s, rfl, id, rfl, rfl⟩

theorem Runs.bind {m : Op α} {k : α → Op β} {R : State → α → State → Prop}
    {R' : α → State → β → State → Prop} (h : Runs m R) (h' : ∀ a, Runs (k a) (R' a)) :
    Runs (m >>= k) (fun s b u => ∃ a t, R s a t ∧ R' a t b u) := fun s =>
  (h s).bind fun a t hr => (h' a t).mono fun _ _ hr' => ⟨a, t, hr, hr'⟩

theorem Runs.micro {f : State → α × State} (hf : ∀ t, (f t).2.env.schedule = t.env.schedule) :
    Runs (Machine.micro f) (fun s a t => ∃ u, Undisturbed s u ∧ u.micro = s.micro + 1 ∧ (a, t) = f u) :=
  fun s => by
    rcases window_cases s with ⟨u, hu, hd, hm, hn⟩ | ⟨u, hu, hr, hn⟩
    · refine .inl ⟨(f u).1, (f u).2, micro_ok hu, fun h => ?_, u, hd, hm, rfl⟩
      unfold NoReset
      rw [hf]
      exact hn h
    · exact .inr ⟨u, micro_error hu, hr.aborted, hn⟩

theorem Runs.act {f : State → State} (hf : ∀ t, (f t).env.schedule = t.env.schedule) :
    Runs (Machine.act f) (fun s _ t => ∃ u, Undisturbed s u ∧ u.micro = s.micro + 1 ∧ t = f u) :=
  (Runs.micro (f := fun s => ((), f s)) hf).mono fun _ _ _ ⟨u, h, hm, he⟩ => ⟨u, h, hm, by cases he; rfl⟩

theorem Runs.look (g : State → α) :
    Runs (Machine.look g) (fun s a t => Undisturbed s t ∧ t.micro = s.micro + 1 ∧ a = g t) :=
  (Runs.micro (f := fun s => (g s, s)) fun _ => rfl).mono fun _ _ _ ⟨u, h, hm, he⟩ => by
    cases he; exact ⟨h, hm, rfl⟩

/-- A line that only decides: the window and nothing else. -/
theorem runs_control : Runs control (fun s _ t => Undisturbed s t ∧ t.micro = s.micro + 1) :=
  (Runs.act (f := id) fun _ => rfl).mono fun _ _ _ ⟨u, h, hm, he⟩ => by
    subst he
    exact ⟨h, hm⟩

/-- With no RESET to come the operation ends. -/
theorem RunsAt.ends {m : Op α} {s : State} {R : α → State → Prop} (h : RunsAt m s R) (hs : NoReset s) :
    ∃ a t, m s = .ok (a, t) ∧ NoReset t ∧ R a t := by
  rcases h with ⟨a, t, hm, hn, hr⟩ | ⟨_, _, _, hn⟩
  · exact ⟨a, t, hm, hn hs, hr⟩
  · exact absurd hs hn

/-- What `Runs` says of an operation launched by `exec`. -/
theorem Runs.run {m : Op α} {R : State → α → State → Prop} (h : Runs m R) (v : α → Value) {s : State}
    (hs : NoReset s) : ∃ a t, Machine.run m v s = t.setResult (v a) ∧ NoReset t ∧ R s a t := by
  obtain ⟨a, t, hm, ht, hr⟩ := (h s).ends hs
  exact ⟨a, t, run_ok hm, ht, hr⟩

/-- What `Runs` says of an operation launched by `exec`, whatever comes. -/
theorem Runs.run_cases {m : Op α} {R : State → α → State → Prop} (h : Runs m R) (v : α → Value) (s : State) :
    (∃ a t, Machine.run m v s = t.setResult (v a) ∧ R s a t) ∨ Aborted (Machine.run m v s) := by
  rcases h s with ⟨a, t, hm, _, hr⟩ | ⟨t, hm, ha, _⟩
  · exact .inl ⟨a, t, run_ok hm, hr⟩
  · exact .inr (by rw [run_error hm]; exact ha)

/-! ## Holds: whatever comes -/

/-- From a state with `P` the operation ends with `Q`, or is abandoned with `E`. -/
def Holds (P : State → Prop) (m : Op α) (Q : α → State → Prop) (E : State → Prop) : Prop :=
  ∀ s, P s → match m s with
    | .ok (a, t) => Q a t
    | .error t => E t

theorem Holds.pure {P : State → Prop} {a : α} {Q : α → State → Prop} {E : State → Prop}
    (h : ∀ s, P s → Q a s) : Holds P (Pure.pure a : Op α) Q E := fun s hs => h s hs

theorem Holds.query {P : State → Prop} {g : State → α} {Q : α → State → Prop} {E : State → Prop}
    (h : ∀ s, P s → Q (g s) s) : Holds P (Machine.query g) Q E := fun s hs => h s hs

theorem Holds.goto {P : State → Prop} {q : SeqPos} {Q : Unit → State → Prop} {E : State → Prop}
    (h : ∀ s, P s → Q () (s.setSeq q)) : Holds P (Machine.goto q) Q E := fun s hs => h s hs

theorem Holds.bind {P : State → Prop} {m : Op α} {k : α → Op β} {Q : α → State → Prop}
    {Q' : β → State → Prop} {E : State → Prop} (h : Holds P m Q E) (h' : ∀ a, Holds (Q a) (k a) Q' E) :
    Holds P (m >>= k) Q' E := fun s hs => by
  have h1 := h s hs
  rw [bind_apply]
  cases hm : m s with
  | ok p =>
    obtain ⟨a, t⟩ := p
    rw [hm] at h1
    exact h' a t h1
  | error t =>
    rw [hm] at h1
    exact h1

theorem Holds.micro {P : State → Prop} {f : State → α × State} {Q : α → State → Prop} {E : State → Prop}
    (hq : ∀ s t, P s → Undisturbed s t → t.micro = s.micro + 1 → Q (f t).1 (f t).2)
    (he : ∀ s t, P s → AfterReset s t → E t) : Holds P (Machine.micro f) Q E := fun s hs => by
  rcases window_cases s with ⟨t, ht, hu, hm, _⟩ | ⟨t, ht, hr, _⟩
  · rw [micro_ok ht]; exact hq s t hs hu hm
  · rw [micro_error ht]; exact he s t hs hr

theorem Holds.act {P : State → Prop} {f : State → State} {Q : Unit → State → Prop} {E : State → Prop}
    (hq : ∀ s t, P s → Undisturbed s t → t.micro = s.micro + 1 → Q () (f t))
    (he : ∀ s t, P s → AfterReset s t → E t) : Holds P (Machine.act f) Q E := Holds.micro hq he

theorem Holds.look {P : State → Prop} {g : State → α} {Q : α → State → Prop} {E : State → Prop}
    (hq : ∀ s t, P s → Undisturbed s t → t.micro = s.micro + 1 → Q (g t) t)
    (he : ∀ s t, P s → AfterReset s t → E t) : Holds P (Machine.look g) Q E := Holds.micro hq he

theorem Holds.mono {P P' : State → Prop} {m : Op α} {Q Q' : α → State → Prop} {E E' : State → Prop}
    (h : Holds P m Q E) (hP : ∀ s, P' s → P s) (hQ : ∀ a t, Q a t → Q' a t) (hE : ∀ t, E t → E' t) :
    Holds P' m Q' E' := fun s hs => by
  have h1 := h s (hP s hs)
  cases hm : m s with
  | ok p => obtain ⟨a, t⟩ := p; rw [hm] at h1; exact hQ a t h1
  | error t => rw [hm] at h1; exact hE t h1

/-- What `Holds` says of an operation launched by `exec`. -/
theorem Holds.run {P : State → Prop} {m : Op α} {Q : α → State → Prop} {E R : State → Prop}
    (h : Holds P m Q E) (v : α → Value) (hQ : ∀ a t, Q a t → R (t.setResult (v a))) (hE : ∀ t, E t → R t)
    {s : State} (hs : P s) : R (Machine.run m v s) := by
  have h1 := h s hs
  cases hm : m s with
  | ok p => obtain ⟨a, t⟩ := p; rw [hm] at h1; rw [run_ok hm]; exact hQ a t h1
  | error t => rw [hm] at h1; rw [run_error hm]; exact hE t h1

end Sys2Proof.Machine
end

