-- ==== Sys2Proof/Laws/Pins.lean ====
section
/-! SUPPORT. What the pins and the two receivers behind them do, once: a pin write changes the pins, the
trace, and the receiver that listens to the pin. -/

namespace Sys2Proof.Machine

namespace State

/-! ## The display receiver changes the display and the count of free panels only -/

/-- Everything a STOP condition can do. -/
theorem displayStop_cases (s : State) :
    (s.display.inTxn = false ∧ s.displayStop = s) ∨
    (s.display.inTxn = true ∧ s.display.nack = false ∧ ∃ p,
      panelEffect s.cfg s.display.bytes s.display.panel = some p ∧
      s.displayStop = s.setDisplay { s.display with inTxn := false, panel := p }) ∨
    (s.display.inTxn = true ∧
      (s.display.nack = true ∨ panelEffect s.cfg s.display.bytes s.display.panel = none) ∧
      s.displayStop =
        (s.setDisplay { s.display with
          inTxn := false, panel := panelOf (Config.freePanel s.env.count.panel) }).setEnv
          { s.env with count := { s.env.count with panel := s.env.count.panel + 1 } }) := by
  unfold displayStop
  cases hi : s.display.inTxn
  · exact .inl ⟨rfl, by simp⟩
  · cases hn : s.display.nack
    · cases hp : panelEffect s.cfg s.display.bytes s.display.panel
      · exact .inr (.inr ⟨rfl, .inr rfl, by simp⟩)
      · exact .inr (.inl ⟨rfl, rfl, _, rfl, by simp⟩)
    · exact .inr (.inr ⟨rfl, .inl rfl, by simp⟩)

/-- The parts the display receiver leaves alone. -/
structure SameButDisplay (s t : State) : Prop where
  capu : t.capu = s.capu
  pins : t.pins = s.pins
  ctrl : t.ctrl = s.ctrl
  work : t.work = s.work
  seq : t.seq = s.seq
  leds : t.leds = s.leds
  trace : t.trace = s.trace
  result : t.result = s.result
  micro : t.micro = s.micro
  script : t.script = s.script
  cfg : t.cfg = s.cfg
  env : t.env = { s.env with count := { s.env.count with panel := t.env.count.panel } }

theorem SameButDisplay.refl (s : State) : SameButDisplay s s := by constructor <;> rfl

theorem displayStop_same (s : State) : SameButDisplay s s.displayStop := by
  rcases displayStop_cases s with ⟨_, h⟩ | ⟨_, _, p, _, h⟩ | ⟨_, _, h⟩ <;> rw [h]
  · exact SameButDisplay.refl s
  · constructor <;> rfl
  · constructor <;> rfl

theorem senseDisplay_same (clk line : Bool) (s : State) : SameButDisplay s (s.senseDisplay clk line) := by
  unfold senseDisplay
  split
  · constructor <;> rfl
  · split
    · exact displayStop_same s
    · split
      · constructor <;> rfl
      · exact SameButDisplay.refl s

theorem senseDisplay_none {clk line : Bool} {s : State} (h1 : ¬(clk = false ∧ s.pins.dclk = true))
    (h2 : line = s.dioLine) : s.senseDisplay clk line = s := by
  subst h2
  unfold senseDisplay
  cases clk <;> cases hd : s.pins.dclk <;> cases s.dioLine <;> simp_all

/-- The LED receiver changes the LED bank only. -/
theorem senseLeds_eq (clk latch : Bool) (s : State) :
    ∃ l, s.senseLeds clk latch = s.setLeds l := by
  unfold senseLeds
  split
  · exact ⟨_, rfl⟩
  · split
    · exact ⟨_, rfl⟩
    · exact ⟨s.leds, rfl⟩

theorem senseLeds_none {clk latch : Bool} {s : State} (h1 : clk = s.pins.sclk) (h2 : latch = s.pins.slat) :
    s.senseLeds clk latch = s := by
  subst h1 h2
  unfold senseLeds
  cases s.pins.sclk <;> cases s.pins.slat <;> rfl

/-! ## Driving the pins -/

@[simp] theorem drive_capu (p : Pins) (e : TraceEvent) (s : State) : (s.drive p e).capu = s.capu := by
  unfold drive
  obtain ⟨l, h⟩ := senseLeds_eq s.pins.sclk s.pins.slat (((s.setPins p).addTrace e).senseDisplay s.pins.dclk s.dioLine)
  rw [h]
  exact (senseDisplay_same s.pins.dclk s.dioLine ((s.setPins p).addTrace e)).capu

/-- The parts a write of pins leaves alone, and what the pins and the trace become. -/
theorem drive_same (p : Pins) (e : TraceEvent) (s : State) :
    (s.drive p e).pins = p ∧ (s.drive p e).trace = e :: s.trace ∧ (s.drive p e).ctrl = s.ctrl ∧
    (s.drive p e).work = s.work ∧ (s.drive p e).seq = s.seq ∧ (s.drive p e).result = s.result ∧
    (s.drive p e).micro = s.micro ∧ (s.drive p e).script = s.script ∧ (s.drive p e).cfg = s.cfg ∧
    (s.drive p e).env =
      { s.env with count := { s.env.count with panel := (s.drive p e).env.count.panel } } := by
  unfold drive
  obtain ⟨l, h⟩ := senseLeds_eq s.pins.sclk s.pins.slat (((s.setPins p).addTrace e).senseDisplay s.pins.dclk s.dioLine)
  rw [h]
  have g := senseDisplay_same s.pins.dclk s.dioLine ((s.setPins p).addTrace e)
  exact ⟨g.pins, g.trace, g.ctrl, g.work, g.seq, g.result, g.micro, g.script, g.cfg, g.env⟩

@[simp] theorem drive_pins (p : Pins) (e : TraceEvent) (s : State) : (s.drive p e).pins = p :=
  (drive_same p e s).1
@[simp] theorem drive_trace (p : Pins) (e : TraceEvent) (s : State) : (s.drive p e).trace = e :: s.trace :=
  (drive_same p e s).2.1
@[simp] theorem drive_ctrl (p : Pins) (e : TraceEvent) (s : State) : (s.drive p e).ctrl = s.ctrl :=
  (drive_same p e s).2.2.1
@[simp] theorem drive_work (p : Pins) (e : TraceEvent) (s : State) : (s.drive p e).work = s.work :=
  (drive_same p e s).2.2.2.1
@[simp] theorem drive_seq (p : Pins) (e : TraceEvent) (s : State) : (s.drive p e).seq = s.seq :=
  (drive_same p e s).2.2.2.2.1
@[simp] theorem drive_result (p : Pins) (e : TraceEvent) (s : State) : (s.drive p e).result = s.result :=
  (drive_same p e s).2.2.2.2.2.1
@[simp] theorem drive_micro (p : Pins) (e : TraceEvent) (s : State) : (s.drive p e).micro = s.micro :=
  (drive_same p e s).2.2.2.2.2.2.1
@[simp] theorem drive_script (p : Pins) (e : TraceEvent) (s : State) : (s.drive p e).script = s.script :=
  (drive_same p e s).2.2.2.2.2.2.2.1
@[simp] theorem drive_cfg (p : Pins) (e : TraceEvent) (s : State) : (s.drive p e).cfg = s.cfg :=
  (drive_same p e s).2.2.2.2.2.2.2.2.1
theorem drive_env (p : Pins) (e : TraceEvent) (s : State) :
    (s.drive p e).env = { s.env with count := { s.env.count with panel := (s.drive p e).env.count.panel } } :=
  (drive_same p e s).2.2.2.2.2.2.2.2.2

@[simp] theorem drive_schedule (p : Pins) (e : TraceEvent) (s : State) :
    (s.drive p e).env.schedule = s.env.schedule := by rw [drive_env]

/-- Where SCLK and SLAT keep their levels the LED bank is not reached. -/
theorem drive_leds_of_same {p : Pins} {e : TraceEvent} {s : State} (h1 : p.sclk = s.pins.sclk)
    (h2 : p.slat = s.pins.slat) : (s.drive p e).leds = s.leds := by
  unfold drive
  have g := senseDisplay_same s.pins.dclk s.dioLine ((s.setPins p).addTrace e)
  rw [senseLeds_none (by rw [g.pins]; exact h1.symm) (by rw [g.pins]; exact h2.symm)]
  exact g.leds

/-- Where the pins of the display bus keep their levels the display is not reached. -/
theorem drive_of_same_bus {p : Pins} {e : TraceEvent} {s : State} (h1 : p.dclk = s.pins.dclk)
    (h2 : p.dioOut = s.pins.dioOut) (h3 : p.dioDir = s.pins.dioDir) :
    s.drive p e = ((s.setPins p).addTrace e).senseLeds s.pins.sclk s.pins.slat := by
  unfold drive
  rw [senseDisplay_none]
  · show ¬(s.pins.dclk = false ∧ p.dclk = true)
    rw [h1]
    cases s.pins.dclk <;> simp
  · unfold dioLine
    show _ = (match p.dioDir with | .out => p.dioOut | .inPullup => s.env.dioExt)
    rw [h2, h3] <;> cases s.pins.dioDir <;> rfl

theorem drive_display_of_same {p : Pins} {e : TraceEvent} {s : State} (h1 : p.dclk = s.pins.dclk)
    (h2 : p.dioOut = s.pins.dioOut) (h3 : p.dioDir = s.pins.dioDir) : (s.drive p e).display = s.display := by
  rw [drive_of_same_bus h1 h2 h3]
  obtain ⟨l, h⟩ := senseLeds_eq s.pins.sclk s.pins.slat ((s.setPins p).addTrace e)
  rw [h]
  rfl

/-- The parts a direction change leaves alone, and what the pins and the trace become. -/
theorem setDir_inPullup_same (s : State) :
    (s.setDir .inPullup).pins = { s.pins with dioDir := .inPullup } ∧
    (s.setDir .inPullup).trace = .dir .inPullup :: s.trace ∧
    (s.setDir .inPullup).capu = s.capu ∧ (s.setDir .inPullup).ctrl = s.ctrl ∧
    (s.setDir .inPullup).work = s.work ∧ (s.setDir .inPullup).seq = s.seq ∧
    (s.setDir .inPullup).leds = s.leds ∧ (s.setDir .inPullup).result = s.result ∧
    (s.setDir .inPullup).micro = s.micro ∧ (s.setDir .inPullup).script = s.script ∧
    (s.setDir .inPullup).cfg = s.cfg ∧
    (s.setDir .inPullup).env = { s.env.holdAck with
      count := { s.env.holdAck.count with panel := (s.setDir .inPullup).env.count.panel } } := by
  unfold setDir
  have g := senseDisplay_same s.pins.dclk s.dioLine
    (((s.setEnv s.env.holdAck).setPins { s.pins with dioDir := .inPullup }).addTrace (.dir .inPullup))
  exact ⟨g.pins, g.trace, g.capu, g.ctrl, g.work, g.seq, g.leds, g.result, g.micro, g.script, g.cfg, g.env⟩

@[simp] theorem setDir_schedule (d : Dir) (s : State) : (s.setDir d).env.schedule = s.env.schedule := by
  cases d
  · exact drive_schedule _ _ _
  · rw [(setDir_inPullup_same s).2.2.2.2.2.2.2.2.2.2.2]
    rfl

end State

/-! ## The micro-steps on pins -/

theorem runs_pinWrite (p : Pin) (v : Bool) :
    Runs (pinWrite p v) (fun s _ t => ∃ u, Undisturbed s u ∧ u.micro = s.micro + 1 ∧ t = u.writePin p v) :=
  Runs.act fun _ => State.drive_schedule _ _ _

theorem runs_dirWrite (d : Dir) :
    Runs (dirWrite d) (fun s _ t => ∃ u, Undisturbed s u ∧ u.micro = s.micro + 1 ∧ t = u.setDir d) :=
  Runs.act fun _ => State.setDir_schedule _ _

theorem runs_delay (k : DelayKind) :
    Runs (delay k) (fun s _ t => ∃ u, Undisturbed s u ∧ u.micro = s.micro + 1 ∧ t = u.addTrace (.delay k)) :=
  Runs.act fun _ => rfl

theorem runs_putWork (f : Work → Work) :
    Runs (putWork f) (fun s _ t => ∃ u, Undisturbed s u ∧ u.micro = s.micro + 1 ∧ t = u.setWork (f u.work)) :=
  Runs.act fun _ => rfl

theorem runs_putCtrl (f : Ctrl → Ctrl) :
    Runs (putCtrl f) (fun s _ t => ∃ u, Undisturbed s u ∧ u.micro = s.micro + 1 ∧ t = u.setCtrl (f u.ctrl)) :=
  Runs.act fun _ => rfl

theorem runs_setEdge (e : Edge) :
    Runs (setEdge e) (fun s _ t => ∃ u, Undisturbed s u ∧ u.micro = s.micro + 1 ∧
      t = u.setCapu { u.capu with edge := e }) :=
  Runs.act fun _ => rfl

theorem runs_cfClear :
    Runs cfClear (fun s _ t => ∃ u, Undisturbed s u ∧ u.micro = s.micro + 1 ∧ t = u.setCapu u.capu.clearFlag) :=
  Runs.act fun _ => rfl

theorem runs_adcSample :
    Runs adcSample (fun s a t => ∃ u, Undisturbed s u ∧ u.micro = s.micro + 1 ∧ a = u.cfg.sample u.env.nextSample ∧
      t = u.setEnv u.env.dropSample) :=
  (Runs.micro fun _ => rfl).mono fun _ _ _ ⟨u, hu, hm, he⟩ => by
    cases he; exact ⟨u, hu, hm, rfl, rfl⟩

end Sys2Proof.Machine
end

