-- ==== Sys2Proof/Laws/Steps.lean ====
section
/-! SUPPORT. One relation per kind of micro-step, each saying what the step writes and that everything else
stays. `Still` is what neither the other agents nor any driver of a bus writes. -/

namespace Sys2Proof.Machine

/-- The parts that no bus operation and no event other than RESET writes. -/
structure Still (s t : State) : Prop where
  ctrl : t.ctrl = s.ctrl
  seq : t.seq = s.seq
  result : t.result = s.result
  script : t.script = s.script
  cfg : t.cfg = s.cfg
  edge : t.capu.edge = s.capu.edge
  adc : t.env.adc = s.env.adc
  resets : t.env.resets = s.env.resets
  sample : t.env.count.sample = s.env.count.sample
  resetCount : t.env.count.reset = s.env.count.reset

/-- The parts of the display bus an operation leaves alone: ENV's line levels and the receiver. -/
structure BusStill (s t : State) : Prop where
  dioExt : t.env.dioExt = s.env.dioExt
  ack : t.env.ack = s.env.ack
  ackCount : t.env.count.ack = s.env.count.ack

/-- ENV's line levels after n ACK cycles. -/
structure Acked (n : Nat) (s t : State) : Prop where
  ack : t.env.ack = s.env.ack.drop n
  ackCount : t.env.count.ack = s.env.count.ack + n

theorem Still.refl (s : State) : Still s s := by constructor <;> rfl

theorem Still.trans {s t u : State} (h : Still s t) (g : Still t u) : Still s u where
  ctrl := g.ctrl.trans h.ctrl
  seq := g.seq.trans h.seq
  result := g.result.trans h.result
  script := g.script.trans h.script
  cfg := g.cfg.trans h.cfg
  edge := g.edge.trans h.edge
  adc := g.adc.trans h.adc
  resets := g.resets.trans h.resets
  sample := g.sample.trans h.sample
  resetCount := g.resetCount.trans h.resetCount

theorem Undisturbed.still {s t : State} (h : Undisturbed s t) : Still s t where
  ctrl := h.ctrl
  seq := h.seq
  result := h.result
  script := h.script
  cfg := h.cfg
  edge := h.edge
  adc := h.adc
  resets := h.resets
  sample := h.sample
  resetCount := h.resetCount

theorem BusStill.refl (s : State) : BusStill s s := ⟨rfl, rfl, rfl⟩

theorem BusStill.trans {s t u : State} (h : BusStill s t) (g : BusStill t u) : BusStill s u :=
  ⟨g.dioExt.trans h.dioExt, g.ack.trans h.ack, g.ackCount.trans h.ackCount⟩

theorem Undisturbed.busStill {s t : State} (h : Undisturbed s t) : BusStill s t :=
  ⟨h.dioExt, h.ack, h.ackCount⟩

theorem BusStill.acked {s t : State} (h : BusStill s t) : Acked 0 s t := ⟨h.ack, h.ackCount⟩

theorem Acked.trans {m n : Nat} {s t u : State} (h : Acked m s t) (g : Acked n t u) : Acked (m + n) s u :=
  ⟨by rw [g.ack, h.ack, List.drop_drop], by rw [g.ackCount, h.ackCount]; omega⟩

/-- The k-th level after n ACK cycles is the (n + k)-th from now. -/
theorem Acked.ackAt {n : Nat} {s t : State} (h : Acked n s t) (k : Nat) : ackAt t k = ackAt s (n + k) := by
  unfold Machine.ackAt
  rw [h.ack, h.ackCount, List.getElem?_drop]
  simp only [Nat.add_assoc]

theorem Acked.ackLevels {m : Nat} {s t : State} (h : Acked m s t) (n : Nat) :
    ackLevels t n = (ackLevels s (m + n)).drop m := by
  unfold Machine.ackLevels
  apply List.ext_getElem <;> simp [h.ackAt]

theorem ackLevels_length (s : State) (n : Nat) : (ackLevels s n).length = n := by simp [ackLevels]

theorem ackLevels_take (s : State) (m n : Nat) : (ackLevels s (m + n)).take m = ackLevels s m := by
  apply List.ext_getElem <;> simp [ackLevels]

/-! ## What a change of a pin is -/

/-- A step that puts the pins at new values with one trace event. -/
structure Drove (p : Pins) (e : TraceEvent) (s t : State) : Prop where
  still : Still s t
  work : t.work = s.work
  pins : t.pins = p
  trace : t.trace = e :: s.trace
  bus : BusStill s t
  micro : t.micro = s.micro + 1

theorem drove_of_undisturbed {p : Pins} {e : TraceEvent} {s u : State} (h : Undisturbed s u)
    (hm : u.micro = s.micro + 1) : Drove p e s (u.drive p e) where
  still := by
    refine h.still.trans ?_
    constructor <;> first | simp | (rw [State.drive_env])
  work := by simp [h.work]
  pins := by simp
  trace := by simp [h.trace]
  bus := h.busStill.trans (by constructor <;> rw [State.drive_env])
  micro := by simp [hm]

/-- A write of a pin. -/
theorem runs_pinWrite_drove (p : Pin) (v : Bool) :
    Runs (pinWrite p v) (fun s _ t => Drove (s.pins.put p v) (.write p v) s t) :=
  (runs_pinWrite p v).mono fun s _ t ⟨u, hu, hm, ht⟩ => by
    rw [ht, ← hu.pins]
    exact drove_of_undisturbed hu hm

/-- DIO driven again. -/
theorem runs_dirWrite_out :
    Runs (dirWrite .out) (fun s _ t => Drove { s.pins with dioDir := .out } (.dir .out) s t) :=
  (runs_dirWrite .out).mono fun s _ t ⟨u, hu, hm, ht⟩ => by
    rw [ht, ← hu.pins]
    exact drove_of_undisturbed hu hm

/-- DIO released: the level of an ACK cycle is drawn. -/
theorem runs_dirWrite_inPullup :
    Runs (dirWrite .inPullup) (fun s _ t => Still s t ∧ t.work = s.work ∧
      t.pins = { s.pins with dioDir := .inPullup } ∧ t.trace = .dir .inPullup :: s.trace ∧
      t.leds = s.leds ∧ t.env.dioExt = ackAt s 0 ∧ Acked 1 s t ∧ t.micro = s.micro + 1) :=
  (runs_dirWrite .inPullup).mono fun s _ t ⟨u, hu, hm, ht⟩ => by
    obtain ⟨h1, h2, h3, h4, h5, h6, h7, h8, h9, h10, h11, h12⟩ := State.setDir_inPullup_same u
    subst ht
    refine ⟨hu.still.trans ?_, h5.trans hu.work, by rw [h1, hu.pins], by rw [h2, hu.trace], h7.trans hu.leds,
      ?_, ⟨?_, ?_⟩, h9.trans hm⟩
    · constructor <;> first | assumption | rw [h3] | (rw [h12]; rfl)
    · rw [h12]
      show u.env.nextAck = _
      unfold Env.nextAck ackAt
      rw [hu.ack, hu.ackCount]
      cases s.env.ack <;> rfl
    · rw [h12]
      show u.env.ack.tail = _
      rw [hu.ack, List.drop_one]
    · rw [h12]
      show u.env.count.ack + 1 = _
      rw [hu.ackCount]

/-- A delay: a marker. -/
theorem runs_delay_marker (k : DelayKind) :
    Runs (delay k) (fun s _ t => Drove s.pins (.delay k) s t ∧ t.display = s.display ∧ t.leds = s.leds) :=
  (runs_delay k).mono fun s _ t ⟨u, hu, hm, ht⟩ => by
    subst ht
    refine ⟨⟨hu.still.trans (by constructor <;> rfl), hu.work, hu.pins, ?_, hu.busStill.trans (by constructor <;> rfl),
      hm⟩, hu.display, hu.leds⟩
    show TraceEvent.delay k :: u.trace = _
    rw [hu.trace]

/-- A step that touches no pin and no trace. -/
structure Silent (s t : State) : Prop where
  pins : t.pins = s.pins
  trace : t.trace = s.trace
  display : t.display = s.display
  leds : t.leds = s.leds
  bus : BusStill s t

theorem Undisturbed.silent {s t : State} (h : Undisturbed s t) : Silent s t :=
  ⟨h.pins, h.trace, h.display, h.leds, h.busStill⟩

theorem Silent.refl (s : State) : Silent s s := ⟨rfl, rfl, rfl, rfl, BusStill.refl s⟩

theorem Silent.trans {s t u : State} (h : Silent s t) (g : Silent t u) : Silent s u :=
  ⟨g.pins.trans h.pins, g.trace.trans h.trace, g.display.trans h.display, g.leds.trans h.leds, h.bus.trans g.bus⟩

/-- A write of a working register with a value of its configured width. -/
theorem runs_cutWork_silent (f : Config → Work → Work) :
    Runs (act fun s => s.setWork (f s.cfg s.work))
      (fun s _ t => Still s t ∧ Silent s t ∧ t.work = f s.cfg s.work ∧ t.micro = s.micro + 1) :=
  (Runs.act (f := fun s => s.setWork (f s.cfg s.work)) fun _ => rfl).mono fun s _ t ⟨u, hu, hm, ht⟩ => by
    subst ht
    exact ⟨hu.still.trans (by constructor <;> rfl),
      hu.silent.trans (by constructor <;> first | rfl | exact ⟨rfl, rfl, rfl⟩), by simp [hu.work, hu.cfg], hm⟩

/-- A write of a working register. -/
theorem runs_putWork_silent (f : Work → Work) :
    Runs (putWork f) (fun s _ t => Still s t ∧ Silent s t ∧ t.work = f s.work ∧ t.micro = s.micro + 1) :=
  runs_cutWork_silent fun _ => f

/-- A write of the control state. -/
theorem runs_putCtrl_silent (f : Ctrl → Ctrl) :
    Runs (putCtrl f) (fun s _ t => Undisturbed s (t.setCtrl s.ctrl) ∧ t.ctrl = f s.ctrl ∧ t.micro = s.micro + 1) :=
  (runs_putCtrl f).mono fun s _ t ⟨u, hu, hm, ht⟩ => by
    subst ht
    refine ⟨?_, by simp [hu.ctrl], hm⟩
    constructor <;> first | rfl | exact hu.pins | exact hu.work | exact hu.seq | exact hu.display | exact hu.leds | exact hu.trace | exact hu.result | exact hu.script | exact hu.cfg | exact hu.edge | exact hu.dioExt | exact hu.adc | exact hu.ack | exact hu.resets | exact hu.sample | exact hu.ackCount | exact hu.resetCount | exact hu.panelCount | exact hu.width

end Sys2Proof.Machine
end

