-- ==== Sys2Proof/Laws/Buttons.lean ====
section
/-! SUPPORT. What the button reader does: the samples it takes, the class it reports, the registers it
writes. -/

namespace Sys2Proof.Machine

/-- What the button reader leaves alone. -/
structure ButtonStill (s t : State) : Prop where
  pins : t.pins = s.pins
  display : t.display = s.display
  leds : t.leds = s.leds
  bus : BusStill s t
  seq : t.seq = s.seq
  result : t.result = s.result
  script : t.script = s.script
  cfg : t.cfg = s.cfg
  edge : t.capu.edge = s.capu.edge
  resets : t.env.resets = s.env.resets
  resetCount : t.env.count.reset = s.env.count.reset

theorem ButtonStill.trans {s t u : State} (h : ButtonStill s t) (g : ButtonStill t u) : ButtonStill s u where
  pins := g.pins.trans h.pins
  display := g.display.trans h.display
  leds := g.leds.trans h.leds
  bus := h.bus.trans g.bus
  seq := g.seq.trans h.seq
  result := g.result.trans h.result
  script := g.script.trans h.script
  cfg := g.cfg.trans h.cfg
  edge := g.edge.trans h.edge
  resets := g.resets.trans h.resets
  resetCount := g.resetCount.trans h.resetCount

theorem Undisturbed.buttonStill {s t : State} (h : Undisturbed s t) : ButtonStill s t where
  pins := h.pins
  display := h.display
  leds := h.leds
  bus := h.busStill
  seq := h.seq
  result := h.result
  script := h.script
  cfg := h.cfg
  edge := h.edge
  resets := h.resets
  resetCount := h.resetCount

/-- After n samples. -/
structure Sampled (n : Nat) (s t : State) : Prop where
  adc : t.env.adc = s.env.adc.drop n
  count : t.env.count.sample = s.env.count.sample + n

theorem Sampled.trans {m n : Nat} {s t u : State} (h : Sampled m s t) (g : Sampled n t u) : Sampled (m + n) s u :=
  ⟨by rw [g.adc, h.adc, List.drop_drop], by rw [g.count, h.count]; omega⟩

theorem Undisturbed.sampled {s t : State} (h : Undisturbed s t) : Sampled 0 s t := ⟨h.adc, h.sample⟩

/-- The k-th sample after n samples is the (n + k)-th from now. -/
theorem Sampled.sampleAt {n : Nat} {s t : State} (h : Sampled n s t) (hc : t.cfg = s.cfg) (k : Nat) :
    sampleAt t k = sampleAt s (n + k) := by
  unfold Machine.sampleAt
  rw [h.adc, h.count, hc, List.getElem?_drop]
  simp only [Nat.add_assoc]

theorem Sampled.classAt {n : Nat} {s t : State} (h : Sampled n s t) (hc : t.cfg = s.cfg) (k : Nat) :
    classAt t k = classAt s (n + k) := by
  unfold Machine.classAt
  rw [h.sampleAt hc, hc]

theorem runs_adcSample_takes :
    Runs adcSample (fun s a t => a = sampleAt s 0 ∧ Sampled 1 s t ∧ ButtonStill s t ∧ t.ctrl = s.ctrl ∧
      t.work = s.work ∧ t.trace = s.trace ∧ t.micro = s.micro + 1) :=
  runs_adcSample.mono fun s a t ⟨u, hu, hm, ha, ht⟩ => by
    subst ht
    refine ⟨?_, ⟨?_, ?_⟩, hu.buttonStill.trans (by constructor <;> first | rfl | exact ⟨rfl, rfl, rfl⟩), hu.ctrl,
      hu.work, hu.trace, hm⟩
    · rw [ha]
      unfold Env.nextSample sampleAt
      rw [hu.adc, hu.sample, hu.cfg]
      cases s.env.adc <;> rfl
    · show u.env.adc.tail = _
      rw [hu.adc, List.drop_one]
    · show u.env.count.sample + 1 = _
      rw [hu.sample]

theorem runs_readRaw :
    Runs readRaw (fun s a t => a = classAt s 0 ∧ Sampled 1 s t ∧ ButtonStill s t ∧ t.ctrl = s.ctrl ∧
      t.work = s.work ∧ t.trace = s.trace ∧ t.micro = s.micro + 1) :=
  (Runs.bind runs_adcSample_takes fun _ => Runs.query _).mono fun s a t h => by
    obtain ⟨v, s1, ⟨hv, h1, h2, h3⟩, ha, rfl⟩ := h
    refine ⟨?_, h1, h2, h3⟩
    rw [ha, hv, h2.cfg]
    rfl

theorem runs_confirm :
    Runs confirm (fun s a t => Sampled 1 s t ∧ ButtonStill s t ∧ t.work = s.work ∧
      t.trace = .delay (.param .settle) :: s.trace ∧
      t.ctrl = (if classAt s 0 = s.work.cand then { s.ctrl with stable := s.work.cand } else s.ctrl) ∧
      a = (if classAt s 0 = s.work.cand then s.work.cand else s.ctrl.stable)) := by
  have hcommit : Runs (act fun s => s.setCtrl { s.ctrl with stable := s.work.cand }) (fun s _ t =>
      Sampled 0 s t ∧ ButtonStill s t ∧ t.work = s.work ∧ t.trace = s.trace ∧
      t.ctrl = { s.ctrl with stable := s.work.cand }) :=
    (Runs.act (f := fun s => s.setCtrl { s.ctrl with stable := s.work.cand }) fun _ => rfl).mono
      fun s _ t ⟨u, hu, _, ht⟩ => by
      subst ht
      exact ⟨⟨hu.adc, hu.sample⟩, hu.buttonStill.trans (by constructor <;> first | rfl | exact ⟨rfl, rfl, rfl⟩), hu.work,
        hu.trace, by simp [hu.ctrl, hu.work]⟩
  refine (Runs.bind (runs_delay_marker _) fun _ => Runs.bind runs_readRaw fun c2 => Runs.bind (Runs.query _) fun cand =>
    (?_ : Runs _ (fun s a t => Sampled 0 s t ∧ ButtonStill s t ∧ t.work = s.work ∧ t.trace = s.trace ∧
      t.ctrl = (if c2 = cand then { s.ctrl with stable := s.work.cand } else s.ctrl) ∧ a = t.ctrl.stable))).mono ?_
  · by_cases h : c2 = cand
    · simp only [h, if_true]
      exact (Runs.bind hcommit fun _ => Runs.query _).mono fun s a t ⟨_, s1, ⟨h1, h2, h3, h4, h5⟩, ha, ht⟩ => by
        subst ht
        exact ⟨h1, h2, h3, h4, h5, ha⟩
    · simp only [h, if_false]
      exact (Runs.query _).mono fun s a t ⟨ha, ht⟩ => by
        subst ht
        exact ⟨⟨rfl, rfl⟩, by constructor <;> first | rfl | exact ⟨rfl, rfl, rfl⟩, rfl, rfl, rfl, ha⟩
  · rintro s a t ⟨_, s1, ⟨d1, e1, l1⟩, c2, s2, ⟨hc2, q2, b2, k2, w2, t2, -⟩, cand, _, ⟨hcand, rfl⟩, q3, b3, w3, t3, k3, ha⟩
    have b1 : ButtonStill s s1 := ⟨d1.pins, e1, l1, d1.bus, d1.still.seq, d1.still.result, d1.still.script,
      d1.still.cfg, d1.still.edge, d1.still.resets, d1.still.resetCount⟩
    have q1 : Sampled 0 s s1 := ⟨d1.still.adc, d1.still.sample⟩
    have hcl : classAt s1 0 = classAt s 0 := q1.classAt b1.cfg 0
    have hcd : cand = s.work.cand := by rw [hcand, w2, d1.work]
    rw [hcl] at hc2
    subst hc2 hcd
    rw [k2, d1.still.ctrl, w2, d1.work] at k3
    refine ⟨(q1.trans q2).trans q3, (b1.trans b2).trans b3, by rw [w3, w2, d1.work], by rw [t3, t2, d1.trace], k3, ?_⟩
    rw [ha, k3]
    split <;> rfl

/-- READ_DEBOUNCED (R189): one sample where the class is the stable one, two where it is not. -/
theorem runs_readDebounced :
    Runs readDebounced (fun s a t => a = debounced s ∧ ButtonStill s t ∧ t.work = { s.work with cand := classAt s 0 } ∧
      t.ctrl = { s.ctrl with stable := debounced s } ∧
      (classAt s 0 = s.ctrl.stable → Sampled 1 s t ∧ t.trace = s.trace) ∧
      (classAt s 0 ≠ s.ctrl.stable → Sampled 2 s t ∧ t.trace = .delay (.param .settle) :: s.trace)) := by
  refine (Runs.bind runs_readRaw fun c => Runs.bind (runs_putWork_silent _) fun _ => Runs.bind (Runs.query _) fun stable =>
    (?_ : Runs _ (fun s a t => ButtonStill s t ∧ t.work = s.work ∧
      (c = stable → a = stable ∧ t = s) ∧
      (c ≠ stable → Sampled 1 s t ∧ t.trace = .delay (.param .settle) :: s.trace ∧
        t.ctrl = (if classAt s 0 = s.work.cand then { s.ctrl with stable := s.work.cand } else s.ctrl) ∧
        a = (if classAt s 0 = s.work.cand then s.work.cand else s.ctrl.stable))))).mono ?_
  · by_cases h : c = stable
    · simp only [h, if_true]
      exact (Runs.pure _).mono fun s a t ⟨ha, ht⟩ => by
        subst ht
        exact ⟨by constructor <;> first | rfl | exact ⟨rfl, rfl, rfl⟩, rfl, fun _ => ⟨ha, rfl⟩, fun h => absurd rfl h⟩
    · simp only [h, if_false]
      exact runs_confirm.mono fun s a t ⟨h1, h2, h3, h4, h5, h6⟩ =>
        ⟨h2, h3, fun hh => hh.elim, fun _ => ⟨h1, h4, h5, h6⟩⟩
  · rintro s a t ⟨c, s1, ⟨hc, q1, b1, k1, w1, t1, -⟩, _, s2', ⟨i2, n2, w2, -⟩, stable, s2, ⟨hst, rfl⟩, b3, w3, hs, hd⟩
    have b2 : ButtonStill s1 s2 := ⟨n2.pins, n2.display, n2.leds, n2.bus, i2.seq, i2.result, i2.script, i2.cfg, i2.edge,
      i2.resets, i2.resetCount⟩
    have q2 : Sampled 0 s1 s2 := ⟨i2.adc, i2.sample⟩
    have hst' : stable = s.ctrl.stable := by rw [hst, i2.ctrl, k1]
    have hcl : classAt s2 0 = classAt s 1 := (q1.trans q2).classAt (by rw [i2.cfg, b1.cfg]) 0
    have hctrl : s2.ctrl = s.ctrl := by rw [i2.ctrl, k1]
    have hw : s2.work = { s.work with cand := classAt s 0 } := by rw [w2, w1, hc]
    have ht : s2.trace = s.trace := by rw [n2.trace, t1]
    subst hc hst'
    by_cases h : classAt s 0 = s.ctrl.stable
    · obtain ⟨ha, rfl⟩ := hs h
      have hdb : debounced s = s.ctrl.stable := by unfold debounced; rw [if_pos h]
      exact ⟨ha.trans hdb.symm, (b1.trans b2).trans b3, hw, by rw [hctrl, hdb], fun _ => ⟨q1.trans q2, ht⟩,
        fun hh => absurd h hh⟩
    · obtain ⟨q3, t3, k3, ha⟩ := hd h
      rw [hcl, hw, hctrl] at k3 ha
      have hdb : debounced s = if classAt s 1 = classAt s 0 then classAt s 0 else s.ctrl.stable := by
        unfold debounced; rw [if_neg h]
      refine ⟨ha.trans hdb.symm, (b1.trans b2).trans b3, by rw [w3, hw], ?_, fun hh => absurd hh h,
        fun _ => ⟨(q1.trans q2).trans q3, by rw [t3, ht]⟩⟩
      rw [k3, hdb]
      split <;> rfl

end Sys2Proof.Machine
end

