-- ==== Sys2Proof/Laws/TwoWire.lean ====
section
/-! SUPPORT. What the operations of the display bus do: the trace, the pins, the working registers, ENV's
levels, and what the receiver of R153 makes of it. -/

namespace Sys2Proof.Machine

/-- Two things an operation does, together: it is deterministic. -/
theorem Runs.and {α : Type} {m : Op α} {R R' : State → α → State → Prop} (h : Runs m R) (h' : Runs m R') :
    Runs m (fun s a t => R s a t ∧ R' s a t) := fun s => by
  rcases h s with ⟨a, t, hm, hn, hr⟩ | he
  · rcases h' s with ⟨a', t', hm', _, hr'⟩ | ⟨_, hm', _⟩
    · rw [hm] at hm'
      cases hm'
      exact .inl ⟨a, t, hm, hn, hr, hr'⟩
    · rw [hm] at hm'
      cases hm'
  · exact .inr he

/-- What a rising clock edge does to the receiver: nothing outside a transaction. -/
def Display.slot (line : Bool) (d : Display) : Display := if d.inTxn then d.clockRise line else d

namespace State

theorem dioLine_out {s : State} (h : s.pins.dioDir = .out) : s.dioLine = s.pins.dioOut := by
  unfold dioLine; rw [h]

theorem dioLine_inPullup {s : State} (h : s.pins.dioDir = .inPullup) : s.dioLine = s.env.dioExt := by
  unfold dioLine; rw [h]

theorem senseLeds_display (clk latch : Bool) (s : State) : (s.senseLeds clk latch).display = s.display := by
  obtain ⟨l, h⟩ := senseLeds_eq clk latch s
  rw [h, setLeds_display]

/-- The display after a change of pins is what its receiver makes of it. -/
theorem drive_display (p : Pins) (e : TraceEvent) (s : State) :
    (s.drive p e).display = (((s.setPins p).addTrace e).senseDisplay s.pins.dclk s.dioLine).display := by
  unfold drive
  rw [senseLeds_display]

theorem drive_display_low {p : Pins} (e : TraceEvent) (s : State) (h : p.dclk = false) :
    (s.drive p e).display = s.display := by
  rw [drive_display]
  unfold senseDisplay
  simp [h]

theorem drive_display_rise {p : Pins} (e : TraceEvent) (s : State) (h : s.pins.dclk = false) (h' : p.dclk = true)
    (hd : p.dioDir = s.pins.dioDir) (ho : p.dioOut = s.pins.dioOut) :
    (s.drive p e).display = s.display.slot s.dioLine := by
  have hl : ((s.setPins p).addTrace e).dioLine = s.dioLine := by
    unfold dioLine
    simp [hd, ho]
  rw [drive_display]
  unfold senseDisplay Display.slot
  rw [hl]
  simp only [h, addTrace_pins, setPins_pins, h', addTrace_display, setPins_display]
  cases hi : s.display.inTxn <;> simp

theorem drive_display_start {p : Pins} (e : TraceEvent) (s : State) (h : s.pins.dclk = true) (h' : p.dclk = true)
    (hl : s.dioLine = true) (hd : p.dioDir = .out) (ho : p.dioOut = false) :
    (s.drive p e).display = s.display.start := by
  have hl' : ((s.setPins p).addTrace e).dioLine = false := (dioLine_out hd).trans ho
  rw [drive_display]
  unfold senseDisplay
  rw [hl', hl]
  simp [h, h']

theorem drive_display_stop {p : Pins} (e : TraceEvent) (s : State) {q : Panel} (h : s.pins.dclk = true)
    (h' : p.dclk = true) (hl : s.dioLine = false) (hd : p.dioDir = .out) (ho : p.dioOut = true)
    (hi : s.display.inTxn = true) (hn : s.display.nack = false)
    (hp : panelEffect s.cfg s.display.bytes s.display.panel = some q) :
    (s.drive p e).display = { s.display with inTxn := false, panel := q } := by
  have hl' : ((s.setPins p).addTrace e).dioLine = true := (dioLine_out hd).trans ho
  rw [drive_display]
  unfold senseDisplay
  rw [hl', hl]
  simp [h, h', displayStop, hi, hn, hp]

end State

/-! ## One pin write -/

theorem runs_dclk_low :
    Runs (pinWrite .dclk false) (fun s _ t => Drove { s.pins with dclk := false } (.write .dclk false) s t ∧
      t.leds = s.leds ∧ t.display = s.display) :=
  (runs_pinWrite .dclk false).mono fun s _ t ⟨u, hu, hm, ht⟩ => by
    subst ht
    refine ⟨by rw [← hu.pins]; exact drove_of_undisturbed hu hm, ?_, ?_⟩
    · rw [← hu.leds]; exact State.drive_leds_of_same rfl rfl
    · rw [← hu.display]; exact State.drive_display_low _ _ rfl

theorem undisturbed_dioLine {s t : State} (h : Undisturbed s t) : t.dioLine = s.dioLine := by
  unfold State.dioLine
  rw [h.pins, h.dioExt]

theorem runs_dclk_high :
    Runs (pinWrite .dclk true) (fun s _ t => Drove { s.pins with dclk := true } (.write .dclk true) s t ∧
      t.leds = s.leds ∧ (s.pins.dclk = false → t.display = s.display.slot s.dioLine) ∧
      (s.pins.dclk = true → t.display = s.display)) :=
  (runs_pinWrite .dclk true).mono fun s _ t ⟨u, hu, hm, ht⟩ => by
    subst ht
    refine ⟨by rw [← hu.pins]; exact drove_of_undisturbed hu hm, ?_, fun h => ?_, fun h => ?_⟩
    · rw [← hu.leds]; exact State.drive_leds_of_same rfl rfl
    · rw [← hu.display, ← undisturbed_dioLine hu]
      exact State.drive_display_rise _ _ (by rw [hu.pins]; exact h) rfl rfl rfl
    · rw [← hu.display]
      exact State.drive_display_of_same (by rw [hu.pins, h]; rfl) rfl rfl

theorem runs_dio (b : Bool) :
    Runs (pinWrite .dio b) (fun s _ t => Drove { s.pins with dioOut := b } (.write .dio b) s t ∧
      t.leds = s.leds ∧ (s.pins.dclk = false → t.display = s.display) ∧
      (s.pins.dioOut = b → t.display = s.display) ∧
      (DisplayBusIdle s.pins → b = false → t.display = s.display.start) ∧
      (∀ q, s.pins.dclk = true → s.pins.dioDir = .out → s.pins.dioOut = false → b = true →
        s.display.inTxn = true → s.display.nack = false →
        panelEffect s.cfg s.display.bytes s.display.panel = some q →
        t.display = { s.display with inTxn := false, panel := q })) :=
  (runs_pinWrite .dio b).mono fun s _ t ⟨u, hu, hm, ht⟩ => by
    subst ht
    refine ⟨by rw [← hu.pins]; exact drove_of_undisturbed hu hm, ?_, fun h => ?_, fun h => ?_, fun h hb => ?_,
      fun q h hd ho hb hi hn hp => ?_⟩
    · rw [← hu.leds]; exact State.drive_leds_of_same rfl rfl
    · rw [← hu.display]; exact State.drive_display_low _ _ (by rw [hu.pins]; exact h)
    · rw [← hu.display]
      exact State.drive_display_of_same rfl (by rw [hu.pins, h]; rfl) rfl
    · rw [← hu.display]
      obtain ⟨h1, h2, h3⟩ := h
      exact State.drive_display_start _ _ (by rw [hu.pins]; exact h1) (by rw [hu.pins]; exact h1)
        ((State.dioLine_out (by rw [hu.pins]; exact h2)).trans (by rw [hu.pins]; exact h3))
        (by rw [hu.pins]; exact h2) hb
    · rw [← hu.display]
      exact State.drive_display_stop _ _ (by rw [hu.pins]; exact h) (by rw [hu.pins]; exact h)
        ((State.dioLine_out (by rw [hu.pins]; exact hd)).trans (by rw [hu.pins]; exact ho))
        (by rw [hu.pins]; exact hd) hb (by rw [hu.display]; exact hi) (by rw [hu.display]; exact hn)
        (by rw [hu.display, hu.cfg]; exact hp)

/-- A delay on the bus. -/
theorem runs_busDelay (k : DelayKind) :
    Runs (delay k) (fun s _ t => Drove s.pins (.delay k) s t ∧ t.leds = s.leds ∧ t.display = s.display) :=
  (runs_delay_marker k).mono fun _ _ _ ⟨h, hd, hl⟩ => ⟨h, hl, hd⟩

/-! ## The parts of a transaction -/

/-- A part of a transaction: its events, the pins it leaves, the working registers it leaves, its
micro-steps. -/
structure Part (es : List TraceEvent) (p : Pins) (n : Nat) (s t : State) : Prop where
  still : Still s t
  leds : t.leds = s.leds
  pins : t.pins = p
  trace : t.trace = es.reverse ++ s.trace
  micro : t.micro = s.micro + n

theorem Drove.part {p : Pins} {e : TraceEvent} {s t : State} (h : Drove p e s t) (hl : t.leds = s.leds) :
    Part [e] p 1 s t := ⟨h.still, hl, h.pins, h.trace, h.micro⟩

theorem Part.trans {es es' : List TraceEvent} {p p' : Pins} {m n : Nat} {s t u : State} (h : Part es p m s t)
    (g : Part es' p' n t u) : Part (es ++ es') p' (m + n) s u where
  still := h.still.trans g.still
  leds := g.leds.trans h.leds
  pins := g.pins
  trace := by rw [g.trace, h.trace, List.reverse_append, List.append_assoc]
  micro := by rw [g.micro, h.micro]; omega

theorem runs_twStart :
    Runs twStart (fun s _ t => Part startEvents { s.pins with dclk := true, dioOut := false } 5 s t ∧
      t.work = s.work ∧ BusStill s t ∧ (DisplayBusIdle s.pins → t.display = s.display.start)) :=
  (Runs.bind (runs_dio true) fun _ => Runs.bind runs_dclk_high fun _ => Runs.bind (runs_busDelay _) fun _ =>
    Runs.bind (runs_dio false) fun _ => runs_busDelay _).mono fun s _ t h => by
    obtain ⟨_, s1, ⟨d1, l1, -, e1, -⟩, _, s2, ⟨d2, l2, -, e2⟩, _, s3, ⟨d3, l3, e3⟩, _, s4,
      ⟨d4, l4, -, -, e4, -⟩, d5, l5, e5⟩ := h
    have hp : s4.pins = { s.pins with dclk := true, dioOut := false } := by rw [d4.pins, d3.pins, d2.pins, d1.pins]
    refine ⟨hp ▸ ((((d1.part l1).trans (d2.part l2)).trans (d3.part l3)).trans (d4.part l4)).trans (d5.part l5),
      by rw [d5.work, d4.work, d3.work, d2.work, d1.work],
      (((d1.bus.trans d2.bus).trans d3.bus).trans d4.bus).trans d5.bus, fun hi => ?_⟩
    obtain ⟨h1, h2, h3⟩ := hi
    rw [e5, e4 (by rw [d3.pins, d2.pins, d1.pins]; exact ⟨rfl, h2, rfl⟩) rfl, e3, e2 (by rw [d1.pins]; exact h1), e1 h3]

theorem runs_twBit (b : Bool) :
    Runs (twBit b) (fun s _ t => Part (bitEvents b) { s.pins with dclk := true, dioOut := b } 5 s t ∧
      t.work = s.work ∧ BusStill s t ∧ (s.pins.dioDir = .out → t.display = s.display.slot b)) :=
  (Runs.bind runs_dclk_low fun _ => Runs.bind (runs_dio b) fun _ => Runs.bind (runs_busDelay _) fun _ =>
    Runs.bind runs_dclk_high fun _ => runs_busDelay _).mono fun s _ t h => by
    obtain ⟨_, s1, ⟨d1, l1, e1⟩, _, s2, ⟨d2, l2, e2, -⟩, _, s3, ⟨d3, l3, e3⟩, _, s4,
      ⟨d4, l4, e4, -⟩, d5, l5, e5⟩ := h
    have hp : s4.pins = { s.pins with dclk := true, dioOut := b } := by rw [d4.pins, d3.pins, d2.pins, d1.pins]
    have hp3 : s3.pins = { s.pins with dclk := false, dioOut := b } := by rw [d3.pins, d2.pins, d1.pins]
    refine ⟨hp ▸ ((((d1.part l1).trans (d2.part l2)).trans (d3.part l3)).trans (d4.part l4)).trans (d5.part l5),
      by rw [d5.work, d4.work, d3.work, d2.work, d1.work],
      (((d1.bus.trans d2.bus).trans d3.bus).trans d4.bus).trans d5.bus, fun hd => ?_⟩
    rw [e5, e4 (by rw [hp3]), e3, e2 (by rw [d1.pins]), e1, State.dioLine_out (by rw [hp3]; exact hd), hp3]

/-- The read of DIO: ACKV takes the line's level. -/
theorem runs_sampleAck :
    Runs sampleAck (fun s _ t => Part [.read s.dioLine] s.pins 1 s t ∧ BusStill s t ∧ t.display = s.display ∧
      t.work = { s.work with ackv := s.dioLine }) :=
  (Runs.act (f := fun s => (s.addTrace (.read s.dioLine)).setWork { s.work with ackv := s.dioLine })
    fun _ => rfl).mono fun s _ t ⟨u, hu, hm, ht⟩ => by
    subst ht
    refine ⟨⟨hu.still.trans (by constructor <;> rfl), hu.leds, hu.pins, ?_, hm⟩,
      hu.busStill.trans (by constructor <;> rfl), hu.display, ?_⟩
    · show TraceEvent.read u.dioLine :: u.trace = _
      rw [undisturbed_dioLine hu, hu.trace]
      rfl
    · show { u.work with ackv := u.dioLine } = _
      rw [undisturbed_dioLine hu, hu.work]

theorem runs_twAck :
    Runs twAck (fun s a t => Part (ackEvents (ackAt s 0)) { s.pins with dclk := false, dioDir := .out } 6 s t ∧
      t.work = { s.work with ackv := ackAt s 0 } ∧ Acked 1 s t ∧ a = ackAt s 0 ∧
      t.display = s.display.slot (ackAt s 0)) :=
  (Runs.bind runs_dclk_low fun _ => Runs.bind (runs_dirWrite_inPullup.and (runs_dirWrite .inPullup)) fun _ =>
    Runs.bind runs_dclk_high fun _ =>
    Runs.bind runs_sampleAck fun _ => Runs.bind runs_dclk_low fun _ =>
    Runs.bind (runs_dirWrite_out.and (runs_dirWrite .out)) fun _ =>
    Runs.query _).mono fun s a t h => by
    obtain ⟨_, s1, ⟨d1, l1, e1⟩, _, s2, ⟨⟨i2, w2, p2, t2, l2, x2, a2, m2⟩, u2, hu2, -, hs2⟩, _, s3,
      ⟨d3, l3, e3, -⟩, _, s4, ⟨q4, b4, e4, w4⟩, _, s5, ⟨d5, l5, e5⟩, _, s6, ⟨d6, u6, hu6, -, hs6⟩, ha, rfl⟩ := h
    have hx : ackAt s1 0 = ackAt s 0 := by rw [d1.bus.acked.ackAt]
    have q2 : Part [.dir .inPullup] { s1.pins with dioDir := .inPullup } 1 s1 s2 := ⟨i2, l2, p2, t2, m2⟩
    have hp3 : s3.pins = { s.pins with dclk := true, dioDir := .inPullup } := by rw [d3.pins, p2, d1.pins]
    have hline : s3.dioLine = ackAt s 0 := by
      rw [State.dioLine_inPullup (by rw [hp3]), d3.bus.dioExt, x2, hx]
    have l6 : t.leds = s5.leds := by
      rw [hs6, ← hu6.leds]
      exact State.drive_leds_of_same rfl rfl
    have hp5 : s5.pins = { s.pins with dclk := false, dioDir := .inPullup } := by rw [d5.pins, q4.pins, hp3]
    have hdisp2 : s2.display = s1.display := by
      rw [hs2, ← hu2.display]
      unfold State.setDir State.senseDisplay
      have : u2.pins.dclk = false := by rw [hu2.pins, d1.pins]
      simp [this]
    have hdisp6 : t.display = s5.display := by
      rw [hs6, ← hu6.display]
      exact State.drive_display_low _ _ (by show u6.pins.dclk = false; rw [hu6.pins, d5.pins])
    have hpt : t.pins = { s.pins with dclk := false, dioDir := .out } := by rw [d6.pins, hp5]
    refine ⟨?_, ?_, ?_, ?_, ?_⟩
    · have := ((((( d1.part l1).trans q2).trans (d3.part l3)).trans q4).trans (d5.part l5)).trans (d6.part l6)
      rw [hline, ← d6.pins, hpt] at this
      exact this
    · rw [d6.work, d5.work, w4, hline, d3.work, w2, d1.work]
    · exact (((((d1.bus.acked).trans a2).trans d3.bus.acked).trans b4.acked).trans d5.bus.acked).trans d6.bus.acked
    · rw [ha, d6.work, d5.work, w4, hline]
    · have hl2 : s2.dioLine = ackAt s 0 := by
        rw [State.dioLine_inPullup (by rw [p2]), x2, hx]
      rw [hdisp6, e5, e4, e3 (by rw [p2, d1.pins]), hl2, hdisp2, e1]

theorem runs_twStop :
    Runs twStop (fun s _ t => Part stopEvents { s.pins with dclk := true, dioOut := true } 7 s t ∧
      t.work = s.work ∧ BusStill s t ∧
      (∀ q, s.pins.dioDir = .out → s.display.inTxn = true → s.display.nbits.val < 8 → s.display.nack = false →
        panelEffect s.cfg s.display.bytes s.display.panel = some q →
        t.display = { s.display.clockRise false with inTxn := false, panel := q })) :=
  (Runs.bind runs_dclk_low fun _ => Runs.bind (runs_dio false) fun _ => Runs.bind (runs_busDelay _) fun _ =>
    Runs.bind runs_dclk_high fun _ => Runs.bind (runs_busDelay _) fun _ => Runs.bind (runs_dio true) fun _ =>
    runs_busDelay _).mono fun s _ t h => by
    obtain ⟨_, s1, ⟨d1, l1, e1⟩, _, s2, ⟨d2, l2, e2, -⟩, _, s3, ⟨d3, l3, e3⟩, _, s4, ⟨d4, l4, e4, -⟩, _, s5,
      ⟨d5, l5, e5⟩, _, s6, ⟨d6, l6, -, -, -, e6⟩, d7, l7, e7⟩ := h
    have hp3 : s3.pins = { s.pins with dclk := false, dioOut := false } := by rw [d3.pins, d2.pins, d1.pins]
    have hp5 : s5.pins = { s.pins with dclk := true, dioOut := false } := by rw [d5.pins, d4.pins, hp3]
    have hp6 : s6.pins = { s.pins with dclk := true, dioOut := true } := by rw [d6.pins, hp5]
    refine ⟨hp6 ▸ ((((((d1.part l1).trans (d2.part l2)).trans (d3.part l3)).trans (d4.part l4)).trans
      (d5.part l5)).trans (d6.part l6)).trans (d7.part l7),
      by rw [d7.work, d6.work, d5.work, d4.work, d3.work, d2.work, d1.work],
      (((((d1.bus.trans d2.bus).trans d3.bus).trans d4.bus).trans d5.bus).trans d6.bus).trans d7.bus,
      fun q hd hi hb hn hq => ?_⟩
    have h3 : s3.display = s.display := by rw [e3, e2 (by rw [d1.pins]), e1]
    have h5 : s5.display = s.display.clockRise false := by
      rw [e5, e4 (by rw [hp3]), h3, State.dioLine_out (by rw [hp3]; exact hd), hp3]
      unfold Display.slot
      rw [hi]
      rfl
    have hc : s.display.clockRise false =
        { s.display with cur := withBit s.display.cur s.display.nbits.val false, nbits := s.display.nbits + 1 } := by
      unfold Display.clockRise
      rw [if_pos hb]
    have hcfg : s5.cfg = s.cfg := by
      rw [d5.still.cfg, d4.still.cfg, d3.still.cfg, d2.still.cfg, d1.still.cfg]
    rw [e7, e6 q (by rw [hp5]) (by rw [hp5]; exact hd) (by rw [hp5]) rfl (by rw [h5, hc]; exact hi)
      (by rw [h5, hc]; exact hn) (by rw [h5, hc, hcfg]; exact hq), h5]

end Sys2Proof.Machine
end

