-- ==== Sys2Proof/Laws/Shift.lean ====
section
/-! SUPPORT. What the operations of the shift bus do, and what the external registers hold after them. -/

namespace Sys2Proof.Machine

namespace State

theorem senseLeds_leds (clk latch : Bool) (s : State) :
    (s.senseLeds clk latch).leds =
      if !clk && s.pins.sclk then s.leds.clockRise s.pins.sdat
      else if !latch && s.pins.slat then s.leds.latchRise else s.leds := by
  unfold senseLeds
  split
  · rfl
  · split <;> rfl

/-- The LED bank after a change of pins. -/
theorem drive_leds (p : Pins) (e : TraceEvent) (s : State) :
    (s.drive p e).leds =
      if !s.pins.sclk && p.sclk then s.leds.clockRise p.sdat
      else if !s.pins.slat && p.slat then s.leds.latchRise
      else s.leds := by
  have g := senseDisplay_same s.pins.dclk s.dioLine ((s.setPins p).addTrace e)
  unfold drive
  rw [senseLeds_leds, g.pins, g.leds]
  rfl

end State

/-- A part of a shift frame: its events, the pins it leaves, its micro-steps. -/
structure ShiftPart (es : List TraceEvent) (p : Pins) (n : Nat) (s t : State) : Prop where
  still : Still s t
  display : t.display = s.display
  bus : BusStill s t
  pins : t.pins = p
  trace : t.trace = es.reverse ++ s.trace
  micro : t.micro = s.micro + n

theorem ShiftPart.trans {es es' : List TraceEvent} {p p' : Pins} {m n : Nat} {s t u : State}
    (h : ShiftPart es p m s t) (g : ShiftPart es' p' n t u) : ShiftPart (es ++ es') p' (m + n) s u where
  still := h.still.trans g.still
  display := g.display.trans h.display
  bus := h.bus.trans g.bus
  pins := g.pins
  trace := by rw [g.trace, h.trace, List.reverse_append, List.append_assoc]
  micro := by rw [g.micro, h.micro]; omega

/-- A write of a pin of the shift bus. -/
theorem runs_shiftPin (p : Pin) (v : Bool) (hp : p = .sdat ∨ p = .sclk ∨ p = .slat) :
    Runs (pinWrite p v) (fun s _ t => ShiftPart [.write p v] (s.pins.put p v) 1 s t ∧ t.work = s.work ∧
      t.leds = (if !s.pins.sclk && (s.pins.put p v).sclk then s.leds.clockRise (s.pins.put p v).sdat
        else if !s.pins.slat && (s.pins.put p v).slat then s.leds.latchRise else s.leds)) :=
  (runs_pinWrite p v).mono fun s _ t ⟨u, hu, hm, ht⟩ => by
    have d := drove_of_undisturbed (p := u.pins.put p v) (e := .write p v) hu hm
    subst ht
    refine ⟨⟨d.still, ?_, d.bus, ?_, d.trace, d.micro⟩, d.work, ?_⟩
    · rw [← hu.display]
      rcases hp with rfl | rfl | rfl <;> exact State.drive_display_of_same rfl rfl rfl
    · rw [← hu.pins]; exact d.pins
    · rw [← hu.leds, ← hu.pins]; exact State.drive_leds _ _ _

theorem runs_srBit (b : Bool) :
    Runs (srBit b) (fun s _ t => ShiftPart (shiftEvents b) { s.pins with sdat := b, sclk := false } 3 s t ∧
      t.work = s.work ∧ (s.pins.sclk = false → t.leds = s.leds.clockRise b)) :=
  (Runs.bind (runs_shiftPin .sdat b (.inl rfl)) fun _ => Runs.bind (runs_shiftPin .sclk true (.inr (.inl rfl))) fun _ =>
    runs_shiftPin .sclk false (.inr (.inl rfl))).mono fun s _ t h => by
    obtain ⟨_, s1, ⟨q1, w1, l1⟩, _, s2, ⟨q2, w2, l2⟩, q3, w3, l3⟩ := h
    have p1 := q1.pins
    have p2 := q2.pins
    rw [p1] at p2 l2 q2
    rw [p2] at l3 q3
    refine ⟨(q1.trans q2).trans q3, by rw [w3, w2, w1], fun hc => ?_⟩
    rw [l3, l2, l1]
    simp [Pins.put, hc]

theorem runs_srLatch :
    Runs srLatch (fun s _ t => ShiftPart [.write .slat true, .write .slat false] { s.pins with slat := false } 2 s t ∧
      t.work = s.work ∧ (s.pins.slat = false → t.leds = s.leds.latchRise)) :=
  (Runs.bind (runs_shiftPin .slat true (.inr (.inr rfl))) fun _ =>
    runs_shiftPin .slat false (.inr (.inr rfl))).mono fun s _ t h => by
    obtain ⟨_, s1, ⟨q1, w1, l1⟩, q2, w2, l2⟩ := h
    rw [q1.pins] at q2 l2
    refine ⟨q1.trans q2, by rw [w2, w1], fun hc => ?_⟩
    rw [l2, l1]
    simp [Pins.put, hc]

theorem runs_putWork_shift (f : Work → Work) :
    Runs (putWork f) (fun s _ t => ShiftPart [] s.pins 1 s t ∧ t.work = f s.work ∧ t.leds = s.leds) :=
  (runs_putWork_silent f).mono fun _ _ _ ⟨hs, hq, hw, hm⟩ =>
    ⟨⟨hs, hq.display, hq.bus, hq.pins, hq.trace, hm⟩, hw, hq.leds⟩

/-- The external register after the shifts of a byte's bits, `left` of them, high bit first. -/
def Leds.shifts (p : Byte) (l : Leds) : Nat → Leds
  | 0 => l
  | left + 1 => Leds.shifts (p <<< 1) (l.clockRise (p.getLsbD 7)) left

theorem shifts_store (p : Byte) (l : Leds) : ∀ n, (l.shifts p n).store = l.store := by
  intro n
  induction n generalizing p l with
  | zero => rfl
  | succ n ih => exact ih _ _

/-- A shift: the new bit enters at bit 0, the older ones move up. -/
theorem clockRise_bit (b : Bool) (l : Leds) {i : Nat} (hi : i < 8) :
    (l.clockRise b).shift.getLsbD i = if i = 0 then b else l.shift.getLsbD (i - 1) := by
  unfold Leds.clockRise
  rw [show ((l.shift.setWidth 7 : BitVec 7) ++ BitVec.ofBool b).getLsbD i = _ from BitVec.getLsbD_append ..]
  by_cases h : i = 0
  · subst h
    cases b <;> rfl
  · rw [if_neg (by omega), if_neg h, BitVec.getLsbD_setWidth]
    simp only [show i - 1 < 7 by omega, decide_true, Bool.true_and]

/-- After n shifts of a byte, bit i is the byte's bit 8 - n + i. -/
theorem shifts_bit : ∀ (n : Nat) (p : Byte) (l : Leds) (i : Nat), i < 8 → n ≤ 8 →
    (l.shifts p n).shift.getLsbD i = if i < n then p.getLsbD (8 - n + i) else l.shift.getLsbD (i - n)
  | 0, _, _, _, _, _ => rfl
  | n + 1, p, l, i, hi, hn => by
    rw [Leds.shifts, shifts_bit n _ _ i hi (by omega)]
    by_cases h : i < n
    · rw [if_pos h, if_pos (by omega), BitVec.getLsbD_shiftLeft]
      simp only [show 8 - n + i < 8 by omega, show ¬ 8 - n + i < 1 by omega, decide_true, decide_false, Bool.not_false,
        Bool.true_and]
      congr 1
      omega
    · rw [if_neg h, clockRise_bit _ _ (by omega)]
      by_cases h' : i = n
      · subst h'
        rw [if_pos (by omega), if_pos (by omega)]
        congr 1
        omega
      · rw [if_neg (by omega), if_neg (by omega)]
        congr 1

theorem shifts_eight (p : Byte) (l : Leds) : (l.shifts p 8).shift = p := by
  apply BitVec.eq_of_getLsbD_eq
  intro i hi
  rw [shifts_bit 8 p l i hi (le_refl 8), if_pos hi]
  congr 1
  omega

theorem runs_srBits : ∀ left, left ≤ 8 →
    Runs (srBits left) (fun s _ t =>
      ShiftPart ((List.range left).flatMap fun k => shiftEvents (s.work.sh.getLsbD (7 - k)))
        { s.pins with
          sclk := if left = 0 then s.pins.sclk else false
          sdat := if left = 0 then s.pins.sdat else s.work.sh.getLsbD (8 - left) } (5 * left) s t ∧
      t.work = { s.work with sh := s.work.sh <<< left, bi := if left = 0 then s.work.bi else 7 } ∧
      (s.pins.sclk = false → t.leds = s.leds.shifts s.work.sh left))
  | 0, _ => (Runs.pure ()).mono fun s _ t ⟨_, ht⟩ => by
    subst ht
    refine ⟨⟨Still.refl t, rfl, BusStill.refl t, ?_, rfl, rfl⟩, ?_, fun _ => rfl⟩ <;> simp
  | left + 1, hle =>
    (Runs.bind (runs_putWork_shift _) fun _ => Runs.bind (Runs.query _) fun b => Runs.bind (runs_srBit b) fun _ =>
      Runs.bind (runs_putWork_shift _) fun _ => runs_srBits left (by omega)).mono fun s _ t h => by
    obtain ⟨_, s1, ⟨q1, w1, l1⟩, b, _, ⟨hb, rfl⟩, _, s3, ⟨q3, w3, l3⟩, _, s4, ⟨q4, w4, l4⟩, q5, w5, l5⟩ := h
    have hb' : b = s.work.sh.getLsbD 7 := by rw [hb, w1]
    have w4' : s4.work = { s.work with sh := s.work.sh <<< 1, bi := BitVec.ofNat 4 (7 - left) } := by
      rw [w4, w3, w1]
    have p4 : s4.pins = { s.pins with sdat := s.work.sh.getLsbD 7, sclk := false } := by
      rw [q4.pins, q3.pins, q1.pins, hb']
    refine ⟨?_, ?_, fun hc => ?_⟩
    · have := (((q1.trans q3).trans q4).trans q5)
      rw [w4', p4] at this
      refine ⟨this.still, this.display, this.bus, ?_, ?_, by rw [this.micro]; omega⟩
      · rw [this.pins]
        by_cases hl : left = 0
        · simp [hl]
        · simp only [hl, if_false, if_neg (Nat.succ_ne_zero left)]
          rw [show (s.work.sh <<< 1).getLsbD (8 - left) = s.work.sh.getLsbD (8 - (left + 1)) by
            rw [BitVec.getLsbD_shiftLeft]
            have h1 : 8 - left < 8 := by omega
            have h2 : ¬ (8 - left < 1) := by omega
            simp [h1, h2]
            congr 1
            omega]
      · rw [this.trace, List.range_succ_eq_map, List.flatMap_cons, List.flatMap_map, hb']
        have : ∀ k ∈ List.range left, shiftEvents ((s.work.sh <<< 1).getLsbD (7 - k)) =
            shiftEvents (s.work.sh.getLsbD (7 - (k + 1))) := by
          intro k hk
          have hk := List.mem_range.1 hk
          congr 1
          rw [BitVec.getLsbD_shiftLeft]
          have h1 : 7 - k < 8 := by omega
          have h2 : ¬ (7 - k < 1) := by omega
          simp [h1, h2]
          congr 1
          omega
        simp only [List.nil_append, List.append_nil, Nat.sub_zero]
        rw [List.flatMap_congr this]
    · rw [w5, w4']
      by_cases hl : left = 0
      · subst hl; simp
      · simp [hl, ← BitVec.shiftLeft_add, Nat.add_comm]
    · rw [l5 (by rw [p4]), l4, l3 (by rw [q1.pins]; exact hc), l1, w4', hb']
      rfl

theorem runs_sendPattern (p : Byte) :
    Runs (sendPattern p) (fun s _ t =>
      ShiftPart (patternEvents p) { s.pins with sdat := p.getLsbD 0, sclk := false, slat := false } 44 s t ∧
      t.work = { s.work with sh := 0, bi := 7 } ∧ (s.pins.sclk = false → t.leds = ⟨p, p⟩)) :=
  (Runs.bind (runs_shiftPin .slat false (.inr (.inr rfl))) fun _ => Runs.bind (runs_putWork_shift _) fun _ =>
    Runs.bind (runs_srBits 8 (le_refl 8)) fun _ => runs_srLatch).mono fun s _ t h => by
    obtain ⟨_, s1, ⟨q1, w1, l1⟩, _, s2, ⟨q2, w2, l2⟩, _, s3, ⟨q3, w3, l3⟩, q4, w4, l4⟩ := h
    have hw2 : s2.work.sh = p := by rw [w2]
    have p3 : s3.pins = { s.pins with sdat := p.getLsbD 0, sclk := false, slat := false } := by
      rw [q3.pins, hw2, q2.pins, q1.pins]
      simp [Pins.put]
    have hw3 : s3.work = { s.work with sh := 0, bi := 7 } := by
      rw [w3, w2, w1]
      simp [BitVec.shiftLeft_eq_zero]
    refine ⟨?_, by rw [w4, hw3], fun hc => ?_⟩
    · have := ((q1.trans q2).trans q3).trans q4
      refine ⟨this.still, this.display, this.bus, by rw [q4.pins, p3], ?_, this.micro⟩
      rw [this.trace, hw2]
      simp [patternEvents]
    · rw [l4 (by rw [p3]), l3 (by rw [q2.pins, q1.pins]; exact hc), hw2]
      unfold Leds.latchRise
      have := shifts_eight p s2.leds
      cases hh : s2.leds.shifts p 8
      rw [hh] at this
      simp_all

end Sys2Proof.Machine
end

