-- ==== Sys2Proof/Laws/Range.lean ====
section
/-! SUPPORT. What the range sensor's operations do when no RESET is to come, whatever the counter and ECHO
do. -/

namespace Sys2Proof.Machine

/-- Everything but the working registers is as an undisturbed window leaves it. -/
def ButWork (s t : State) : Prop := Undisturbed s (t.setWork s.work)

theorem Undisturbed.butWork {s t : State} (h : Undisturbed s t) : ButWork s t := by
  constructor <;> first | rfl | exact h.pins | exact h.ctrl | exact h.seq | exact h.display | exact h.leds | exact h.trace | exact h.result | exact h.script | exact h.cfg | exact h.edge | exact h.dioExt | exact h.adc | exact h.ack | exact h.resets | exact h.sample | exact h.ackCount | exact h.resetCount | exact h.panelCount | exact h.width

theorem ButWork.trans {s t u : State} (h : ButWork s t) (g : ButWork t u) : ButWork s u := by
  constructor
  · exact g.pins.trans h.pins
  · exact g.ctrl.trans h.ctrl
  · rfl
  · exact g.seq.trans h.seq
  · exact g.display.trans h.display
  · exact g.leds.trans h.leds
  · exact g.trace.trans h.trace
  · exact g.result.trans h.result
  · exact g.script.trans h.script
  · exact g.cfg.trans h.cfg
  · exact g.edge.trans h.edge
  · exact g.dioExt.trans h.dioExt
  · exact g.adc.trans h.adc
  · exact g.ack.trans h.ack
  · exact g.resets.trans h.resets
  · exact g.sample.trans h.sample
  · exact g.ackCount.trans h.ackCount
  · exact g.resetCount.trans h.resetCount
  · exact g.panelCount.trans h.panelCount
  · exact fun x => h.cfg ▸ g.width (h.cfg ▸ h.width x)

/-- A write of a working register and its window. -/
theorem runs_workAct (f : State → Work) :
    Runs (act fun s => s.setWork (f s)) (fun s _ t => ∃ u, Undisturbed s u ∧ t = u.setWork (f u) ∧
      ButWork s t ∧ t.micro = s.micro + 1) :=
  (Runs.act (f := fun s => s.setWork (f s)) fun _ => rfl).mono fun s _ t ⟨u, hu, hm, ht⟩ => by
    subst ht
    exact ⟨u, hu, rfl, hu.butWork, hm⟩

/-- A wait writes POLLN alone. -/
def Waited (s t : State) : Prop := ButWork s t ∧ t.work = { s.work with polln := t.work.polln }

theorem Waited.trans {s t u : State} (h : Waited s t) (g : Waited t u) : Waited s u :=
  ⟨h.1.trans g.1, by rw [g.2, h.2]⟩

theorem Undisturbed.waited {s t : State} (h : Undisturbed s t) : Waited s t := ⟨h.butWork, by rw [h.work]⟩

theorem Waited.refl (s : State) : Waited s s := (Undisturbed.refl s).waited

theorem runs_putPolln (f : State → Nat) :
    Runs (act fun s => s.setWork { s.work with polln := f s }) (fun s _ t => Waited s t) :=
  (runs_workAct fun s => { s.work with polln := f s }).mono fun s _ t ⟨u, hu, ht, hb, _⟩ => by
    subst ht
    exact ⟨hb, by simp [hu.work]⟩

theorem runs_pollOnce (timeout : Nat) {again : Op WaitResult} (h : Runs again fun s _ t => Waited s t) :
    Runs (pollOnce timeout again) (fun s _ t => Waited s t) := by
  refine (Runs.bind (Runs.look _) fun f => Runs.bind runs_control fun _ => (?_ : Runs _ fun s _ t => Waited s t)).mono
    fun s _ t ⟨_, s1, ⟨hu, _⟩, _, s2, ⟨hv, _⟩, hw⟩ => (hu.waited.trans hv.waited).trans hw
  cases f
  · rw [if_neg Bool.false_ne_true]
    refine (Runs.bind (runs_putPolln _ : Runs countPoll _) fun _ => Runs.bind (Runs.look _) fun n =>
      (?_ : Runs _ fun s _ t => Waited s t)).mono ?_
    · by_cases hn : timeout ≤ n
      · simp only [hn, if_true]
        exact (Runs.pure _).mono fun s _ t ⟨_, ht⟩ => ht ▸ Waited.refl _
      · simp only [hn, if_false]
        exact (Runs.bind runs_control fun _ => h).mono fun s _ t ⟨_, s1, ⟨hu, _⟩, hw⟩ => hu.waited.trans hw
    · rintro s a t ⟨_, s1, h1, n, s2, ⟨hu, _⟩, h2⟩
      exact (h1.trans hu.waited).trans h2
  · exact (Runs.pure _).mono fun s _ t ⟨_, ht⟩ => ht ▸ Waited.refl _

theorem runs_pollLoop (timeout : Nat) : ∀ fuel, Runs (pollLoop timeout fuel) (fun s _ t => Waited s t)
  | 0 => runs_pollOnce timeout ((Runs.pure _).mono fun _ _ _ ⟨_, ht⟩ => ht ▸ Waited.refl _)
  | fuel + 1 => runs_pollOnce timeout (runs_pollLoop timeout fuel)

theorem runs_continueWait (timeout : Nat) : Runs (continueWait timeout) (fun s _ t => Waited s t) :=
  (Runs.bind (Runs.query _) fun budget => runs_pollLoop budget _).mono fun _ _ _ ⟨_, _, ⟨_, h⟩, hw⟩ => h ▸ hw

theorem runs_waitCapture (timeout : Nat) : Runs (waitCapture timeout) (fun s _ t => Waited s t) :=
  (Runs.bind (runs_putPolln fun _ => 0) fun _ => runs_continueWait timeout).mono
    fun _ _ _ ⟨_, _, h1, h2⟩ => h1.trans h2

theorem runs_secondWait (timeout : Nat) : Runs (secondWait timeout) (fun s _ t => Waited s t) := by
  refine (Runs.bind (Runs.query _) fun b => (?_ : Runs _ fun s _ t => Waited s t)).mono
    fun s _ t ⟨_, _, ⟨_, h⟩, hw⟩ => h ▸ hw
  cases b
  · exact runs_continueWait timeout
  · exact runs_waitCapture timeout

/-- What a measurement leaves alone besides EDGE, TRIG and its own working registers. -/
structure RangeStill (s t : State) : Prop where
  ctrl : t.ctrl = s.ctrl
  seq : t.seq = s.seq
  result : t.result = s.result
  script : t.script = s.script
  cfg : t.cfg = s.cfg
  display : t.display = s.display
  leds : t.leds = s.leds
  bus : BusStill s t
  adc : t.env.adc = s.env.adc
  sample : t.env.count.sample = s.env.count.sample
  resets : t.env.resets = s.env.resets
  resetCount : t.env.count.reset = s.env.count.reset
  work : t.work = { s.work with rise := t.work.rise, fall := t.work.fall, polln := t.work.polln }

theorem RangeStill.trans {s t u : State} (h : RangeStill s t) (g : RangeStill t u) : RangeStill s u where
  ctrl := g.ctrl.trans h.ctrl
  seq := g.seq.trans h.seq
  result := g.result.trans h.result
  script := g.script.trans h.script
  cfg := g.cfg.trans h.cfg
  display := g.display.trans h.display
  leds := g.leds.trans h.leds
  bus := h.bus.trans g.bus
  adc := g.adc.trans h.adc
  sample := g.sample.trans h.sample
  resets := g.resets.trans h.resets
  resetCount := g.resetCount.trans h.resetCount
  work := by rw [g.work, h.work]

theorem ButWork.rangeStill {s t : State} (h : ButWork s t)
    (hw : t.work = { s.work with rise := t.work.rise, fall := t.work.fall, polln := t.work.polln }) :
    RangeStill s t where
  ctrl := h.ctrl
  seq := h.seq
  result := h.result
  script := h.script
  cfg := h.cfg
  display := h.display
  leds := h.leds
  bus := ⟨h.dioExt, h.ack, h.ackCount⟩
  adc := h.adc
  sample := h.sample
  resets := h.resets
  resetCount := h.resetCount
  work := hw

theorem Waited.rangeStill {s t : State} (h : Waited s t) : RangeStill s t :=
  h.1.rangeStill (by rw [h.2])

theorem Undisturbed.rangeStill {s t : State} (h : Undisturbed s t) : RangeStill s t := h.waited.rangeStill

theorem runs_cfClear_still :
    Runs cfClear (fun s _ t => RangeStill s t ∧ t.capu.edge = s.capu.edge ∧ t.pins = s.pins ∧ t.trace = s.trace) :=
  runs_cfClear.mono fun s _ t ⟨u, hu, _, ht⟩ => by
    subst ht
    exact ⟨hu.rangeStill.trans (by constructor <;> first | rfl | exact ⟨rfl, rfl, rfl⟩), hu.edge, hu.pins, hu.trace⟩

theorem runs_setEdge_still (e : Edge) :
    Runs (setEdge e) (fun s _ t => RangeStill s t ∧ t.capu.edge = e ∧ t.pins = s.pins ∧ t.trace = s.trace) :=
  (runs_setEdge e).mono fun s _ t ⟨u, hu, _, ht⟩ => by
    subst ht
    exact ⟨hu.rangeStill.trans (by constructor <;> first | rfl | exact ⟨rfl, rfl, rfl⟩), rfl, hu.pins, hu.trace⟩

/-- The events of TRIG_PULSE (R120). -/
theorem runs_trigPulse :
    Runs trigPulse (fun s _ t => RangeStill s t ∧ t.capu.edge = s.capu.edge ∧ t.pins = { s.pins with trig := false } ∧
      t.work = s.work ∧ t.micro = s.micro + 3 ∧
      t.trace = [.write .trig false, .delay (.param .trig), .write .trig true] ++ s.trace) := by
  have pin : ∀ v, Runs (pinWrite .trig v) (fun s _ t => Drove { s.pins with trig := v } (.write .trig v) s t ∧
      t.display = s.display ∧ t.leds = s.leds) := fun v =>
    (runs_pinWrite .trig v).mono fun s _ t ⟨u, hu, hm, ht⟩ => by
      subst ht
      refine ⟨by rw [← hu.pins]; exact drove_of_undisturbed hu hm, ?_, ?_⟩
      · rw [← hu.display]; exact State.drive_display_of_same rfl rfl rfl
      · rw [← hu.leds]; exact State.drive_leds_of_same rfl rfl
  refine (Runs.bind (pin true) fun _ => Runs.bind (runs_delay_marker _) fun _ => pin false).mono fun s _ t h => ?_
  obtain ⟨_, s1, ⟨d1, e1, l1⟩, _, s2, ⟨d2, e2, l2⟩, d3, e3, l3⟩ := h
  have hs := (d1.still.trans d2.still).trans d3.still
  have hw : t.work = s.work := by rw [d3.work, d2.work, d1.work]
  exact ⟨⟨hs.ctrl, hs.seq, hs.result, hs.script, hs.cfg, by rw [e3, e2, e1], by rw [l3, l2, l1],
    (d1.bus.trans d2.bus).trans d3.bus, hs.adc, hs.sample, hs.resets, hs.resetCount, by rw [hw]⟩, hs.edge,
    by rw [d3.pins, d2.pins, d1.pins], hw, by rw [d3.micro, d2.micro, d1.micro], by rw [d3.trace, d2.trace, d1.trace]; rfl⟩

theorem runs_measureFall (timeout : Nat) :
    Runs (measureFall timeout) (fun s a t => RangeStill s t ∧ t.capu.edge = .rising ∧ t.pins = s.pins ∧
      t.trace = s.trace ∧ a < 2 ^ s.cfg.cntBits) := by
  have latch : ∀ f : State → Work, (∀ s, (f s) = { s.work with rise := (f s).rise, fall := (f s).fall }) →
      Runs (act fun s => s.setWork (f s)) (fun s _ t => RangeStill s t ∧ t.pins = s.pins ∧ t.trace = s.trace) :=
    fun f hf => (runs_workAct f).mono fun s _ t ⟨u, hu, ht, hb, _⟩ => by
      subst ht
      refine ⟨hb.rangeStill ?_, hb.pins, hb.trace⟩
      rw [State.setWork_work, hf u, hu.work]
  refine (Runs.bind (latch _ fun _ => rfl) fun _ => Runs.bind runs_cfClear_still fun _ =>
    Runs.bind (runs_setEdge_still .falling) fun _ => Runs.bind (runs_secondWait timeout) fun r =>
    (?_ : Runs _ fun s a t => RangeStill s t ∧ t.capu.edge = .rising ∧ t.pins = s.pins ∧ t.trace = s.trace ∧
      a < 2 ^ s.cfg.cntBits)).mono ?_
  · cases r
    · exact (Runs.bind (latch (fun s => { s.work with fall := s.capu.ccr }) fun _ => rfl) fun _ =>
        Runs.bind (runs_setEdge_still .rising) fun _ => Runs.look _).mono fun s _ t h => by
        obtain ⟨_, s1, ⟨h1, p1, t1⟩, _, s2, ⟨h2, e2, p2, t2⟩, hu, _, ha⟩ := h
        have hs := (h1.trans h2).trans hu.rangeStill
        refine ⟨hs, hu.edge.trans e2, by rw [hu.pins, p2, p1], by rw [hu.trace, t2, t1], ?_⟩
        rw [ha, ← hs.cfg]
        exact pulseTicks_lt _ _ _
    · exact (Runs.bind (runs_setEdge_still .rising) fun _ => Runs.pure _).mono fun s _ t h => by
        obtain ⟨_, s1, ⟨h1, e1, p1, t1⟩, rfl, rfl⟩ := h
        exact ⟨h1, e1, p1, t1, Nat.two_pow_pos _⟩
  · rintro s a t ⟨_, s1, ⟨h1, p1, t1⟩, _, s2, ⟨h2, -, p2, t2⟩, _, s3, ⟨h3, -, p3, t3⟩, _, s4, h4, h5, e5, p5, t5, w5⟩
    have p4 : s4.pins = s3.pins := h4.1.pins
    have t4 : s4.trace = s3.trace := h4.1.trace
    have hs := ((h1.trans h2).trans h3).trans h4.rangeStill
    exact ⟨hs.trans h5, e5, by rw [p5, p4, p3, p2, p1], by rw [t5, t4, t3, t2, t1], by rw [← hs.cfg]; exact w5⟩

/-- MEASURE_RAW (R122): its frame, EDGE at the end, its three events, the range of its result. -/
theorem runs_measureRaw (timeout : Nat) :
    Runs (measureRaw timeout) (fun s a t => RangeStill s t ∧ t.capu.edge = .rising ∧
      t.pins = { s.pins with trig := false } ∧
      t.trace = [.write .trig false, .delay (.param .trig), .write .trig true] ++ s.trace ∧
      a < 2 ^ s.cfg.cntBits) := by
  refine (Runs.bind runs_cfClear_still fun _ => Runs.bind (runs_setEdge_still .rising) fun _ =>
    Runs.bind runs_trigPulse fun _ => Runs.bind (runs_waitCapture timeout) fun r =>
    (?_ : Runs _ fun s a t => s.capu.edge = .rising → RangeStill s t ∧ t.capu.edge = .rising ∧ t.pins = s.pins ∧
      t.trace = s.trace ∧ a < 2 ^ s.cfg.cntBits)).mono ?_
  · cases r
    · exact (runs_measureFall timeout).mono fun s _ t h _ => h
    · exact (Runs.pure _).mono fun s _ t ⟨ha, ht⟩ he => by
        subst ht ha
        exact ⟨(Undisturbed.refl _).rangeStill, he, rfl, rfl, Nat.two_pow_pos _⟩
  · rintro s a t ⟨_, s1, ⟨h1, -, p1, t1⟩, _, s2, ⟨h2, e2, p2, t2⟩, _, s3, ⟨h3, e3, p3, -, -, t3⟩, _, s4, h4, h5⟩
    have p4 : s4.pins = s3.pins := h4.1.pins
    have t4 : s4.trace = s3.trace := h4.1.trace
    have e4 : s4.capu.edge = s3.capu.edge := h4.1.edge
    obtain ⟨h5, e5, p5, t5, w5⟩ := h5 (by rw [e4, e3, e2])
    have hs := ((h1.trans h2).trans h3).trans h4.rangeStill
    exact ⟨hs.trans h5, e5, by rw [p5, p4, p3, p2, p1], by rw [t5, t4, t3, t2, t1], by rw [← hs.cfg]; exact w5⟩

end Sys2Proof.Machine
end

