-- ==== Sys2Proof/Laws/Mem.lean ====
section
/-! SUPPORT. The byte memories: read after write, and that every operation keeps the canonical form. -/

namespace Sys2Proof.Machine

namespace Mem

theorem risingFrom_mono {low low' : Nat} (h : low' ≤ low) :
    ∀ {m : Mem}, risingFrom low m = true → risingFrom low' m = true
  | [], _ => rfl
  | (a, b) :: rest, hm => by
    simp only [risingFrom, Bool.and_eq_true, decide_eq_true_eq] at hm ⊢
    exact ⟨⟨h.trans hm.1.1, hm.1.2⟩, hm.2⟩

/-- An address below every listed one is not listed. -/
theorem read_of_lt {low addr : Nat} (h : addr < low) :
    ∀ {m : Mem}, risingFrom low m = true → m.read addr = blank
  | [], _ => rfl
  | (a, b) :: rest, hm => by
    simp only [risingFrom, Bool.and_eq_true, decide_eq_true_eq] at hm
    have : a ≠ addr := by omega
    simp only [read, this, if_false]
    exact read_of_lt (by omega : addr < a + 1) hm.2

/-- The cells of a canonical memory are above its bound. -/
theorem le_of_mem {addr : Nat} {b : Byte} : ∀ {m : Mem} {low : Nat}, risingFrom low m = true → (addr, b) ∈ m → low ≤ addr
  | c :: m, low, h, hm => by
    simp only [risingFrom, Bool.and_eq_true, decide_eq_true_eq] at h
    rcases List.mem_cons.1 hm with rfl | hm
    · exact h.1.1
    · have := le_of_mem h.2 hm
      omega

/-- A listed address reads its byte. -/
theorem read_of_mem {addr : Nat} {b : Byte} : ∀ {m : Mem} {low : Nat}, risingFrom low m = true → (addr, b) ∈ m →
    m.read addr = b
  | c :: m, low, h, hm => by
    simp only [risingFrom, Bool.and_eq_true, decide_eq_true_eq] at h
    rcases List.mem_cons.1 hm with rfl | hm
    · exact if_pos rfl
    · have := le_of_mem h.2 hm
      exact (if_neg (by omega)).trans (read_of_mem h.2 hm)

/-- An address that is not listed reads as the blank. -/
theorem read_of_not_mem {addr : Nat} : ∀ {m : Mem}, (∀ b, (addr, b) ∉ m) → m.read addr = blank
  | [], _ => rfl
  | c :: m, h => by
    refine (if_neg ?_).trans (read_of_not_mem fun b hb => h b (List.mem_cons_of_mem _ hb))
    rintro rfl
    exact h c.2 (List.mem_cons_self ..)

theorem read_cons (addr k : Nat) (b : Byte) (m : Mem) (h : m.read addr = blank) :
    (cons addr b m).read k = if k = addr then b else m.read k := by
  unfold cons
  by_cases hb : b = blank
  · simp only [hb, if_true]
    split
    · next hk => rw [hk, h]
    · rfl
  · simp only [hb, if_false, read]
    by_cases hk : addr = k
    · simp [hk]
    · simp [hk, Ne.symm hk]

theorem risingFrom_cons {low addr : Nat} {b : Byte} {m : Mem} (h : low ≤ addr)
    (hm : risingFrom (addr + 1) m = true) : risingFrom low (cons addr b m) = true := by
  unfold cons
  split
  · exact risingFrom_mono (by omega) hm
  · next hb => simp [risingFrom, hb, h, hm]

theorem risingFrom_write (addr : Nat) (b : Byte) :
    ∀ {low : Nat} {m : Mem}, low ≤ addr → risingFrom low m = true → risingFrom low (write addr b m) = true
  | low, [], h, _ => risingFrom_cons h rfl
  | low, (a, c) :: rest, h, hm => by
    have hm' := hm
    simp only [risingFrom, Bool.and_eq_true, decide_eq_true_eq] at hm'
    unfold write
    split
    · next hlt =>
      refine risingFrom_cons h ?_
      simp only [risingFrom, Bool.and_eq_true, decide_eq_true_eq]
      exact ⟨⟨by omega, hm'.1.2⟩, hm'.2⟩
    · split
      · next _ heq => subst heq; exact risingFrom_cons h hm'.2
      · next h1 h2 =>
        simp only [risingFrom, Bool.and_eq_true, decide_eq_true_eq]
        exact ⟨hm'.1, risingFrom_write addr b (by omega) hm'.2⟩

/-- A write keeps the canonical form. -/
theorem write_wf (addr : Nat) (b : Byte) {m : Mem} (h : m.wf = true) : (write addr b m).wf = true :=
  risingFrom_write addr b (Nat.zero_le _) h

theorem read_write_from (addr k : Nat) (b : Byte) :
    ∀ {low : Nat} {m : Mem}, risingFrom low m = true →
      (write addr b m).read k = if k = addr then b else m.read k
  | low, [], _ => by rw [write, read_cons _ _ _ _ rfl]
  | low, (a, c) :: rest, hm => by
    have hm' := hm
    simp only [risingFrom, Bool.and_eq_true, decide_eq_true_eq] at hm'
    unfold write
    split
    · next hlt =>
      rw [read_cons]
      exact read_of_lt hlt (m := (a, c) :: rest)
        (by simp only [risingFrom, Bool.and_eq_true, decide_eq_true_eq]; exact ⟨⟨le_rfl, hm'.1.2⟩, hm'.2⟩)
    · split
      · next _ heq =>
        subst heq
        rw [read_cons _ _ _ _ (read_of_lt (Nat.lt_succ_self _) hm'.2)]
        by_cases hk : k = addr
        · simp [hk]
        · simp [read, hk, Ne.symm hk]
      · next h1 h2 =>
        simp only [read]
        split
        · next hak => subst hak; simp [Ne.symm h2]
        · exact read_write_from addr k b hm'.2

/-- A read after a write: the byte written at its address, every other address as before. -/
theorem read_write (addr k : Nat) (b : Byte) {m : Mem} (h : m.wf = true) :
    (write addr b m).read k = if k = addr then b else m.read k :=
  read_write_from addr k b h

theorem cons_below {high addr : Nat} {b : Byte} {m : Mem} (h : addr < high) (hm : below high m = true) :
    below high (cons addr b m) = true := by
  unfold cons
  split
  · exact hm
  · simpa [below, h] using hm

/-- A write below a bound keeps the addresses below it. -/
theorem write_below {high addr : Nat} (b : Byte) (h : addr < high) :
    ∀ {m : Mem}, below high m = true → below high (write addr b m) = true
  | [], _ => cons_below h rfl
  | (a, c) :: rest, hm => by
    have hm' : a < high ∧ below high rest = true := by simpa [below] using hm
    unfold write
    split
    · exact cons_below h hm
    · split
      · exact cons_below h hm'.2
      · have := write_below b h hm'.2
        simpa [below, hm'.1] using this

/-- The four digits keep the canonical form and the addresses 0..3. -/
theorem writeDigits_wf (b0 b1 b2 b3 : Byte) {m : Mem} (h : m.wf = true) :
    (writeDigits b0 b1 b2 b3 m).wf = true :=
  write_wf 3 _ (write_wf 2 _ (write_wf 1 _ (write_wf 0 _ h)))

theorem writeDigits_below (b0 b1 b2 b3 : Byte) {m : Mem} (h : m.below 4 = true) :
    (writeDigits b0 b1 b2 b3 m).below 4 = true :=
  write_below _ (by omega) (write_below _ (by omega) (write_below _ (by omega) (write_below _ (by omega) h)))

/-- What the display memory reads as after the four digits. -/
theorem read_writeDigits (b0 b1 b2 b3 : Byte) (k : Nat) {m : Mem} (h : m.wf = true) :
    (writeDigits b0 b1 b2 b3 m).read k =
      if k = 0 then b0 else if k = 1 then b1 else if k = 2 then b2 else if k = 3 then b3 else m.read k := by
  have h0 := write_wf 0 b0 h
  have h1 := write_wf 1 b1 h0
  have h2 := write_wf 2 b2 h1
  rw [writeDigits, read_write 3 k b3 h2, read_write 2 k b2 h1, read_write 1 k b1 h0, read_write 0 k b0 h]
  split_ifs <;> first | rfl | omega

/-- Two canonical memories that read the same are the same list. -/
theorem ext_from :
    ∀ {low : Nat} {m m' : Mem}, risingFrom low m = true → risingFrom low m' = true →
      (∀ k, m.read k = m'.read k) → m = m'
  | _, [], [], _, _, _ => rfl
  | low, [], (a, b) :: rest, _, h', hr => by
    simp only [risingFrom, Bool.and_eq_true, decide_eq_true_eq] at h'
    exact absurd (hr a) (by simp [read]; exact Ne.symm h'.1.2)
  | low, (a, b) :: rest, [], h, _, hr => by
    simp only [risingFrom, Bool.and_eq_true, decide_eq_true_eq] at h
    exact absurd (hr a) (by simp [read]; exact h.1.2)
  | low, (a, b) :: rest, (a', b') :: rest', h, h', hr => by
    have g := h
    have g' := h'
    simp only [risingFrom, Bool.and_eq_true, decide_eq_true_eq] at g g'
    have haa : a = a' := by
      rcases Nat.lt_trichotomy a a' with hlt | heq | hgt
      · have h1 := hr a
        rw [read_of_lt hlt (m := (a', b') :: rest')
          (by simp only [risingFrom, Bool.and_eq_true, decide_eq_true_eq]; exact ⟨⟨le_rfl, g'.1.2⟩, g'.2⟩)] at h1
        exact absurd (by simpa [read] using h1) g.1.2
      · exact heq
      · have h1 := hr a'
        rw [read_of_lt hgt (m := (a, b) :: rest)
          (by simp only [risingFrom, Bool.and_eq_true, decide_eq_true_eq]; exact ⟨⟨le_rfl, g.1.2⟩, g.2⟩)] at h1
        exact absurd (by simpa [read] using h1.symm) g'.1.2
    subst haa
    have hb : b = b' := by simpa [read] using hr a
    subst hb
    congr 1
    refine ext_from g.2 g'.2 fun k => ?_
    have hk := hr k
    simp only [read] at hk
    by_cases hak : a = k
    · subst hak
      rw [read_of_lt (Nat.lt_succ_self a) g.2, read_of_lt (Nat.lt_succ_self a) g'.2]
    · simpa [hak] using hk

end Mem

/-- A panel of any content is canonical. -/
theorem panelOf_wf (d : PanelDraw) : (panelOf d).mem.wf = true := Mem.writeDigits_wf _ _ _ _ rfl

theorem panelOf_below (d : PanelDraw) : (panelOf d).mem.below 4 = true := Mem.writeDigits_below _ _ _ _ rfl

end Sys2Proof.Machine
end

