-- ==== Sys2Proof/Laws/Transaction.lean ====
section
/-! SUPPORT. Bytes, transactions and digit updates on the display bus, and what the display controller holds
after them. -/

namespace Sys2Proof.Machine

theorem Part.nil (s : State) : Part [] s.pins 0 s s := ⟨Still.refl s, rfl, rfl, rfl, rfl⟩

theorem runs_putWork_part (f : Work → Work) :
    Runs (putWork f) (fun s _ t => Part [] s.pins 1 s t ∧ BusStill s t ∧ t.work = f s.work ∧
      t.display = s.display) :=
  (runs_putWork_silent f).mono fun _ _ _ ⟨hs, hq, hw, hm⟩ =>
    ⟨⟨hs, hq.leds, hq.pins, hq.trace, hm⟩, hq.bus, hw, hq.display⟩

/-- The receiver after the data slots of a byte's bits from a given one on. -/
def Display.slots (v : Byte) (d : Display) : Nat → Display
  | 0 => d
  | left + 1 => Display.slots (v >>> 1) (d.slot (v.getLsbD 0)) left

theorem runs_twBits : ∀ left,
    Runs (twBits left) (fun s _ t =>
      Part ((List.range left).flatMap fun k => bitEvents (s.work.sh.getLsbD k))
        { s.pins with
          dclk := if left = 0 then s.pins.dclk else true
          dioOut := if left = 0 then s.pins.dioOut else s.work.sh.getLsbD (left - 1) } (7 * left) s t ∧
      BusStill s t ∧
      t.work = { s.work with sh := s.work.sh >>> left, bi := if left = 0 then s.work.bi else 7 } ∧
      (s.pins.dioDir = .out → t.display = Display.slots s.work.sh s.display left))
  | 0 => (Runs.pure ()).mono fun s _ t ⟨_, ht⟩ => by
    subst ht
    exact ⟨by simpa using Part.nil t, BusStill.refl t, by simp, fun _ => rfl⟩
  | left + 1 =>
    (Runs.bind (runs_putWork_part _) fun _ => Runs.bind (Runs.query _) fun b => Runs.bind (runs_twBit b) fun _ =>
      Runs.bind (runs_putWork_part _) fun _ => runs_twBits left).mono fun s _ t h => by
    obtain ⟨_, s1, ⟨q1, b1, w1, e1⟩, b, _, ⟨hb, rfl⟩, _, s3, ⟨q3, w3, b3, e3⟩, _, s4, ⟨q4, b4, w4, e4⟩, q5, b5, w5,
      e5⟩ := h
    have hb' : b = s.work.sh.getLsbD 0 := by rw [hb, w1]
    have w4' : s4.work = { s.work with sh := s.work.sh >>> 1, bi := BitVec.ofNat 4 (7 - left) } := by
      rw [w4, w3, w1]
    have p4 : s4.pins = { s.pins with dclk := true, dioOut := s.work.sh.getLsbD 0 } := by
      rw [q4.pins, q3.pins, q1.pins, hb']
    refine ⟨?_, (((b1.trans b3).trans b4).trans b5), ?_, fun hd => ?_⟩
    · have := (((q1.trans q3).trans q4).trans q5)
      rw [w4', p4] at this
      constructor
      · exact this.still
      · exact this.leds
      · rw [this.pins]
        by_cases hl : left = 0
        · simp [hl]
        · obtain ⟨m, rfl⟩ := Nat.exists_eq_succ_of_ne_zero hl
          simp [BitVec.getLsbD_ushiftRight, Nat.add_comm]
      · rw [this.trace, List.range_succ_eq_map, List.flatMap_cons, List.flatMap_map, hb']
        simp [BitVec.getLsbD_ushiftRight, Nat.add_comm]
      · rw [this.micro]; omega
    · rw [w5, w4']
      by_cases hl : left = 0
      · subst hl; simp
      · simp [hl, ← BitVec.shiftRight_add, Nat.add_comm]
    · rw [e5 (by rw [p4]; exact hd), e4, e3 (by rw [q1.pins]; exact hd), e1, w4', hb']
      rfl

/-- Eight slots from an empty byte fill it. -/
theorem slots_eight (v : Byte) (d : Display) (hi : d.inTxn = true) (hn : d.nbits = 0) (hc : d.cur = 0) :
    Display.slots v d 8 = { d with nbits := 8, cur := v } := by
  obtain ⟨i, n, c, bs, na, p⟩ := d
  simp only at hi hn hc
  subst hi hn hc
  have key : ∀ v : Byte, withBit (withBit (withBit (withBit (withBit (withBit (withBit (withBit 0 0 (v.getLsbD 0))
      1 ((v >>> 1).getLsbD 0)) 2 ((v >>> 1 >>> 1).getLsbD 0)) 3 ((v >>> 1 >>> 1 >>> 1).getLsbD 0))
      4 ((v >>> 1 >>> 1 >>> 1 >>> 1).getLsbD 0)) 5 ((v >>> 1 >>> 1 >>> 1 >>> 1 >>> 1).getLsbD 0))
      6 ((v >>> 1 >>> 1 >>> 1 >>> 1 >>> 1 >>> 1).getLsbD 0))
      7 ((v >>> 1 >>> 1 >>> 1 >>> 1 >>> 1 >>> 1 >>> 1).getLsbD 0) = v := by decide +kernel
  have hv := key v
  simp only [Display.slots, Display.slot, Display.clockRise, if_true]
  simp only [show ((0 : Fin 9).val < 8) = True by decide, show ((0 + 1 : Fin 9).val < 8) = True by decide,
    show ((0 + 1 + 1 : Fin 9).val < 8) = True by decide, show ((0 + 1 + 1 + 1 : Fin 9).val < 8) = True by decide,
    show ((0 + 1 + 1 + 1 + 1 : Fin 9).val < 8) = True by decide,
    show ((0 + 1 + 1 + 1 + 1 + 1 : Fin 9).val < 8) = True by decide,
    show ((0 + 1 + 1 + 1 + 1 + 1 + 1 : Fin 9).val < 8) = True by decide,
    show ((0 + 1 + 1 + 1 + 1 + 1 + 1 + 1 : Fin 9).val < 8) = True by decide, if_true]
  exact congrArg (fun x => Display.mk true 8 x bs na p) hv

/-- What the receiver makes of a byte with the level of its ACK slot. -/
def Display.takeByte (v : Byte) (level : Bool) (d : Display) : Display :=
  { d with bytes := d.bytes ++ [v], nack := d.nack || level }

/-- Between two bytes of a transaction. -/
structure Display.Ready (d : Display) : Prop where
  inTxn : d.inTxn = true
  nbits : d.nbits = 0
  cur : d.cur = 0

theorem takeByte_ready {d : Display} (h : d.Ready) (v : Byte) (l : Bool) : (d.takeByte v l).Ready :=
  ⟨h.inTxn, h.nbits, h.cur⟩

theorem runs_twByte (v : Byte) :
    Runs (twByte v) (fun s a t => Part (byteEvents v (ackAt s 0))
        { s.pins with dclk := false, dioOut := v.getLsbD 7, dioDir := .out } 63 s t ∧
      t.work = { s.work with sh := 0, bi := 7, ackv := ackAt s 0 } ∧ Acked 1 s t ∧ a = ackAt s 0 ∧
      (s.pins.dioDir = .out → s.display.Ready → t.display = s.display.takeByte v (ackAt s 0))) :=
  (Runs.bind (runs_putWork_part _) fun _ => Runs.bind (runs_twBits 8) fun _ => runs_twAck).mono fun s a t h => by
    obtain ⟨_, s1, ⟨q1, b1, w1, e1⟩, _, s2, ⟨q2, b2, w2, e2⟩, q3, w3, a3, ha, e3⟩ := h
    have hx : ackAt s2 0 = ackAt s 0 := by rw [b2.acked.ackAt, b1.acked.ackAt]
    have hw2 : s2.work = { s.work with sh := 0, bi := 7 } := by
      rw [w2, w1]
      simp [BitVec.ushiftRight_eq_zero]
    refine ⟨?_, ?_, (b1.acked.trans b2.acked).trans a3, ha.trans hx, fun hd hr => ?_⟩
    · have := (q1.trans q2).trans q3
      rw [hx] at this
      constructor
      · exact this.still
      · exact this.leds
      · rw [this.pins, q2.pins, q1.pins, w1]
        simp
      · rw [this.trace, w1]
        simp [byteEvents]
      · exact this.micro
    · rw [w3, hw2, hx]
    · have h2 : s2.display = { s.display with nbits := 8, cur := v } := by
        rw [e2 (by rw [q1.pins]; exact hd), w1, e1]
        exact slots_eight v _ hr.inTxn hr.nbits hr.cur
      rw [e3, h2, hx]
      unfold Display.slot Display.clockRise Display.takeByte
      have hn := hr.nbits
      have hc := hr.cur
      cases hdd : s.display
      rw [hdd] at hn hc hr
      simp only at hn hc
      have hi := hr.inTxn
      simp only at hi
      subst hi hn hc
      rfl

/-- What the receiver makes of the bytes of a transaction with the levels of their ACK slots. -/
def Display.takeBytes : List Byte → List Bool → Display → Display
  | v :: vs, l :: ls, d => Display.takeBytes vs ls (d.takeByte v l)
  | _, _, d => d

theorem takeBytes_ready : ∀ (vs : List Byte) (ls : List Bool) {d : Display}, d.Ready → (d.takeBytes vs ls).Ready
  | [], _, _, h => h
  | _ :: _, [], _, h => h
  | _ :: vs, _ :: ls, _, h => takeBytes_ready vs ls (takeByte_ready h _ _)

theorem takeBytes_eq : ∀ (vs : List Byte) (ls : List Bool) (d : Display), vs.length = ls.length →
    d.takeBytes vs ls = { d with bytes := d.bytes ++ vs, nack := d.nack || ls.any id }
  | [], [], d, _ => by simp [Display.takeBytes]
  | v :: vs, l :: ls, d, h => by
    rw [Display.takeBytes, takeBytes_eq vs ls _ (by simpa using h)]
    simp [Display.takeByte, Bool.or_assoc]

theorem runs_twBytes : ∀ bytes : List Byte,
    Runs (twBytes bytes) (fun s _ t =>
      Part ((bytes.zip (ackLevels s bytes.length)).flatMap fun p => byteEvents p.1 p.2) t.pins
        (63 * bytes.length) s t ∧
      (bytes = [] → t.pins = s.pins) ∧
      (bytes ≠ [] → ∃ o, t.pins = { s.pins with dclk := false, dioOut := o, dioDir := .out }) ∧
      (t.work = if bytes = [] then s.work
        else { s.work with sh := 0, bi := 7, ackv := ackAt s (bytes.length - 1) }) ∧
      Acked bytes.length s t ∧
      (s.pins.dioDir = .out → s.display.Ready →
        t.display = s.display.takeBytes bytes (ackLevels s bytes.length)))
  | [] => (Runs.pure ()).mono fun s _ t ⟨_, ht⟩ => by
    subst ht
    exact ⟨Part.nil t, fun _ => rfl, fun h => absurd rfl h, rfl, ⟨rfl, rfl⟩, fun _ _ => rfl⟩
  | v :: rest =>
    (Runs.bind (runs_twByte v) fun _ => runs_twBytes rest).mono fun s _ t h => by
    obtain ⟨a, s1, ⟨q1, w1, a1, ha, e1⟩, q2, hnil, hne, w2, a2, e2⟩ := h
    have hl : ackLevels s (v :: rest).length = ackAt s 0 :: ackLevels s1 rest.length := by
      rw [a1.ackLevels rest.length, List.length_cons, Nat.add_comm 1]
      unfold ackLevels
      rw [List.range_succ_eq_map]
      rfl
    refine ⟨?_, fun h => absurd h (by simp), fun _ => ?_, ?_, ?_, fun hd hr => ?_⟩
    · have := q1.trans q2
      rw [hl]
      exact ⟨this.still, this.leds, rfl, by rw [this.trace]; rfl, by rw [this.micro, List.length_cons]; omega⟩
    · by_cases hr : rest = []
      · exact ⟨v.getLsbD 7, by rw [hnil hr, q1.pins]⟩
      · obtain ⟨o, ho⟩ := hne hr
        exact ⟨o, by rw [ho, q1.pins]⟩
    · rw [w2]
      by_cases hr : rest = []
      · subst hr
        rw [if_pos rfl, if_neg (by simp), w1]
        rfl
      · rw [if_neg hr, if_neg (by simp), w1, a1.ackAt]
        have : rest.length ≠ 0 := by simpa using hr
        simp only [List.length_cons, Nat.add_sub_cancel]
        rw [show 1 + (rest.length - 1) = rest.length by omega]
    · have := a1.trans a2
      rwa [Nat.add_comm] at this
    · rw [e2 (by rw [q1.pins]) (by rw [e1 hd hr]; exact takeByte_ready hr _ _), e1 hd hr, hl]
      rfl

/-- The display after a START from the idle bus. -/
theorem start_ready (d : Display) : d.start.Ready := ⟨rfl, rfl, rfl⟩

theorem runs_twTransaction (bytes : List Byte) (hb : bytes ≠ []) :
    Runs (twTransaction bytes) (fun s _ t =>
      Part (transactionEvents bytes (ackLevels s bytes.length))
        { s.pins with dclk := true, dioOut := true, dioDir := .out } (12 + 63 * bytes.length) s t ∧
      t.work = { s.work with sh := 0, bi := 7, ackv := ackAt s (bytes.length - 1) } ∧
      Acked bytes.length s t ∧
      (∀ q, DisplayBusIdle s.pins → (∀ k, k < bytes.length → ackAt s k = false) →
        panelEffect s.cfg bytes s.display.panel = some q → t.display.panel = q)) :=
  (Runs.bind runs_twStart fun _ => Runs.bind (runs_twBytes bytes) fun _ => runs_twStop).mono fun s _ t h => by
    obtain ⟨_, s1, ⟨q1, w1, b1, e1⟩, _, s2, ⟨q2, -, hne, w2, a2, e2⟩, q3, w3, b3, e3⟩ := h
    obtain ⟨o, ho⟩ := hne hb
    have hl : ackLevels s1 bytes.length = ackLevels s bytes.length := by
      rw [b1.acked.ackLevels]
      simp
    refine ⟨?_, ?_, ?_, fun q hi hk hq => ?_⟩
    · have := (q1.trans q2).trans q3
      refine ⟨this.still, this.leds, by rw [q3.pins, ho, q1.pins], ?_, by rw [this.micro]; omega⟩
      rw [this.trace, hl]
      rfl
    · rw [w3, w2, if_neg hb, w1, b1.acked.ackAt, Nat.zero_add]
    · have := (b1.acked.trans a2).trans b3.acked
      rwa [Nat.zero_add, Nat.add_zero] at this
    · have hr1 : s1.display.Ready := by rw [e1 hi]; exact start_ready _
      have h2 := e2 (by rw [q1.pins]; exact hi.2.1) hr1
      rw [takeBytes_eq _ _ _ (ackLevels_length _ _).symm, e1 hi, hl] at h2
      have hany : (ackLevels s bytes.length).any id = false := by
        rw [List.any_eq_false]
        intro x hx
        obtain ⟨k, hk', rfl⟩ := List.mem_map.1 hx
        simpa using hk k (List.mem_range.1 hk')
      have hcfg : s2.cfg = s.cfg := q2.still.cfg.trans q1.still.cfg
      rw [e3 q (by rw [ho]) (by rw [h2]; rfl) (by rw [h2]; exact (by decide : (0 : Fin 9).val < 8)) (by rw [h2, hany]; rfl)
        (by rw [hcfg, h2]; exact hq)]

theorem runs_sendAutoinc :
    Runs sendAutoinc (fun s _ t =>
      Part (transactionEvents [s.cfg.cmdAutoinc] (ackLevels s 1))
        { s.pins with dclk := true, dioOut := true, dioDir := .out } 75 s t ∧
      t.work = { s.work with sh := 0, bi := 7, ackv := ackAt s 0 } ∧ Acked 1 s t ∧
      (DisplayBusIdle s.pins → ackAt s 0 = false →
        t.display.panel = { s.display.panel with autoInc := true })) := fun s => by
  refine (runs_twTransaction [s.cfg.cmdAutoinc] (by simp) s).mono fun _ t ⟨hq, hw, ha, hd⟩ =>
    ⟨hq, hw, ha, fun hi h0 => hd _ hi (fun k hk => ?_) ?_⟩
  · rw [show k = 0 by simpa using hk]
    exact h0
  · simp [panelEffect]

theorem runs_sendDigits :
    Runs sendDigits (fun s _ t =>
      Part (transactionEvents
          [s.cfg.cmdAddr0, s.work.frame.d0, s.work.frame.d1, s.work.frame.d2, s.work.frame.d3] (ackLevels s 5))
        { s.pins with dclk := true, dioOut := true, dioDir := .out } 327 s t ∧
      t.work = { s.work with sh := 0, bi := 7, ackv := ackAt s 4 } ∧ Acked 5 s t ∧
      (DisplayBusIdle s.pins → (∀ k, k < 5 → ackAt s k = false) →
        t.display.panel = { s.display.panel with
          mem := Mem.writeDigits s.work.frame.d0 s.work.frame.d1 s.work.frame.d2 s.work.frame.d3
            s.display.panel.mem })) := fun s => by
  refine (runs_twTransaction
    [s.cfg.cmdAddr0, s.work.frame.d0, s.work.frame.d1, s.work.frame.d2, s.work.frame.d3] (by simp) s).mono
    fun _ t ⟨hq, hw, ha, hd⟩ => ?_
  simp only [List.length_cons, List.length_nil, Nat.reduceAdd, Nat.reduceMul, Nat.reduceSub] at hq hw ha hd
  refine ⟨hq, hw, ha, fun hi h0 => hd _ hi h0 ?_⟩
  simp [panelEffect]

theorem runs_writeFrame :
    Runs writeFrame (fun s _ t =>
      Part (updateEvents s.cfg s.work.frame (ackLevels s 6))
        { s.pins with dclk := true, dioOut := true, dioDir := .out } 402 s t ∧
      t.work = { s.work with sh := 0, bi := 7, ackv := ackAt s 5 } ∧ Acked 6 s t ∧
      (DisplayBusIdle s.pins → (∀ k, k < 6 → ackAt s k = false) →
        t.display.panel = { s.display.panel with
          autoInc := true
          mem := Mem.writeDigits s.work.frame.d0 s.work.frame.d1 s.work.frame.d2 s.work.frame.d3
            s.display.panel.mem })) :=
  (Runs.bind runs_sendAutoinc fun _ => runs_sendDigits).mono fun s _ t h => by
    obtain ⟨_, s1, ⟨q1, w1, a1, e1⟩, q2, w2, a2, e2⟩ := h
    have hf : s1.work.frame = s.work.frame := by rw [w1]
    refine ⟨?_, ?_, a1.trans a2, fun hi hk => ?_⟩
    · have := q1.trans q2
      refine ⟨this.still, this.leds, by rw [q2.pins, q1.pins], ?_, by rw [this.micro]⟩
      rw [this.trace, hf, q1.still.cfg, a1.ackLevels 5]
      unfold updateEvents
      rw [ackLevels_take s 1 5]
    · rw [w2, w1, a1.ackAt]
    · rw [e2 (by rw [q1.pins]; exact ⟨rfl, rfl, rfl⟩) (fun k hk' => by rw [a1.ackAt]; exact hk _ (by omega)), hf,
        e1 hi (hk 0 (by omega))]

theorem runs_putDigit (c : Byte) (store : Frame → Byte → Frame) :
    Runs (putDigit c store) (fun s _ t => Part [] s.pins 1 s t ∧ BusStill s t ∧
      t.work = { s.work with frame := store s.work.frame (segment s.cfg c) } ∧ t.display = s.display) :=
  (Runs.act (f := fun s => s.setWork { s.work with frame := store s.work.frame (segment s.cfg c) })
    fun _ => rfl).mono fun s _ t ⟨u, hu, hm, ht⟩ => by
    subst ht
    refine ⟨⟨hu.still.trans (by constructor <;> rfl), hu.leds, hu.pins, hu.trace, hm⟩,
      hu.busStill.trans (by constructor <;> rfl), ?_, hu.display⟩
    show { u.work with frame := store u.work.frame (segment u.cfg c) } = _
    rw [hu.work, hu.cfg]

theorem runs_textToFrame (text : Text) :
    Runs (textToFrame text) (fun s _ t => Part [] s.pins 4 s t ∧ BusStill s t ∧
      t.work = { s.work with frame := frameOf s.cfg text } ∧ t.display = s.display) :=
  (Runs.bind (runs_putDigit _ _) fun _ => Runs.bind (runs_putDigit _ _) fun _ =>
    Runs.bind (runs_putDigit _ _) fun _ => runs_putDigit _ _).mono fun s _ t h => by
    obtain ⟨_, s1, ⟨q1, b1, w1, e1⟩, _, s2, ⟨q2, b2, w2, e2⟩, _, s3, ⟨q3, b3, w3, e3⟩, q4, b4, w4, e4⟩ := h
    refine ⟨?_, ((b1.trans b2).trans b3).trans b4, ?_, by rw [e4, e3, e2, e1]⟩
    · have := ((q1.trans q2).trans q3).trans q4
      exact ⟨this.still, this.leds, by rw [q4.pins, q3.pins, q2.pins, q1.pins], this.trace, this.micro⟩
    · rw [w4, w3, w2, w1, q3.still.cfg, q2.still.cfg, q1.still.cfg]
      rfl

theorem runs_writeDigits (text : Text) :
    Runs (writeDigits text) (fun s _ t =>
      Part (updateEvents s.cfg (frameOf s.cfg text) (ackLevels s 6))
        { s.pins with dclk := true, dioOut := true, dioDir := .out } 406 s t ∧
      t.work = { s.work with frame := frameOf s.cfg text, sh := 0, bi := 7, ackv := ackAt s 5 } ∧
      Acked 6 s t ∧
      (DisplayBusIdle s.pins → (∀ k, k < 6 → ackAt s k = false) →
        t.display.panel = { s.display.panel with
          autoInc := true
          mem := Mem.writeDigits (frameOf s.cfg text).d0 (frameOf s.cfg text).d1 (frameOf s.cfg text).d2
            (frameOf s.cfg text).d3 s.display.panel.mem })) :=
  (Runs.bind (runs_textToFrame text) fun _ => runs_writeFrame).mono fun s _ t h => by
    obtain ⟨_, s1, ⟨q1, b1, w1, e1⟩, q2, w2, a2, e2⟩ := h
    have hl : ackLevels s1 6 = ackLevels s 6 := by
      rw [b1.acked.ackLevels]
      rfl
    refine ⟨?_, ?_, ?_, fun hi hk => ?_⟩
    · have := q1.trans q2
      refine ⟨this.still, this.leds, by rw [q2.pins, q1.pins], ?_, by rw [this.micro]⟩
      rw [this.trace, w1, q1.still.cfg, hl]
      rfl
    · rw [w2, w1, b1.acked.ackAt]
    · have := b1.acked.trans a2
      rwa [Nat.zero_add] at this
    · rw [e2 (by rw [q1.pins]; exact hi) (fun k hk' => by rw [b1.acked.ackAt, Nat.zero_add]; exact hk k hk'), w1, e1]

theorem runs_setBrightness (level : Byte) :
    Runs (setBrightness level) (fun s _ t =>
      Part (transactionEvents [brightCommand s.cfg level] (ackLevels s 1))
        { s.pins with dclk := true, dioOut := true, dioDir := .out } 75 s t ∧
      t.work = { s.work with sh := 0, bi := 7, ackv := ackAt s 0 } ∧ Acked 1 s t ∧
      (∀ q, DisplayBusIdle s.pins → ackAt s 0 = false →
        panelEffect s.cfg [brightCommand s.cfg level] s.display.panel = some q → t.display.panel = q)) :=
  fun s => by
    refine (runs_twTransaction [brightCommand s.cfg level] (by simp) s).mono fun _ t ⟨hq, hw, ha, hd⟩ =>
      ⟨hq, hw, ha, fun q hi h0 hp => hd q hi (fun k hk => ?_) hp⟩
    rw [show k = 0 by simpa using hk]
    exact h0

end Sys2Proof.Machine
end

