-- ==== Sys2Proof/Laws/Fsm.lean ====
section
/-! SUPPORT. What the display operations of the state machine and its control writes do. -/

namespace Sys2Proof.Machine

/-- The pins after a digit update. -/
def Pins.busIdle (p : Pins) : Pins := { p with dclk := true, dioOut := true, dioDir := .out }

/-- The pins after a digit update and a pattern. -/
def Pins.shown (pattern : Byte) (p : Pins) : Pins :=
  { p.busIdle with sdat := pattern.getLsbD 0, sclk := false, slat := false }

/-- A write of a working register computed from the control state. -/
theorem runs_workAct_part (f : State → Work) (hf : ∀ s u, Undisturbed s u → f u = f s) :
    Runs (act fun s => s.setWork (f s)) (fun s _ t => Part [] s.pins 1 s t ∧ BusStill s t ∧ t.work = f s ∧
      t.display = s.display) :=
  (Runs.act (f := fun s => s.setWork (f s)) fun _ => rfl).mono fun s _ t ⟨u, hu, hm, ht⟩ => by
    subst ht
    exact ⟨⟨hu.still.trans (by constructor <;> rfl), hu.leds, hu.pins, hu.trace, hm⟩,
      hu.busStill.trans (by constructor <;> rfl), hf s u hu, hu.display⟩

/-- SHOW_THRESHOLD (R213). -/
theorem runs_showThreshold :
    Runs showThreshold (fun s _ t =>
      Part (updateEvents s.cfg (frameOf s.cfg (numToText (thresholdIn s.cfg s.ctrl.unit s.ctrl.threshold).toNat))
        (ackLevels s 6)) s.pins.busIdle 407 s t ∧
      t.work = { s.work with
        thru := thresholdIn s.cfg s.ctrl.unit s.ctrl.threshold
        frame := frameOf s.cfg (numToText (thresholdIn s.cfg s.ctrl.unit s.ctrl.threshold).toNat)
        sh := 0, bi := 7, ackv := ackAt s 5 } ∧ Acked 6 s t) :=
  (Runs.bind (runs_workAct_part (fun s => { s.work with thru := thresholdIn s.cfg s.ctrl.unit s.ctrl.threshold })
    fun s u hu => by rw [hu.work, hu.ctrl, hu.cfg]) fun _ => Runs.bind (Runs.query _) fun thru =>
    runs_writeDigits _).mono fun s _ t h => by
    obtain ⟨_, s1', ⟨q1, b1, w1, -⟩, thru, s1, ⟨hth, rfl⟩, q2, w2, a2, -⟩ := h
    have hthru : thru = thresholdIn s.cfg s.ctrl.unit s.ctrl.threshold := by rw [hth, w1]
    have hl : ackLevels s1 6 = ackLevels s 6 := by rw [b1.acked.ackLevels]; rfl
    subst hthru
    rw [hl, q1.still.cfg] at q2
    rw [q1.still.cfg] at w2
    refine ⟨?_, ?_, ?_⟩
    · have := q1.trans q2
      exact ⟨this.still, this.leds, by rw [q2.pins, q1.pins]; rfl, this.trace, this.micro⟩
    · rw [w2, w1, b1.acked.ackAt]
    · have := b1.acked.trans a2
      rwa [Nat.zero_add] at this

/-- A text on the display and a pattern on the LEDs. -/
structure Shown (text : Text) (pattern : Byte) (s t : State) : Prop where
  still : Still s t
  pins : t.pins = s.pins.shown pattern
  trace : t.trace = (updateEvents s.cfg (frameOf s.cfg text) (ackLevels s 6) ++ patternEvents pattern).reverse ++ s.trace
  leds : s.pins.sclk = false → t.leds = ⟨pattern, pattern⟩
  acked : Acked 6 s t

/-- SHOW_ERROR (R211). -/
theorem runs_showError :
    Runs showError (fun s _ t => Shown s.cfg.errText 0 s t ∧
      t.work = { s.work with frame := frameOf s.cfg s.cfg.errText, sh := 0, bi := 7, ackv := ackAt s 5 }) :=
  (Runs.bind (Runs.query _) fun _ => Runs.bind (runs_writeDigits _) fun _ => runs_sendPattern 0).mono fun s _ t h => by
    obtain ⟨text, s0, ⟨rfl, rfl⟩, _, s1, ⟨q1, w1, a1, -⟩, q2, w2, l2⟩ := h
    refine ⟨⟨q1.still.trans q2.still, by rw [q2.pins, q1.pins]; rfl, by rw [q2.trace, q1.trace, List.reverse_append, List.append_assoc], fun hc => l2 (by rw [q1.pins]; exact hc),
      ⟨by rw [q2.bus.ack, a1.ack], by rw [q2.bus.ackCount, a1.ackCount]⟩⟩, by rw [w2, w1]⟩

/-- SHOW_DISTANCE (R212). -/
theorem runs_showDistance (raw : Nat) :
    Runs (showDistance raw) (fun s _ t =>
      Shown (numToText (distanceIn s.ctrl.unit raw).toNat)
        (ledPattern (distanceIn s.ctrl.unit raw) (thresholdIn s.cfg s.ctrl.unit s.ctrl.threshold)) s t ∧
      t.work = { s.work with
        dist := distanceIn s.ctrl.unit raw
        thru := thresholdIn s.cfg s.ctrl.unit s.ctrl.threshold
        frame := frameOf s.cfg (numToText (distanceIn s.ctrl.unit raw).toNat)
        sh := 0, bi := 7, ackv := ackAt s 5 }) :=
  (Runs.bind (runs_workAct_part (fun s => { s.work with dist := distanceIn s.ctrl.unit raw })
    fun s u hu => by rw [hu.work, hu.ctrl]) fun _ => Runs.bind (Runs.query _) fun dist =>
    Runs.bind (runs_writeDigits _) fun _ =>
    Runs.bind (runs_workAct_part (fun s => { s.work with thru := thresholdIn s.cfg s.ctrl.unit s.ctrl.threshold })
      fun s u hu => by rw [hu.work, hu.ctrl, hu.cfg]) fun _ => Runs.bind (Runs.query _) fun pattern =>
    runs_sendPattern pattern).mono fun s _ t h => by
    obtain ⟨_, s1', ⟨q1, b1, w1, -⟩, dist, s1, ⟨hd, rfl⟩, _, s2, ⟨q2, w2, a2, -⟩, _, s3', ⟨q3, b3, w3, -⟩, pattern, s3,
      ⟨hp, rfl⟩, q4, w4, l4⟩ := h
    have hdist : dist = distanceIn s.ctrl.unit raw := by rw [hd, w1]
    have hl : ackLevels s1 6 = ackLevels s 6 := by rw [b1.acked.ackLevels]; rfl
    have hc2 : s2.ctrl = s.ctrl := by rw [q2.still.ctrl, q1.still.ctrl]
    subst hdist
    rw [hl, q1.still.cfg] at q2
    rw [q1.still.cfg, w1, b1.acked.ackAt] at w2
    rw [hc2, q2.still.cfg, q1.still.cfg, w2] at w3
    have hpat : pattern = ledPattern (distanceIn s.ctrl.unit raw) (thresholdIn s.cfg s.ctrl.unit s.ctrl.threshold) := by
      rw [hp, w3]
    subst hpat
    have q := (q1.trans q2).trans q3
    refine ⟨⟨q.still.trans q4.still, ?_, ?_, fun hc => l4 ?_, ?_⟩, by rw [w4, w3]⟩
    · rw [q4.pins, q3.pins, q2.pins, q1.pins]
      rfl
    · rw [q4.trace, q.trace]
      simp
    · rw [q3.pins, q2.pins, q1.pins]
      exact hc
    · have := ((b1.acked.trans a2).trans b3.acked).trans q4.bus.acked
      simpa using this

/-- A write of the control state. -/
theorem runs_putCtrl_frame (f : Ctrl → Ctrl) :
    Runs (putCtrl f) (fun s _ t => ButtonStill s t ∧ Sampled 0 s t ∧ t.ctrl = f s.ctrl ∧ t.work = s.work ∧
      t.trace = s.trace) :=
  (runs_putCtrl_silent f).mono fun _ _ _ ⟨hu, hc, _⟩ =>
    ⟨⟨hu.pins, hu.display, hu.leds, ⟨hu.dioExt, hu.ack, hu.ackCount⟩, hu.seq, hu.result, hu.script, hu.cfg, hu.edge,
      hu.resets, hu.resetCount⟩, ⟨hu.adc, hu.sample⟩, hc, hu.work, hu.trace⟩

/-- The threshold after an adjustment, as an integer (R214). -/
theorem adjustThreshold_toNat (t : Dist) (delta : Int) :
    ((adjustThreshold t delta).toNat : Int) = min (max ((t.toNat : Int) + delta) 0) 400 := by
  unfold adjustThreshold
  have hm : (thrMax : Int) = 400 := rfl
  rw [hm, BitVec.toNat_ofNat]
  have h1 : (min (max ((t.toNat : Int) + delta) 0) 400).toNat < 2 ^ ThrBits := by
    have : (2 : Nat) ^ ThrBits = 512 := rfl
    omega
  rw [Nat.mod_eq_of_lt h1]
  omega

theorem adjustThreshold_le (t : Dist) (delta : Int) : (adjustThreshold t delta).toNat ≤ 400 := by
  have := adjustThreshold_toNat t delta
  omega

end Sys2Proof.Machine
end

