-- ==== Sys2Proof/Laws/Along.lean ====
section
/-! SUPPORT. What every operation can do, said once: a relation between states that holds along each kind of
micro-step, each event and RESET holds along every operation, abandoned or not. -/

namespace Sys2Proof.Machine

/-- A write of working registers: each count is as it was, or CCR, or in its width. -/
structure WorkStep (s : State) (w : Work) : Prop where
  rise : w.rise = s.work.rise ∨ w.rise = s.capu.ccr
  fall : w.fall = s.work.fall ∨ w.fall = s.capu.ccr
  raw : w.raw = s.work.raw ∨ w.raw < 2 ^ s.cfg.cntBits
  polln : w.polln = s.work.polln ∨ w.polln < 2 ^ s.cfg.pollBits

/-- Such a write keeps the counts in their widths. -/
theorem WorkStep.inWidth {s : State} {w : Work} (h : WorkStep s w) (hc : s.capu.InWidth s.cfg)
    (hw : s.work.InWidth s.cfg) : w.InWidth s.cfg := by
  obtain ⟨h1, h2, h3, h4⟩ := hw
  refine ⟨?_, ?_, ?_, ?_⟩
  · rcases h.rise with e | e <;> rw [e]
    exacts [h1, hc.2]
  · rcases h.fall with e | e <;> rw [e]
    exacts [h2, hc.2]
  · rcases h.raw with e | e
    · rwa [e]
    · exact e
  · rcases h.polln with e | e
    · rwa [e]
    · exact e

/-- A relation that holds along everything that can happen to the state. -/
structure Closed (R : State → State → Prop) : Prop where
  refl : ∀ s, R s s
  trans : ∀ s t u, R s t → R t u → R s u
  events : ∀ s t, Undisturbed s t → s.micro ≤ t.micro → R s t
  reset : ∀ s t, AfterReset s t → R s t
  drive : ∀ p e s, R s (s.drive p e)
  release : ∀ s, R s (s.setDir .inPullup)
  trace : ∀ s e, R s (s.addTrace e)
  work : ∀ s w, WorkStep s w → R s (s.setWork w)
  edge : ∀ s e, R s (s.setCapu { s.capu with edge := e })
  clear : ∀ s, R s (s.setCapu s.capu.clearFlag)
  sample : ∀ s, R s (s.setEnv s.env.dropSample)
  measure : ∀ s, R s (s.setCtrl { s.ctrl with opState := stMeasure })
  setup : ∀ s, R s (s.setCtrl { s.ctrl with opState := stSetup })
  toggle : ∀ s, R s (s.setCtrl { s.ctrl with unit := toggleUnit s.ctrl.unit })
  adjust : ∀ s delta, R s (s.setCtrl { s.ctrl with threshold := adjustThreshold s.ctrl.threshold delta })
  stable : ∀ s b, R s (s.setCtrl { s.ctrl with stable := b })
  loop : ∀ s, R s (s.setSeq .loop)
  result : ∀ s v, R s (s.setResult v)

/-- The relation holds along an operation. -/
def Along {α : Type} (R : State → State → Prop) (m : Op α) : Prop :=
  ∀ s, match m s with
    | .ok (_, t) => R s t
    | .error t => R s t

variable {α β : Type} {R : State → State → Prop}

theorem Along.bind (h : Closed R) {m : Op α} {k : α → Op β} (hm : Along R m) (hk : ∀ a, Along R (k a)) :
    Along R (m >>= k) := fun s => by
  have h1 := hm s
  rw [bind_apply]
  cases he : m s with
  | ok p =>
    obtain ⟨a, t⟩ := p
    rw [he] at h1
    have h2 := hk a t
    show match k a t with | .ok (_, u) => R s u | .error u => R s u
    cases hb : k a t with
    | ok q => rw [hb] at h2; exact h.trans _ _ _ h1 h2
    | error u => rw [hb] at h2; exact h.trans _ _ _ h1 h2
  | error t => rw [he] at h1; exact h1

theorem Along.pure (h : Closed R) (a : α) : Along R (Pure.pure a : Op α) := fun s => h.refl s

theorem Along.query (h : Closed R) (g : State → α) : Along R (Machine.query g) := fun s => h.refl s

theorem Along.goto (h : Closed R) : Along R (Machine.goto .loop) := fun s => h.loop s

theorem Along.micro (h : Closed R) {f : State → α × State} (hf : ∀ s, R s (f s).2) : Along R (Machine.micro f) :=
  fun s => by
    rcases window_cases s with ⟨t, ht, hu, hm, _⟩ | ⟨t, ht, hr, _⟩
    · rw [micro_ok ht]
      exact h.trans _ _ _ (h.events s t hu (by omega)) (hf t)
    · rw [micro_error ht]
      exact h.reset s t hr

theorem Along.act (h : Closed R) {f : State → State} (hf : ∀ s, R s (f s)) : Along R (Machine.act f) :=
  Along.micro h hf

theorem Along.run (h : Closed R) {m : Op α} (hm : Along R m) (v : α → Value) (s : State) :
    R s (Machine.run m v s) := by
  have h1 := hm s
  cases he : m s with
  | ok p => obtain ⟨a, t⟩ := p; rw [he] at h1; rw [run_ok he]; exact h.trans _ _ _ h1 (h.result t _)
  | error t => rw [he] at h1; rw [run_error he]; exact h1

section
variable (h : Closed R)
include h

theorem along_pinWrite (p : Pin) (v : Bool) : Along R (pinWrite p v) := Along.act h fun s => h.drive _ _ s

theorem along_dirWrite (d : Dir) : Along R (dirWrite d) := by
  cases d
  · exact Along.act h fun s => h.drive _ _ s
  · exact Along.act h fun s => h.release s

theorem along_delay (k : DelayKind) : Along R (delay k) := Along.act h fun s => h.trace s _

theorem along_putWork (f : Work → Work)
    (hf : ∀ s : State, WorkStep s (f s.work) := by intro s; constructor <;> exact .inl rfl) : Along R (putWork f) :=
  Along.act h fun s => h.work s _ (hf s)

theorem along_workAct (f : State → Work)
    (hf : ∀ s, WorkStep s (f s) := by intro s; constructor <;> exact .inl rfl) : Along R (act fun s => s.setWork (f s)) :=
  Along.act h fun s => h.work s _ (hf s)

theorem along_countPoll : Along R countPoll :=
  along_workAct h _ fun _ => ⟨.inl rfl, .inl rfl, .inl rfl, .inr (Config.polls_lt _ _)⟩

theorem along_cfClear : Along R cfClear := Along.act h fun s => h.clear s

theorem along_setEdge (e : Edge) : Along R (setEdge e) := Along.act h fun s => h.edge s e

theorem along_control : Along R control := Along.act h fun s => h.refl s

theorem along_look (g : State → α) : Along R (look g) := Along.micro h fun s => h.refl s

theorem along_trigPulse : Along R trigPulse :=
  Along.bind h (along_pinWrite h _ _) fun _ => Along.bind h (along_delay h _) fun _ => along_pinWrite h _ _

theorem along_pollOnce (timeout : Nat) {again : Op WaitResult} (ha : Along R again) :
    Along R (pollOnce timeout again) := by
  refine Along.bind h (along_look h _) fun f => Along.bind h (along_control h) fun _ => ?_
  split
  · exact Along.pure h _
  · refine Along.bind h (along_countPoll h) fun _ => Along.bind h (along_look h _) fun n => ?_
    split
    · exact Along.pure h _
    · exact Along.bind h (along_control h) fun _ => ha

theorem along_pollLoop (timeout : Nat) : ∀ fuel, Along R (pollLoop timeout fuel)
  | 0 => along_pollOnce h timeout (Along.pure h _)
  | fuel + 1 => along_pollOnce h timeout (along_pollLoop timeout fuel)

theorem along_continueWait (timeout : Nat) : Along R (continueWait timeout) :=
  Along.bind h (Along.query h _) fun budget => along_pollLoop h budget _

theorem along_waitCapture (timeout : Nat) : Along R (waitCapture timeout) :=
  Along.bind h (along_putWork h _ fun _ => ⟨.inl rfl, .inl rfl, .inl rfl, .inr (Nat.two_pow_pos _)⟩) fun _ =>
  along_continueWait h timeout

theorem along_secondWait (timeout : Nat) : Along R (secondWait timeout) := by
  refine Along.bind h (Along.query h _) fun b => ?_
  split
  · exact along_waitCapture h timeout
  · exact along_continueWait h timeout

theorem along_measureFall (timeout : Nat) : Along R (measureFall timeout) := by
  refine Along.bind h (along_workAct h _ fun _ => ⟨.inr rfl, .inl rfl, .inl rfl, .inl rfl⟩) fun _ => Along.bind h (along_cfClear h) fun _ =>
    Along.bind h (along_setEdge h _) fun _ => Along.bind h (along_secondWait h timeout) fun r => ?_
  cases r
  · exact Along.bind h (along_workAct h _ fun _ => ⟨.inl rfl, .inr rfl, .inl rfl, .inl rfl⟩) fun _ => Along.bind h (along_setEdge h _) fun _ => along_look h _
  · exact Along.bind h (along_setEdge h _) fun _ => Along.pure h _

theorem along_measureRaw (timeout : Nat) : Along R (measureRaw timeout) := by
  refine Along.bind h (along_cfClear h) fun _ => Along.bind h (along_setEdge h _) fun _ =>
    Along.bind h (along_trigPulse h) fun _ => Along.bind h (along_waitCapture h timeout) fun r => ?_
  cases r
  · exact along_measureFall h timeout
  · exact Along.pure h _

theorem along_twStart : Along R twStart :=
  Along.bind h (along_pinWrite h _ _) fun _ => Along.bind h (along_pinWrite h _ _) fun _ =>
  Along.bind h (along_delay h _) fun _ => Along.bind h (along_pinWrite h _ _) fun _ => along_delay h _

theorem along_twBit (b : Bool) : Along R (twBit b) :=
  Along.bind h (along_pinWrite h _ _) fun _ => Along.bind h (along_pinWrite h _ _) fun _ =>
  Along.bind h (along_delay h _) fun _ => Along.bind h (along_pinWrite h _ _) fun _ => along_delay h _

theorem along_sampleAck : Along R sampleAck :=
  Along.act h fun s => h.trans _ _ _ (h.trace s _) (h.work _ _ (by constructor <;> exact .inl rfl))

theorem along_twAck : Along R twAck :=
  Along.bind h (along_pinWrite h _ _) fun _ => Along.bind h (along_dirWrite h _) fun _ =>
  Along.bind h (along_pinWrite h _ _) fun _ => Along.bind h (along_sampleAck h) fun _ =>
  Along.bind h (along_pinWrite h _ _) fun _ => Along.bind h (along_dirWrite h _) fun _ => Along.query h _

theorem along_twStop : Along R twStop :=
  Along.bind h (along_pinWrite h _ _) fun _ => Along.bind h (along_pinWrite h _ _) fun _ =>
  Along.bind h (along_delay h _) fun _ => Along.bind h (along_pinWrite h _ _) fun _ =>
  Along.bind h (along_delay h _) fun _ => Along.bind h (along_pinWrite h _ _) fun _ => along_delay h _

theorem along_twBits : ∀ left, Along R (twBits left)
  | 0 => Along.pure h _
  | left + 1 =>
    Along.bind h (along_putWork h _) fun _ => Along.bind h (Along.query h _) fun _ =>
    Along.bind h (along_twBit h _) fun _ => Along.bind h (along_putWork h _) fun _ => along_twBits left

theorem along_twByte (v : Byte) : Along R (twByte v) :=
  Along.bind h (along_putWork h _) fun _ => Along.bind h (along_twBits h 8) fun _ => along_twAck h

theorem along_twBytes : ∀ l, Along R (twBytes l)
  | [] => Along.pure h _
  | v :: rest => Along.bind h (along_twByte h v) fun _ => along_twBytes rest

theorem along_twTransaction (bytes : List Byte) : Along R (twTransaction bytes) :=
  Along.bind h (along_twStart h) fun _ => Along.bind h (along_twBytes h bytes) fun _ => along_twStop h

theorem along_sendAutoinc : Along R sendAutoinc :=
  Along.bind h (Along.query h _) fun _ => along_twTransaction h _

theorem along_sendDigits : Along R sendDigits :=
  Along.bind h (Along.query h _) fun _ => along_twTransaction h _

theorem along_writeFrame : Along R writeFrame :=
  Along.bind h (along_sendAutoinc h) fun _ => along_sendDigits h

theorem along_textToFrame (text : Text) : Along R (textToFrame text) :=
  Along.bind h (along_workAct h _) fun _ => Along.bind h (along_workAct h _) fun _ =>
  Along.bind h (along_workAct h _) fun _ => along_workAct h _

theorem along_writeDigits (text : Text) : Along R (writeDigits text) :=
  Along.bind h (along_textToFrame h text) fun _ => along_writeFrame h

theorem along_setBrightness (level : Byte) : Along R (setBrightness level) :=
  Along.bind h (Along.query h _) fun _ => along_twTransaction h _

theorem along_srBit (b : Bool) : Along R (srBit b) :=
  Along.bind h (along_pinWrite h _ _) fun _ => Along.bind h (along_pinWrite h _ _) fun _ => along_pinWrite h _ _

theorem along_srLatch : Along R srLatch :=
  Along.bind h (along_pinWrite h _ _) fun _ => along_pinWrite h _ _

theorem along_srBits : ∀ left, Along R (srBits left)
  | 0 => Along.pure h _
  | left + 1 =>
    Along.bind h (along_putWork h _) fun _ => Along.bind h (Along.query h _) fun _ =>
    Along.bind h (along_srBit h _) fun _ => Along.bind h (along_putWork h _) fun _ => along_srBits left

theorem along_sendPattern (p : Byte) : Along R (sendPattern p) :=
  Along.bind h (along_pinWrite h _ _) fun _ => Along.bind h (along_putWork h _) fun _ =>
  Along.bind h (along_srBits h 8) fun _ => along_srLatch h

theorem along_adcSample : Along R adcSample := Along.micro h fun s => h.sample s

theorem along_readRaw : Along R readRaw := Along.bind h (along_adcSample h) fun _ => Along.query h _

theorem along_confirm : Along R confirm := by
  refine Along.bind h (along_delay h _) fun _ => Along.bind h (along_readRaw h) fun _ =>
    Along.bind h (Along.query h _) fun _ => ?_
  split
  · exact Along.bind h (Along.act h fun s => h.stable s _) fun _ => Along.query h _
  · exact Along.query h _

theorem along_readDebounced : Along R readDebounced := by
  refine Along.bind h (along_readRaw h) fun _ => Along.bind h (along_putWork h _) fun _ =>
    Along.bind h (Along.query h _) fun _ => ?_
  split
  · exact Along.pure h _
  · exact along_confirm h

theorem along_showError : Along R showError :=
  Along.bind h (Along.query h _) fun _ => Along.bind h (along_writeDigits h _) fun _ => along_sendPattern h _

theorem along_showDistance (raw : Nat) : Along R (showDistance raw) :=
  Along.bind h (along_workAct h _) fun _ => Along.bind h (Along.query h _) fun _ =>
  Along.bind h (along_writeDigits h _) fun _ => Along.bind h (along_workAct h _) fun _ =>
  Along.bind h (Along.query h _) fun _ => along_sendPattern h _

theorem along_showThreshold : Along R showThreshold :=
  Along.bind h (along_workAct h _) fun _ => Along.bind h (Along.query h _) fun _ => along_writeDigits h _

theorem along_thrAdjust (delta : Int) : Along R (thrAdjust delta) := Along.act h fun s => h.adjust s delta

theorem along_rangingCycle : Along R rangingCycle := by
  refine Along.bind h (Along.query h _) fun _ => Along.bind h (along_measureRaw h _) fun _ =>
    Along.bind h (along_workAct h _ fun _ => ⟨.inl rfl, .inl rfl, .inr (Config.ticks_lt _ _), .inl rfl⟩) fun _ => Along.bind h (Along.query h _) fun _ => ?_
  split
  · exact along_showError h
  · exact along_showDistance h _

theorem along_mNone : Along R mNone := Along.bind h (along_rangingCycle h) fun _ => along_delay h _

theorem along_mMode : Along R mMode := Along.act h fun s => h.toggle s

theorem along_mUp : Along R mUp := Along.bind h (Along.act h fun s => h.setup s) fun _ => along_showThreshold h

theorem along_mDown : Along R mDown := Along.bind h (Along.act h fun s => h.setup s) fun _ => along_showThreshold h

theorem along_sNone : Along R sNone := Along.bind h (along_showThreshold h) fun _ => along_delay h _

theorem along_sMode : Along R sMode := Along.bind h (Along.act h fun s => h.measure s) fun _ => along_delay h _

theorem along_sUp : Along R sUp :=
  Along.bind h (along_thrAdjust h _) fun _ => Along.bind h (along_showThreshold h) fun _ => along_delay h _

theorem along_sDown : Along R sDown :=
  Along.bind h (along_thrAdjust h _) fun _ => Along.bind h (along_showThreshold h) fun _ => along_delay h _

theorem along_fRecover : Along R fRecover := Along.act h fun s => h.measure s

theorem along_arm (dw : BitVec 4) : Along R (arm dw) := by
  unfold arm
  split
  · exact along_mNone h
  · exact along_mMode h
  · exact along_mUp h
  · exact along_mDown h
  · exact along_sNone h
  · exact along_sMode h
  · exact along_sUp h
  · exact along_sDown h
  · exact along_fRecover h

theorem along_tick : Along R tick :=
  Along.bind h (along_readDebounced h) fun _ => Along.bind h (along_putWork h _) fun _ =>
  Along.bind h (Along.query h _) fun _ => along_arm h _

theorem along_boot : Along R boot := by
  refine Along.bind h (Along.query h _) fun l => ?_
  cases l
  · exact Along.goto h
  · exact Along.bind h (along_setBrightness h _) fun _ => Along.goto h

/-- Everything an operation can do: it answers a next state, and a closed relation holds along it. -/
theorem exec_along (i : Instr) (s : State) : ∃ t, exec i s = .next t ∧ R s t := by
  cases i with
  | cntTick =>
    exact ⟨_, rfl, h.trans _ _ _ (h.events _ _ (undisturbed_cntTicks 1 s) (le_refl _)) (h.result _ _)⟩
  | echoRise =>
    exact ⟨_, rfl, h.trans _ _ _ (h.events _ _ (undisturbed_echoTo true s) (le_of_eq (echoTo_micro true s).symm))
      (h.result _ _)⟩
  | echoFall =>
    exact ⟨_, rfl, h.trans _ _ _ (h.events _ _ (undisturbed_echoTo false s) (le_of_eq (echoTo_micro false s).symm))
      (h.result _ _)⟩
  | reset => exact ⟨_, rfl, h.reset _ _ (afterReset_coreReset s)⟩
  | cfClear => exact ⟨_, rfl, (along_cfClear h).run h _ s⟩
  | setEdgeRising => exact ⟨_, rfl, (along_setEdge h _).run h _ s⟩
  | setEdgeFalling => exact ⟨_, rfl, (along_setEdge h _).run h _ s⟩
  | ccrRead => exact ⟨_, rfl, (along_look h _).run h _ s⟩
  | cfRead => exact ⟨_, rfl, (along_look h _).run h _ s⟩
  | trigPulse => exact ⟨_, rfl, (along_trigPulse h).run h _ s⟩
  | waitCapture => exact ⟨_, rfl, (along_waitCapture h _).run h _ s⟩
  | measureRaw => exact ⟨_, rfl, (along_measureRaw h _).run h _ s⟩
  | ticksToCm | ticksToInch | numToText | ledPattern | classify | cmToInch | thrInUnit | logText | logNumber =>
    exact ⟨_, rfl, h.result _ _⟩
  | twStart => exact ⟨_, rfl, (along_twStart h).run h _ s⟩
  | twBit => exact ⟨_, rfl, (along_twBit h _).run h _ s⟩
  | twAck => exact ⟨_, rfl, (along_twAck h).run h _ s⟩
  | twByte => exact ⟨_, rfl, (along_twByte h _).run h _ s⟩
  | twStop => exact ⟨_, rfl, (along_twStop h).run h _ s⟩
  | twTransaction => exact ⟨_, rfl, (along_twTransaction h _).run h _ s⟩
  | textToFrame => exact ⟨_, rfl, (along_textToFrame h _).run h _ s⟩
  | writeFrame => exact ⟨_, rfl, (along_writeFrame h).run h _ s⟩
  | writeDigits => exact ⟨_, rfl, (along_writeDigits h _).run h _ s⟩
  | setBrightness => exact ⟨_, rfl, (along_setBrightness h _).run h _ s⟩
  | srBit => exact ⟨_, rfl, (along_srBit h _).run h _ s⟩
  | srLatch => exact ⟨_, rfl, (along_srLatch h).run h _ s⟩
  | sendPattern => exact ⟨_, rfl, (along_sendPattern h _).run h _ s⟩
  | adcSample => exact ⟨_, rfl, (along_adcSample h).run h _ s⟩
  | readRaw => exact ⟨_, rfl, (along_readRaw h).run h _ s⟩
  | readDebounced => exact ⟨_, rfl, (along_readDebounced h).run h _ s⟩
  | tick => exact ⟨_, rfl, (along_tick h).run h _ s⟩
  | rangingCycle => exact ⟨_, rfl, (along_rangingCycle h).run h _ s⟩
  | showError => exact ⟨_, rfl, (along_showError h).run h _ s⟩
  | showDistance => exact ⟨_, rfl, (along_showDistance h _).run h _ s⟩
  | showThreshold => exact ⟨_, rfl, (along_showThreshold h).run h _ s⟩
  | thrAdjust => exact ⟨_, rfl, (along_thrAdjust h _).run h _ s⟩
  | delayUs => exact ⟨_, rfl, (along_delay h _).run h _ s⟩
  | delayMs => exact ⟨_, rfl, (along_delay h _).run h _ s⟩
  | boot => exact ⟨_, rfl, (along_boot h).run h _ s⟩
  | mNone => exact ⟨_, rfl, (along_mNone h).run h _ s⟩
  | mMode => exact ⟨_, rfl, (along_mMode h).run h _ s⟩
  | mUp => exact ⟨_, rfl, (along_mUp h).run h _ s⟩
  | mDown => exact ⟨_, rfl, (along_mDown h).run h _ s⟩
  | sNone => exact ⟨_, rfl, (along_sNone h).run h _ s⟩
  | sMode => exact ⟨_, rfl, (along_sMode h).run h _ s⟩
  | sUp => exact ⟨_, rfl, (along_sUp h).run h _ s⟩
  | sDown => exact ⟨_, rfl, (along_sDown h).run h _ s⟩
  | fRecover => exact ⟨_, rfl, (along_fRecover h).run h _ s⟩
  | cmdAutoinc => exact ⟨_, rfl, (along_sendAutoinc h).run h _ s⟩
  | cmdAddr0 => exact ⟨_, rfl, (along_sendDigits h).run h _ s⟩
  | cmdCtrl => exact ⟨_, rfl, (along_setBrightness h _).run h _ s⟩

end

/-! ## The display memory keeps its canonical form -/

theorem panelEffect_wf {cfg : Config} {bytes : List Byte} {p q : Panel} (h : panelEffect cfg bytes p = some q) :
    (Mem.wf p.mem = true → Mem.wf q.mem = true) ∧ (Mem.below 4 p.mem = true → Mem.below 4 q.mem = true) := by
  unfold panelEffect at h
  split at h
  · split_ifs at h <;> cases h <;> exact ⟨id, id⟩
  · split_ifs at h
    cases h
    exact ⟨Mem.writeDigits_wf _ _ _ _, Mem.writeDigits_below _ _ _ _⟩
  · cases h

theorem displayStop_wf (s : State) :
    (Mem.wf s.display.panel.mem = true → Mem.wf s.displayStop.display.panel.mem = true) ∧
    (Mem.below 4 s.display.panel.mem = true → Mem.below 4 s.displayStop.display.panel.mem = true) := by
  rcases State.displayStop_cases s with ⟨_, h⟩ | ⟨_, _, p, hp, h⟩ | ⟨_, _, h⟩ <;> rw [h]
  · exact ⟨id, id⟩
  · exact panelEffect_wf hp
  · exact ⟨fun _ => panelOf_wf _, fun _ => panelOf_below _⟩

theorem clockRise_panel (line : Bool) (d : Display) : (d.clockRise line).panel = d.panel := by
  unfold Display.clockRise
  split <;> rfl

/-- Whatever the display receiver sees, its memory keeps the canonical form and its addresses. -/
theorem senseDisplay_wf (clk line : Bool) (s : State) :
    (Mem.wf s.display.panel.mem = true → Mem.wf (s.senseDisplay clk line).display.panel.mem = true) ∧
    (Mem.below 4 s.display.panel.mem = true → Mem.below 4 (s.senseDisplay clk line).display.panel.mem = true) := by
  unfold State.senseDisplay
  split
  · exact ⟨id, id⟩
  · split
    · exact displayStop_wf s
    · split
      · show (_ → Mem.wf (s.display.clockRise s.dioLine).panel.mem = true) ∧
          (_ → Mem.below 4 (s.display.clockRise s.dioLine).panel.mem = true)
        rw [clockRise_panel]
        exact ⟨id, id⟩
      · exact ⟨id, id⟩

end Sys2Proof.Machine
end

