-- ==== Sys2Proof/Laws/PerInstr.lean ====
section
/-! SUPPORT. The family `HeadWord`: the first byte of every operation's encoding is its row of
spec/opcode_table.json. -/

namespace Sys2Proof.Laws

/-- A row of the table: the space its word stands in, the value of the fixed bits, and which bits are
fixed. -/
structure TableRow where
  space : WordSpace
  value : Nat
  mask : Nat

/-- The row of an operation (30_encoding R92, R87, R83 to R85). -/
def rowOf : Instr → TableRow
  | .cntTick => ⟨.opx, 0x00, 0x3F⟩
  | .echoRise => ⟨.opx, 0x01, 0x3F⟩
  | .echoFall => ⟨.opx, 0x02, 0x3F⟩
  | .cfClear => ⟨.opx, 0x03, 0x3F⟩
  | .setEdgeRising => ⟨.opx, 0x04, 0x3F⟩
  | .setEdgeFalling => ⟨.opx, 0x05, 0x3F⟩
  | .ccrRead => ⟨.opx, 0x06, 0x3F⟩
  | .cfRead => ⟨.opx, 0x07, 0x3F⟩
  | .trigPulse => ⟨.opx, 0x08, 0x3F⟩
  | .waitCapture _ => ⟨.opx, 0x09, 0x3F⟩
  | .measureRaw _ => ⟨.opx, 0x0A, 0x3F⟩
  | .ticksToCm _ => ⟨.opx, 0x0B, 0x3F⟩
  | .ticksToInch _ => ⟨.opx, 0x0C, 0x3F⟩
  | .twStart => ⟨.opx, 0x0D, 0x3F⟩
  | .twBit _ => ⟨.opx, 0x0E, 0x3F⟩
  | .twAck => ⟨.opx, 0x0F, 0x3F⟩
  | .twByte _ => ⟨.opx, 0x10, 0x3F⟩
  | .twStop => ⟨.opx, 0x11, 0x3F⟩
  | .twTransaction _ => ⟨.opx, 0x12, 0x3F⟩
  | .textToFrame _ => ⟨.opx, 0x13, 0x3F⟩
  | .numToText _ => ⟨.opx, 0x14, 0x3F⟩
  | .writeFrame => ⟨.opx, 0x15, 0x3F⟩
  | .writeDigits _ => ⟨.opx, 0x16, 0x3F⟩
  | .setBrightness _ => ⟨.opx, 0x17, 0x3F⟩
  | .srBit _ => ⟨.opx, 0x18, 0x3F⟩
  | .srLatch => ⟨.opx, 0x19, 0x3F⟩
  | .sendPattern _ => ⟨.opx, 0x1A, 0x3F⟩
  | .ledPattern _ _ => ⟨.opx, 0x1B, 0x3F⟩
  | .adcSample => ⟨.opx, 0x1C, 0x3F⟩
  | .classify _ => ⟨.opx, 0x1D, 0x3F⟩
  | .readRaw => ⟨.opx, 0x1E, 0x3F⟩
  | .readDebounced => ⟨.opx, 0x1F, 0x3F⟩
  | .tick => ⟨.opx, 0x20, 0x3F⟩
  | .rangingCycle => ⟨.opx, 0x21, 0x3F⟩
  | .showError => ⟨.opx, 0x22, 0x3F⟩
  | .showDistance _ => ⟨.opx, 0x23, 0x3F⟩
  | .showThreshold => ⟨.opx, 0x24, 0x3F⟩
  | .thrAdjust _ => ⟨.opx, 0x25, 0x3F⟩
  | .cmToInch _ => ⟨.opx, 0x26, 0x3F⟩
  | .thrInUnit => ⟨.opx, 0x27, 0x3F⟩
  | .delayUs _ => ⟨.opx, 0x28, 0x3F⟩
  | .delayMs _ => ⟨.opx, 0x29, 0x3F⟩
  | .logText _ => ⟨.opx, 0x2A, 0x3F⟩
  | .logNumber _ => ⟨.opx, 0x2B, 0x3F⟩
  | .reset => ⟨.opx, 0x2C, 0x3F⟩
  | .boot => ⟨.opx, 0x2D, 0x3F⟩
  | .mNone => ⟨.dw, 0x0, 0xF⟩
  | .mMode => ⟨.dw, 0x1, 0xF⟩
  | .mUp => ⟨.dw, 0x2, 0xF⟩
  | .mDown => ⟨.dw, 0x3, 0xF⟩
  | .sNone => ⟨.dw, 0x4, 0xF⟩
  | .sMode => ⟨.dw, 0x5, 0xF⟩
  | .sUp => ⟨.dw, 0x6, 0xF⟩
  | .sDown => ⟨.dw, 0x7, 0xF⟩
  | .fRecover _ => ⟨.dw, 0x8, 0x8⟩
  | .cmdAutoinc => ⟨.cmd, 0x40, 0xFF⟩
  | .cmdAddr0 => ⟨.cmd, 0xC0, 0xFF⟩
  | .cmdCtrl _ => ⟨.cmd, 0x88, 0xF8⟩

namespace HeadWord

/-- The encoding starts with a byte whose fixed bits are the row's, in the row's space. -/
def Statement (i : Instr) : Prop :=
  (encode i).space = (rowOf i).space ∧
  ∃ b rest, (encode i).bytes = b :: rest ∧ b.toNat &&& (rowOf i).mask = (rowOf i).value

theorem cntTick : Statement .cntTick := ⟨rfl, _, _, rfl, rfl⟩

theorem echoRise : Statement .echoRise := ⟨rfl, _, _, rfl, rfl⟩

theorem echoFall : Statement .echoFall := ⟨rfl, _, _, rfl, rfl⟩

theorem cfClear : Statement .cfClear := ⟨rfl, _, _, rfl, rfl⟩

theorem setEdgeRising : Statement .setEdgeRising := ⟨rfl, _, _, rfl, rfl⟩

theorem setEdgeFalling : Statement .setEdgeFalling := ⟨rfl, _, _, rfl, rfl⟩

theorem ccrRead : Statement .ccrRead := ⟨rfl, _, _, rfl, rfl⟩

theorem cfRead : Statement .cfRead := ⟨rfl, _, _, rfl, rfl⟩

theorem trigPulse : Statement .trigPulse := ⟨rfl, _, _, rfl, rfl⟩

theorem waitCapture (timeout : Nat) : Statement (.waitCapture timeout) :=
  ⟨rfl, _, _, rfl, by simp [rowOf]⟩

theorem measureRaw (timeout : Nat) : Statement (.measureRaw timeout) :=
  ⟨rfl, _, _, rfl, by simp [rowOf]⟩

theorem ticksToCm (ticks : Nat) : Statement (.ticksToCm ticks) :=
  ⟨rfl, _, _, rfl, by simp [rowOf]⟩

theorem ticksToInch (ticks : Nat) : Statement (.ticksToInch ticks) :=
  ⟨rfl, _, _, rfl, by simp [rowOf]⟩

theorem twStart : Statement .twStart := ⟨rfl, _, _, rfl, rfl⟩

theorem twBit (bit : Bool) : Statement (.twBit bit) :=
  ⟨rfl, _, _, rfl, by simp [rowOf]⟩

theorem twAck : Statement .twAck := ⟨rfl, _, _, rfl, rfl⟩

theorem twByte (byte : Byte) : Statement (.twByte byte) :=
  ⟨rfl, _, _, rfl, by simp [rowOf]⟩

theorem twStop : Statement .twStop := ⟨rfl, _, _, rfl, rfl⟩

theorem twTransaction (bytes : List Byte) : Statement (.twTransaction bytes) :=
  ⟨rfl, _, _, rfl, by simp [rowOf]⟩

theorem textToFrame (text : Text) : Statement (.textToFrame text) :=
  ⟨rfl, _, _, rfl, by simp [rowOf]⟩

theorem numToText (value : Nat) : Statement (.numToText value) :=
  ⟨rfl, _, _, rfl, by simp [rowOf]⟩

theorem writeFrame : Statement .writeFrame := ⟨rfl, _, _, rfl, rfl⟩

theorem writeDigits (text : Text) : Statement (.writeDigits text) :=
  ⟨rfl, _, _, rfl, by simp [rowOf]⟩

theorem setBrightness (level : Byte) : Statement (.setBrightness level) :=
  ⟨rfl, _, _, rfl, by simp [rowOf]⟩

theorem srBit (bit : Bool) : Statement (.srBit bit) :=
  ⟨rfl, _, _, rfl, by simp [rowOf]⟩

theorem srLatch : Statement .srLatch := ⟨rfl, _, _, rfl, rfl⟩

theorem sendPattern (pattern : Byte) : Statement (.sendPattern pattern) :=
  ⟨rfl, _, _, rfl, by simp [rowOf]⟩

theorem ledPattern (distance : Dist) (threshold : Dist) : Statement (.ledPattern distance threshold) :=
  ⟨rfl, _, _, rfl, by simp [rowOf]⟩

theorem adcSample : Statement .adcSample := ⟨rfl, _, _, rfl, rfl⟩

theorem classify (sample : Nat) : Statement (.classify sample) :=
  ⟨rfl, _, _, rfl, by simp [rowOf]⟩

theorem readRaw : Statement .readRaw := ⟨rfl, _, _, rfl, rfl⟩

theorem readDebounced : Statement .readDebounced := ⟨rfl, _, _, rfl, rfl⟩

theorem tick : Statement .tick := ⟨rfl, _, _, rfl, rfl⟩

theorem rangingCycle : Statement .rangingCycle := ⟨rfl, _, _, rfl, rfl⟩

theorem showError : Statement .showError := ⟨rfl, _, _, rfl, rfl⟩

theorem showDistance (raw : Nat) : Statement (.showDistance raw) :=
  ⟨rfl, _, _, rfl, by simp [rowOf]⟩

theorem showThreshold : Statement .showThreshold := ⟨rfl, _, _, rfl, rfl⟩

theorem thrAdjust (delta : Int) : Statement (.thrAdjust delta) :=
  ⟨rfl, _, _, rfl, by simp [rowOf]⟩

theorem cmToInch (cm : Dist) : Statement (.cmToInch cm) :=
  ⟨rfl, _, _, rfl, by simp [rowOf]⟩

theorem thrInUnit : Statement .thrInUnit := ⟨rfl, _, _, rfl, rfl⟩

theorem delayUs (n : Nat) : Statement (.delayUs n) :=
  ⟨rfl, _, _, rfl, by simp [rowOf]⟩

theorem delayMs (n : Nat) : Statement (.delayMs n) :=
  ⟨rfl, _, _, rfl, by simp [rowOf]⟩

theorem logText (text : Text) : Statement (.logText text) :=
  ⟨rfl, _, _, rfl, by simp [rowOf]⟩

theorem logNumber (number : BitVec 32) : Statement (.logNumber number) :=
  ⟨rfl, _, _, rfl, by simp [rowOf]⟩

theorem reset : Statement .reset := ⟨rfl, _, _, rfl, rfl⟩

theorem boot : Statement .boot := ⟨rfl, _, _, rfl, rfl⟩

theorem mNone : Statement .mNone := ⟨rfl, _, _, rfl, rfl⟩

theorem mMode : Statement .mMode := ⟨rfl, _, _, rfl, rfl⟩

theorem mUp : Statement .mUp := ⟨rfl, _, _, rfl, rfl⟩

theorem mDown : Statement .mDown := ⟨rfl, _, _, rfl, rfl⟩

theorem sNone : Statement .sNone := ⟨rfl, _, _, rfl, rfl⟩

theorem sMode : Statement .sMode := ⟨rfl, _, _, rfl, rfl⟩

theorem sUp : Statement .sUp := ⟨rfl, _, _, rfl, rfl⟩

theorem sDown : Statement .sDown := ⟨rfl, _, _, rfl, rfl⟩

theorem fRecover (ignored : BitVec 3) : Statement (.fRecover ignored) :=
  ⟨rfl, _, _, rfl, by revert ignored; decide⟩

theorem cmdAutoinc : Statement .cmdAutoinc := ⟨rfl, _, _, rfl, rfl⟩

theorem cmdAddr0 : Statement .cmdAddr0 := ⟨rfl, _, _, rfl, rfl⟩

theorem cmdCtrl (level : BitVec 3) : Statement (.cmdCtrl level) :=
  ⟨rfl, _, _, rfl, by revert level; decide⟩

end HeadWord

end Sys2Proof.Laws
end

