-- ==== Sys2Proof/Laws/Polls.lean ====
section
/-! SUPPORT. The capture waits poll by poll, for a schedule that is known: which poll an event falls before,
and what a measurement has done when its wait begins. -/

namespace Sys2Proof.Machine

/-! ## Delivery does not read the schedule it was started with -/

theorem echoTo_setSchedule (s : State) (x : List (Nat × EnvEvent)) (v : Bool) :
    (s.setSchedule x).echoTo v = (s.echoTo v).setSchedule x := by
  unfold State.echoTo
  by_cases h : s.env.echo = v
  · rw [if_pos (by exact h), if_pos h]
  · rw [if_neg (by exact h), if_neg h]
    by_cases h2 : s.capu.edge = edgeTo v
    · rw [if_pos (by exact h2), if_pos h2]
      cases hc : s.cfg.overcapture <;> cases hf : s.capu.cf <;>
        simp [State.capture, State.setSchedule, State.setEnv, State.setCapu, Env.nextOver, Env.dropOver, hc, hf]
    · rw [if_neg (by exact h2), if_neg h2]
      rfl

theorem deliver_setSchedule : ∀ (l x : List (Nat × EnvEvent)) (s : State),
    State.deliver l (s.setSchedule x) = State.deliver l s
  | [], _, _ => rfl
  | (0, .reset) :: _, _, _ => rfl
  | (0, .cnt n) :: rest, x, s => by
    simp only [State.deliver]
    exact deliver_setSchedule rest x (s.cntTicks n)
  | (0, .echo v) :: rest, x, s => by
    simp only [State.deliver, echoTo_setSchedule]
    exact deliver_setSchedule rest x (s.echoTo v)
  | (_ + 1, _) :: _, _, _ => rfl

/-- The counter's event in front of the others. -/
theorem window_cnt {s : State} {n : Nat} {rest : List (Nat × EnvEvent)} (h : s.env.schedule = (0, .cnt n) :: rest) :
    s.window = ((s.cntTicks n).setSchedule rest).window := by
  unfold State.window
  rw [h]
  show _ = match State.deliver rest ((s.cntTicks n).setSchedule rest) with
    | .ok t => Except.ok t.countMicro | .error t => .error t
  rw [deliver_setSchedule]
  rfl

/-- ECHO's event in front of the others. -/
theorem window_echo {s : State} {v : Bool} {rest : List (Nat × EnvEvent)} (h : s.env.schedule = (0, .echo v) :: rest) :
    s.window = ((s.echoTo v).setSchedule rest).window := by
  unfold State.window
  rw [h]
  show _ = match State.deliver rest ((s.echoTo v).setSchedule rest) with
    | .ok t => Except.ok t.countMicro | .error t => .error t
  rw [deliver_setSchedule]
  rfl

/-! ## A state in the midst of a wait -/

/-- A state at another point of a wait: the events to come, POLLN and the micro-step count. -/
def State.waiting (s : State) (sched : List (Nat × EnvEvent)) (polln : Nat) (micro : Nat) : State :=
  { s with env := { s.env with schedule := sched }, work := { s.work with polln := polln }, micro := micro }

theorem waiting_self (s : State) : s.waiting s.env.schedule s.work.polln s.micro = s := rfl

theorem waiting_later (s : State) (k : Nat) (e : EnvEvent) (rest : List (Nat × EnvEvent)) (p : Nat) (m : Nat) :
    (s.waiting ((k + 1, e) :: rest) p m).window = .ok (s.waiting ((k, e) :: rest) p (m + 1)) := rfl

theorem waiting_quiet (s : State) (p : Nat) (m : Nat) :
    (s.waiting [] p m).window = .ok (s.waiting [] p (m + 1)) := rfl

/-- A configured edge with CF = 0 in front of the others. -/
theorem waiting_capture (s : State) (v : Bool) (rest : List (Nat × EnvEvent)) (p : Nat) (m : Nat)
    (he : s.env.echo = !v) (hedge : s.capu.edge = edgeTo v) (hc : s.capu.cf = false) :
    (s.waiting ((0, .echo v) :: rest) p m).window =
      (State.waiting { s with
        env := { s.env with echo := v }
        capu := ⟨s.capu.cnt, s.capu.cnt, edgeTo v, true⟩ } rest p m).window := by
  rw [window_echo rfl]
  congr 1
  unfold State.echoTo
  rw [if_neg (by show ¬ s.env.echo = v; rw [he]; cases v <;> simp), if_pos (by exact hedge)]
  simp [State.capture, State.waiting, State.setSchedule, State.setEnv, State.setCapu, Capu.capture, hc, hedge]

/-- Ticks of the counter in front of the others. -/
theorem waiting_cnt (s : State) (n : Nat) (rest : List (Nat × EnvEvent)) (p : Nat) (m : Nat) :
    (s.waiting ((0, .cnt n) :: rest) p m).window =
      (State.waiting { s with capu := s.capu.count s.cfg n } rest p m).window := window_cnt rfl

/-! ## Polls -/

theorem pollLoop_eq (timeout : Nat) (fuel : Nat) : pollLoop timeout fuel =
    pollOnce timeout (match fuel with | 0 => pure .timedOut | fuel + 1 => pollLoop timeout fuel) := by
  cases fuel <;> rfl

theorem continueWait_apply (timeout : Nat) (s : State) :
    continueWait timeout s = pollLoop (s.cfg.polls timeout) (s.cfg.polls timeout) s := rfl

/-- A poll that reads 0, window by window: the read, the test, the count, the comparison and, within the budget, the
jump. -/
theorem pollOnce_miss (timeout : Nat) (again : Op WaitResult) {s s1 s2 s3 s4 : State} (h1 : s.window = .ok s1)
    (hc : s1.capu.cf = false) (h2 : s1.window = .ok s2) (h3 : s2.window = .ok s3)
    (h4 : (s3.setWork { s3.work with polln := s3.cfg.polls (s3.work.polln + 1) }).window = .ok s4) :
    pollOnce timeout again s =
      if timeout ≤ s4.work.polln then .ok (.timedOut, s4) else (control >>= fun _ => again) s4 := by
  unfold pollOnce
  rw [bind_ok (show cfRead s = .ok (s1.capu.cf, s1) from look_ok h1), hc,
    bind_ok (show control s1 = .ok ((), s2) from act_ok h2)]
  simp only [Bool.false_eq_true, if_false]
  rw [bind_ok (show countPoll s2 = .ok ((), s3.setWork { s3.work with polln := s3.cfg.polls (s3.work.polln + 1) }) from
    act_ok h3), bind_ok (look_ok h4)]
  show (if timeout ≤ s4.work.polln then _ else _ : Op WaitResult) _ = _
  split <;> rfl

/-- A poll that reads 1. -/
theorem pollOnce_hit (timeout : Nat) (again : Op WaitResult) {s t u : State} (h : s.window = .ok t)
    (hc : t.capu.cf = true) (hu : t.window = .ok u) : pollOnce timeout again s = .ok (.captured, u) := by
  unfold pollOnce
  rw [bind_ok (show cfRead s = .ok (t.capu.cf, t) from look_ok h), hc,
    bind_ok (show control t = .ok ((), u) from act_ok hu)]
  rfl

/-- A poll that reads 0, with the next event behind its five micro-steps. -/
theorem waiting_miss_later (timeout : Nat) (again : Op WaitResult) {s : State} (hc : s.capu.cf = false) (k : Nat)
    (e : EnvEvent) (rest : List (Nat × EnvEvent)) (p m : Nat) :
    pollOnce timeout again (s.waiting ((k + 5, e) :: rest) p m) =
      if timeout ≤ s.cfg.polls (p + 1) then
        .ok (.timedOut, s.waiting ((k + 1, e) :: rest) (s.cfg.polls (p + 1)) (m + 4))
      else again (s.waiting ((k, e) :: rest) (s.cfg.polls (p + 1)) (m + 5)) := by
  rw [pollOnce_miss timeout again (waiting_later s (k + 4) e rest p m) hc (waiting_later s (k + 3) e rest p (m + 1))
    (waiting_later s (k + 2) e rest p (m + 2)) (waiting_later s (k + 1) e rest (s.cfg.polls (p + 1)) (m + 3)),
    bind_ok (show control _ = .ok ((), _) from act_ok (waiting_later s k e rest (s.cfg.polls (p + 1)) (m + 4)))]
  rfl

/-- A poll that reads 0, with no event to come. -/
theorem waiting_miss_quiet (timeout : Nat) (again : Op WaitResult) {s : State} (hc : s.capu.cf = false) (p m : Nat) :
    pollOnce timeout again (s.waiting [] p m) =
      if timeout ≤ s.cfg.polls (p + 1) then .ok (.timedOut, s.waiting [] (s.cfg.polls (p + 1)) (m + 4))
      else again (s.waiting [] (s.cfg.polls (p + 1)) (m + 5)) := by
  rw [pollOnce_miss timeout again (waiting_quiet s p m) hc (waiting_quiet s p (m + 1)) (waiting_quiet s p (m + 2))
    (waiting_quiet s (s.cfg.polls (p + 1)) (m + 3)),
    bind_ok (show control _ = .ok ((), _) from act_ok (waiting_quiet s (s.cfg.polls (p + 1)) (m + 4)))]
  rfl

/-- A state in which ECHO has just gone to a level that EDGE selects. -/
def State.captured (s : State) (v : Bool) : State :=
  { s with
    env := { s.env with echo := v }
    capu := ⟨s.capu.cnt, s.capu.cnt, edgeTo v, true⟩ }

/-- A configured edge with CF = 0 is the last event to come. -/
theorem waiting_edge {s : State} {v : Bool} (he : s.env.echo = !v) (hedge : s.capu.edge = edgeTo v)
    (hc : s.capu.cf = false) (p m : Nat) :
    (s.waiting [(0, .echo v)] p m).window = .ok ((s.captured v).waiting [] p (m + 1)) :=
  (waiting_capture s v [] p m he hedge hc).trans (waiting_quiet _ _ _)

/-- A poll that reads 0, with a configured edge due in one of the windows behind the read: before the test, the count,
the comparison (d = 0, 1, 2) or the jump (d = 3), which a poll that ends the budget does not reach. -/
theorem waiting_miss_edge (timeout : Nat) (again : Op WaitResult) {s : State} {v : Bool} (he : s.env.echo = !v)
    (hedge : s.capu.edge = edgeTo v) (hc : s.capu.cf = false) (d p m : Nat) (hd : d ≤ 3) :
    pollOnce timeout again (s.waiting [(d + 1, .echo v)] p m) =
      if timeout ≤ s.cfg.polls (p + 1) then
        .ok (.timedOut, if d = 3 then s.waiting [(0, .echo v)] (s.cfg.polls (p + 1)) (m + 4)
          else (s.captured v).waiting [] (s.cfg.polls (p + 1)) (m + 4))
      else again ((s.captured v).waiting [] (s.cfg.polls (p + 1)) (m + 5)) := by
  have edge : ∀ p m, (s.waiting [(0, .echo v)] p m).window = .ok ((s.captured v).waiting [] p (m + 1)) :=
    waiting_edge he hedge hc
  have quiet : ∀ p m, ((s.captured v).waiting [] p m).window = .ok ((s.captured v).waiting [] p (m + 1)) :=
    waiting_quiet (s.captured v)
  have later : ∀ k p m, (s.waiting [(k + 1, .echo v)] p m).window = .ok (s.waiting [(k, .echo v)] p (m + 1)) :=
    fun k => waiting_later s k _ []
  have hcases : d = 0 ∨ d = 1 ∨ d = 2 ∨ d = 3 := by omega
  rcases hcases with rfl | rfl | rfl | rfl
  · rw [pollOnce_miss timeout again (later 0 p m) hc (edge p (m + 1)) (quiet p (m + 2))
      (quiet (s.cfg.polls (p + 1)) (m + 3)), bind_ok (show control _ = .ok ((), _) from act_ok (quiet _ (m + 4)))]
    rfl
  · rw [pollOnce_miss timeout again (later 1 p m) hc (later 0 p (m + 1)) (edge p (m + 2))
      (quiet (s.cfg.polls (p + 1)) (m + 3)), bind_ok (show control _ = .ok ((), _) from act_ok (quiet _ (m + 4)))]
    rfl
  · rw [pollOnce_miss timeout again (later 2 p m) hc (later 1 p (m + 1)) (later 0 p (m + 2))
      (edge (s.cfg.polls (p + 1)) (m + 3)), bind_ok (show control _ = .ok ((), _) from act_ok (quiet _ (m + 4)))]
    rfl
  · rw [pollOnce_miss timeout again (later 3 p m) hc (later 2 p (m + 1)) (later 1 p (m + 2))
      (later 0 (s.cfg.polls (p + 1)) (m + 3)), bind_ok (show control _ = .ok ((), _) from act_ok (edge _ (m + 4)))]
    rfl

/-- j polls that read 0, before the next event is due. -/
theorem pollLoop_misses {s : State} {timeout : Nat} (hT : timeout < 2 ^ s.cfg.pollBits) (hc : s.capu.cf = false)
    (k : Nat) (e : EnvEvent) (rest : List (Nat × EnvEvent)) : ∀ (j fuel : Nat) (p : Nat) (m : Nat),
      p + j < timeout → j ≤ fuel →
      pollLoop timeout fuel (s.waiting ((5 * j + k, e) :: rest) p m) =
        pollLoop timeout (fuel - j) (s.waiting ((k, e) :: rest) (p + j) (m + 5 * j)) := by
  intro j
  induction j with
  | zero => intro fuel p m _ _; simp
  | succ j ih =>
    intro fuel p m h1 h2
    obtain ⟨f, rfl⟩ : ∃ f, fuel = f + 1 := ⟨fuel - 1, by omega⟩
    have hp : s.cfg.polls (p + 1) = p + 1 := Config.polls_of_lt (by omega)
    rw [show 5 * (j + 1) + k = (5 * j + k) + 5 by omega, pollLoop_eq, waiting_miss_later _ _ hc, hp,
      if_neg (by omega), show f + 1 - (j + 1) = f - j by omega, show m + 5 * (j + 1) = m + 5 + 5 * j by omega,
      show p + (j + 1) = p + 1 + j by omega]
    exact ih f (p + 1) (m + 5) (by omega) (by omega)

/-- The poll count a wait that used its budget ends with. -/
theorem polls_last {cfg : Config} {timeout p : Nat} (hT : timeout < 2 ^ cfg.pollBits) (h1 : p < max timeout 1)
    (h2 : timeout ≤ p + 1) : cfg.polls (p + 1) = cfg.polls (max timeout 1) ∧ timeout ≤ cfg.polls (p + 1) ∧
      max timeout 1 - p = 1 := by
  have hm : p + 1 = max timeout 1 := by omega
  refine ⟨by rw [hm], ?_, by omega⟩
  by_cases h0 : timeout = 0
  · omega
  · rw [Config.polls_of_lt] <;> omega

/-- With no event to come and CF = 0 every poll reads 0 until the budget is used. -/
theorem pollLoop_quiet {s : State} {timeout : Nat} (hT : timeout < 2 ^ s.cfg.pollBits) (hc : s.capu.cf = false) :
    ∀ (fuel : Nat) (p : Nat) (m : Nat), p < max timeout 1 → timeout - p ≤ fuel + 1 →
    pollLoop timeout fuel (s.waiting [] p m) =
      .ok (.timedOut, s.waiting [] (s.cfg.polls (max timeout 1)) (m + (5 * (max timeout 1 - p) - 1))) := by
  intro fuel
  induction fuel with
  | zero =>
    intro p m h1 h2
    obtain ⟨h3, h4, h5⟩ := polls_last hT h1 (by omega)
    rw [pollLoop_eq, waiting_miss_quiet _ _ hc, if_pos h4, h3, h5]
  | succ f ih =>
    intro p m h1 h2
    rw [pollLoop_eq, waiting_miss_quiet _ _ hc]
    by_cases hl : timeout ≤ p + 1
    · obtain ⟨h3, h4, h5⟩ := polls_last hT h1 hl
      rw [if_pos h4, h3, h5]
    · have hp : s.cfg.polls (p + 1) = p + 1 := Config.polls_of_lt (by omega)
      rw [hp, if_neg hl]
      dsimp only
      rw [ih (p + 1) (m + 5) (by omega) (by omega),
        show m + 5 + (5 * (max timeout 1 - (p + 1)) - 1) = m + (5 * (max timeout 1 - p) - 1) by omega]

/-- An event that sets CF before poll j + 1, within the budget: that poll sees it. -/
theorem pollLoop_hit {s t u : State} {timeout : Nat} (hT : timeout < 2 ^ s.cfg.pollBits) (hc : s.capu.cf = false)
    {j : Nat} {p : Nat} {m fuel : Nat} {e : EnvEvent} {rest : List (Nat × EnvEvent)} (h1 : p + j < max timeout 1)
    (h2 : timeout - p ≤ fuel + 1) (ht : (s.waiting ((0, e) :: rest) (p + j) (m + 5 * j)).window = .ok t)
    (hcf : t.capu.cf = true) (hu : t.window = .ok u) :
    pollLoop timeout fuel (s.waiting ((5 * j, e) :: rest) p m) = .ok (.captured, u) := by
  by_cases hj : j = 0
  · subst hj
    rw [Nat.add_zero, Nat.mul_zero, Nat.add_zero] at ht
    rw [Nat.mul_zero, pollLoop_eq, pollOnce_hit _ _ ht hcf hu]
  · have := pollLoop_misses hT hc 0 e rest j fuel p m (by omega) (by omega)
    rw [Nat.add_zero] at this
    rw [this, pollLoop_eq, pollOnce_hit _ _ ht hcf hu]

/-! ## Single micro-steps before the next event -/

/-- One micro-step before the next event: the parts a measurement's own steps write, and the rest. -/
structure Advanced (s t : State) (sched : List (Nat × EnvEvent)) (c : Capu) (w : Work) (p : Pins)
    (tr : List TraceEvent) : Prop where
  capu : t.capu = c
  env : t.env = { s.env with schedule := sched }
  work : t.work = w
  pins : t.pins = p
  trace : t.trace = tr
  ctrl : t.ctrl = s.ctrl
  cfg : t.cfg = s.cfg
  display : t.display = s.display
  leds : t.leds = s.leds
  seq : t.seq = s.seq
  micro : t.micro = s.micro + 1

theorem advanced_cfClear {s : State} {k : Nat} {e : EnvEvent} {rest : List (Nat × EnvEvent)}
    (h : s.env.schedule = (k + 1, e) :: rest) : ∃ t, cfClear s = .ok ((), t) ∧
      Advanced s t ((k, e) :: rest) { s.capu with cf := false } s.work s.pins s.trace :=
  ⟨_, act_ok (window_later h), by constructor <;> rfl⟩

theorem advanced_setEdge {s : State} {k : Nat} {e : EnvEvent} {rest : List (Nat × EnvEvent)} (d : Edge)
    (h : s.env.schedule = (k + 1, e) :: rest) : ∃ t, setEdge d s = .ok ((), t) ∧
      Advanced s t ((k, e) :: rest) { s.capu with edge := d } s.work s.pins s.trace :=
  ⟨_, act_ok (window_later h), by constructor <;> rfl⟩

theorem advanced_work {s : State} {k : Nat} {e : EnvEvent} {rest : List (Nat × EnvEvent)} (f : State → Work)
    (hf : ∀ x, f ((s.setSchedule x).countMicro) = f s) (h : s.env.schedule = (k + 1, e) :: rest) :
    ∃ t, (act fun s => s.setWork (f s)) s = .ok ((), t) ∧
      Advanced s t ((k, e) :: rest) s.capu (f s) s.pins s.trace :=
  ⟨_, act_ok (window_later h), by constructor <;> first | rfl | exact hf _⟩

theorem advanced_delay {s : State} {k : Nat} {e : EnvEvent} {rest : List (Nat × EnvEvent)} (d : DelayKind)
    (h : s.env.schedule = (k + 1, e) :: rest) : ∃ t, delay d s = .ok ((), t) ∧
      Advanced s t ((k, e) :: rest) s.capu s.work s.pins (.delay d :: s.trace) :=
  ⟨_, act_ok (window_later h), by constructor <;> rfl⟩

theorem writePin_trig (v : Bool) (s : State) :
    s.writePin .trig v = (s.setPins { s.pins with trig := v }).addTrace (.write .trig v) := by
  show s.drive _ _ = _
  rw [State.drive_of_same_bus]
  · exact State.senseLeds_none rfl rfl
  all_goals rfl

theorem advanced_trig {s : State} {k : Nat} {e : EnvEvent} {rest : List (Nat × EnvEvent)} (v : Bool)
    (h : s.env.schedule = (k + 1, e) :: rest) : ∃ t, pinWrite .trig v s = .ok ((), t) ∧
      Advanced s t ((k, e) :: rest) s.capu s.work { s.pins with trig := v } (.write .trig v :: s.trace) := by
  refine ⟨_, act_ok (window_later h), ?_⟩
  rw [writePin_trig]
  constructor <;> rfl

/-- MEASURE_RAW up to the polls of its first wait, for an event not before them. -/
theorem measureRaw_wait (timeout : Nat) {s : State} {k : Nat} {e : EnvEvent} {rest : List (Nat × EnvEvent)}
    (hs : s.env.schedule = (k + 6, e) :: rest) :
    ∃ t : State, t.capu = { s.capu with edge := .rising, cf := false } ∧
      t.env = { s.env with schedule := (k, e) :: rest } ∧ t.work = { s.work with polln := 0 } ∧
      t.pins = { s.pins with trig := false } ∧ t.ctrl = s.ctrl ∧ t.cfg = s.cfg ∧ t.micro = s.micro + 6 ∧
      t.trace = [.write .trig false, .delay (.param .trig), .write .trig true] ++ s.trace ∧
      measureRaw timeout s = (do
        let r ← pollLoop (s.cfg.polls timeout) (s.cfg.polls timeout)
        match r with
        | .timedOut => pure 0
        | .captured => measureFall timeout) t := by
  obtain ⟨s1, h1, a1⟩ := advanced_cfClear (k := k + 5) hs
  obtain ⟨s2, h2, a2⟩ := advanced_setEdge (k := k + 4) (e := e) (rest := rest) .rising (s := s1) (by rw [a1.env])
  obtain ⟨s3, h3, a3⟩ := advanced_trig (k := k + 3) (e := e) (rest := rest) true (s := s2) (by rw [a2.env])
  obtain ⟨s4, h4, a4⟩ := advanced_delay (k := k + 2) (e := e) (rest := rest) (.param .trig) (s := s3) (by rw [a3.env])
  obtain ⟨s5, h5, a5⟩ := advanced_trig (k := k + 1) (e := e) (rest := rest) false (s := s4) (by rw [a4.env])
  obtain ⟨s6, h6, a6⟩ := advanced_work (k := k) (e := e) (rest := rest) (fun s => { s.work with polln := 0 })
    (fun _ => rfl) (s := s5) (by rw [a5.env])
  have hcfg : s6.cfg = s.cfg := by rw [a6.cfg, a5.cfg, a4.cfg, a3.cfg, a2.cfg, a1.cfg]
  refine ⟨s6, ?_, ?_, ?_, ?_, ?_, hcfg, ?_, ?_, ?_⟩
  · rw [a6.capu, a5.capu, a4.capu, a3.capu, a2.capu, a1.capu]
  · rw [a6.env, a5.env, a4.env, a3.env, a2.env, a1.env]
  · rw [a6.work, a5.work, a4.work, a3.work, a2.work, a1.work]
  · rw [a6.pins, a5.pins, a4.pins, a3.pins, a2.pins, a1.pins]
  · rw [a6.ctrl, a5.ctrl, a4.ctrl, a3.ctrl, a2.ctrl, a1.ctrl]
  · rw [a6.micro, a5.micro, a4.micro, a3.micro, a2.micro, a1.micro]
  · rw [a6.trace, a5.trace, a4.trace, a3.trace, a2.trace, a1.trace]
    rfl
  · have ht : trigPulse s2 = .ok ((), s5) := by
      unfold trigPulse
      rw [bind_ok h3, bind_ok h4, h5]
    have hw : waitCapture timeout s5 = pollLoop (s.cfg.polls timeout) (s.cfg.polls timeout) s6 := by
      unfold waitCapture
      exact (bind_ok h6).trans (by rw [continueWait_apply, hcfg])
    unfold measureRaw
    rw [bind_ok h1, bind_ok h2, bind_ok ht, bind_apply, bind_apply, hw] <;> rfl

/-- M5 to M11 up to the polls of the second wait, for an event not before them. -/
theorem measureFall_wait (timeout : Nat) {s : State} {k : Nat} {e : EnvEvent} {rest : List (Nat × EnvEvent)}
    (hs : s.env.schedule = (k + (if s.cfg.timeoutRestart then 4 else 3), e) :: rest) :
    ∃ t : State, t.capu = { s.capu with edge := .falling, cf := false } ∧
      t.env = { s.env with schedule := (k, e) :: rest } ∧
      t.work = { s.work with rise := s.capu.ccr, polln := if s.cfg.timeoutRestart then 0 else s.work.polln } ∧
      t.pins = s.pins ∧ t.ctrl = s.ctrl ∧ t.cfg = s.cfg ∧
      t.micro = s.micro + (if s.cfg.timeoutRestart then 4 else 3) ∧ t.trace = s.trace ∧
      measureFall timeout s = (do
        let r ← pollLoop (s.cfg.polls timeout) (s.cfg.polls timeout)
        match r with
        | .timedOut => do
          setEdge .rising
          pure 0
        | .captured => do
          act fun s => s.setWork { s.work with fall := s.capu.ccr }
          setEdge .rising
          look fun s => pulseTicks s.cfg s.work.rise s.work.fall) t := by
  cases hr : s.cfg.timeoutRestart
  · rw [hr] at hs
    obtain ⟨s1, h1, a1⟩ := advanced_work (k := k + 2) (e := e) (rest := rest) (fun s => { s.work with rise := s.capu.ccr })
      (fun _ => rfl) hs
    obtain ⟨s2, h2, a2⟩ := advanced_cfClear (k := k + 1) (e := e) (rest := rest) (s := s1) (by rw [a1.env])
    obtain ⟨s3, h3, a3⟩ := advanced_setEdge (k := k) (e := e) (rest := rest) .falling (s := s2) (by rw [a2.env])
    have hcfg : s3.cfg = s.cfg := by rw [a3.cfg, a2.cfg, a1.cfg]
    have h4 : secondWait timeout s3 = pollLoop (s.cfg.polls timeout) (s.cfg.polls timeout) s3 := by
      unfold secondWait
      rw [bind_ok (query_apply _ _), show s3.cfg.timeoutRestart = false by rw [hcfg, hr]]
      show continueWait timeout s3 = _
      rw [continueWait_apply, hcfg]
    refine ⟨s3, ?_, ?_, ?_, ?_, ?_, ?_, ?_, ?_, ?_⟩
    · rw [a3.capu, a2.capu, a1.capu]
    · rw [a3.env, a2.env, a1.env]
    · rw [a3.work, a2.work, a1.work]
      rfl
    · rw [a3.pins, a2.pins, a1.pins]
    · rw [a3.ctrl, a2.ctrl, a1.ctrl]
    · rw [a3.cfg, a2.cfg, a1.cfg]
    · rw [a3.micro, a2.micro, a1.micro]
      rfl
    · rw [a3.trace, a2.trace, a1.trace]
    · unfold measureFall
      rw [bind_ok h1, bind_ok h2, bind_ok h3, bind_apply, bind_apply, h4] <;> rfl
  · rw [hr] at hs
    obtain ⟨s1, h1, a1⟩ := advanced_work (k := k + 3) (e := e) (rest := rest) (fun s => { s.work with rise := s.capu.ccr })
      (fun _ => rfl) hs
    obtain ⟨s2, h2, a2⟩ := advanced_cfClear (k := k + 2) (e := e) (rest := rest) (s := s1) (by rw [a1.env])
    obtain ⟨s3, h3, a3⟩ := advanced_setEdge (k := k + 1) (e := e) (rest := rest) .falling (s := s2) (by rw [a2.env])
    obtain ⟨s4, h5, a4⟩ := advanced_work (k := k) (e := e) (rest := rest) (fun s => { s.work with polln := 0 })
      (fun _ => rfl) (s := s3) (by rw [a3.env])
    have hcfg : s4.cfg = s.cfg := by rw [a4.cfg, a3.cfg, a2.cfg, a1.cfg]
    have h4 : secondWait timeout s3 = pollLoop (s.cfg.polls timeout) (s.cfg.polls timeout) s4 := by
      unfold secondWait
      rw [bind_ok (query_apply _ _), show s3.cfg.timeoutRestart = true by rw [a3.cfg, a2.cfg, a1.cfg, hr]]
      show waitCapture timeout s3 = _
      unfold waitCapture
      exact (bind_ok h5).trans (by rw [continueWait_apply, hcfg])
    refine ⟨s4, ?_, ?_, ?_, ?_, ?_, ?_, ?_, ?_, ?_⟩
    · rw [a4.capu, a3.capu, a2.capu, a1.capu]
    · rw [a4.env, a3.env, a2.env, a1.env]
    · rw [a4.work, a3.work, a2.work, a1.work]
      rfl
    · rw [a4.pins, a3.pins, a2.pins, a1.pins]
    · rw [a4.ctrl, a3.ctrl, a2.ctrl, a1.ctrl]
    · rw [a4.cfg, a3.cfg, a2.cfg, a1.cfg]
    · rw [a4.micro, a3.micro, a2.micro, a1.micro]
      rfl
    · rw [a4.trace, a3.trace, a2.trace, a1.trace]
    · unfold measureFall
      rw [bind_ok h1, bind_ok h2, bind_ok h3, bind_apply, bind_apply, h4] <;> rfl

end Sys2Proof.Machine
end

