-- ==== Sys2Proof/Laws/Texts.lean ====
section
/-! SUPPORT. The decimal text and the LED pattern as arithmetic. -/

namespace Sys2Proof.Machine

theorem digitChar_toNat {d : Nat} (h : d < 10) : (digitChar d).toNat = 0x30 + d := by
  simp [digitChar]
  omega

/-- Everything about the digits put in front of a text. -/
theorem decimalAux_spec (fuel v : Nat) (behind : Text) (h : v < fuel) :
    ∃ l : Text, decimalAux fuel v behind = l ++ behind ∧ l ≠ [] ∧
      (∀ c ∈ l, 0x30 ≤ c.toNat ∧ c.toNat ≤ 0x39) ∧
      l.foldl (fun n c => 10 * n + (c.toNat - 0x30)) 0 = v ∧
      (v ≠ 0 → l.head? ≠ some 0x30#8) ∧ (v = 0 → l = [0x30#8]) := by
  induction fuel generalizing v behind with
  | zero => omega
  | succ f ih =>
    unfold decimalAux
    by_cases hv : v < 10
    · rw [if_pos hv]
      refine ⟨[digitChar v], rfl, by simp, ?_, ?_, ?_, ?_⟩
      · simp [digitChar_toNat hv]
        omega
      · simp [digitChar_toNat hv]
      · intro h0 h1
        have := congrArg (Option.map BitVec.toNat) h1
        simp [digitChar_toNat hv] at this
        omega
      · rintro rfl
        rfl
    · rw [if_neg hv]
      obtain ⟨l, h1, h2, h3, h4, h5, h6⟩ := ih (v / 10) (digitChar (v % 10) :: behind) (by omega)
      have hd := digitChar_toNat (Nat.mod_lt v (by omega : 0 < 10))
      refine ⟨l ++ [digitChar (v % 10)], by rw [h1]; simp, by simp, ?_, ?_, ?_, by omega⟩
      · intro c hc
        rcases List.mem_append.1 hc with hc | hc
        · exact h3 c hc
        · rw [List.mem_singleton.1 hc, hd]
          omega
      · rw [List.foldl_append, h4]
        simp [hd]
        omega
      · intro _
        have := h5 (by omega)
        cases l with
        | nil => exact absurd rfl h2
        | cons a l => simpa using this

/-- The digit of 10^i stands i places from the right. -/
theorem decimalAux_digit (fuel v : Nat) (behind : Text) (h : v < fuel) (i : Nat) :
    (decimalAux fuel v behind).reverse[behind.length + i]? =
      if i = 0 ∨ 10 ^ i ≤ v then some (digitChar (v / 10 ^ i % 10)) else none := by
  induction fuel generalizing v behind i with
  | zero => omega
  | succ f ih =>
    unfold decimalAux
    by_cases hv : v < 10
    · rw [if_pos hv]
      cases i with
      | zero => simp; rw [Nat.mod_eq_of_lt hv]
      | succ i =>
        have : ¬ 10 ^ (i + 1) ≤ v := by
          have : 10 ≤ 10 ^ (i + 1) := by
            rw [Nat.pow_succ]
            have := Nat.one_le_pow i 10 (by omega)
            omega
          omega
        simp [this]
    · rw [if_neg hv]
      cases i with
      | zero =>
        obtain ⟨l, h1, _⟩ := decimalAux_spec f (v / 10) (digitChar (v % 10) :: behind) (by omega)
        rw [h1]
        simp
      | succ i =>
        have hi := ih (v / 10) (digitChar (v % 10) :: behind) (by omega) i
        rw [show behind.length + (i + 1) = (digitChar (v % 10) :: behind).length + i by simp; omega, hi]
        have e : v / 10 / 10 ^ i = v / 10 ^ (i + 1) := by
          rw [Nat.div_div_eq_div_mul, Nat.pow_succ, Nat.mul_comm]
        have e2 : (10 ^ i ≤ v / 10) ↔ 10 ^ (i + 1) ≤ v := by
          rw [Nat.le_div_iff_mul_le (by omega), Nat.pow_succ]
        rw [e]
        simp only [e2]
        by_cases h0 : i = 0
        · subst h0
          simp
          omega
        · simp [h0]

/-- The number of LEDs is a quotient; the clamp of R174 never acts. -/
theorem litLeds_eq {d t : Nat} (h : d < t) : litLeds d t = (t - d) * 8 / t := by
  unfold litLeds ledCount
  apply Nat.min_eq_left
  rw [Nat.div_le_iff_le_mul (by omega)]
  have : (t - d) * 8 ≤ 8 * t := by
    rw [Nat.mul_comm]
    exact Nat.mul_le_mul_left _ (by omega)
  omega

theorem lit_le {d t : Nat} (h : d < t) : (t - d) * 8 / t ≤ 8 := by
  rw [← litLeds_eq h]
  exact Nat.min_le_right _ _

theorem ledPattern_lit {d t : Dist} (h : d.toNat < t.toNat) :
    ledPattern d t = BitVec.ofNat 8 (2 ^ ((t.toNat - d.toNat) * 8 / t.toNat) - 1) := by
  unfold ledPattern
  rw [if_neg, litLeds_eq h]
  simp only [BitVec.le_def]
  rintro (rfl | h')
  · simp at h
  · omega

theorem ledPattern_dark {d t : Dist} (h : t.toNat = 0 ∨ t.toNat ≤ d.toNat) : ledPattern d t = 0 := by
  unfold ledPattern
  rw [if_pos]
  simp only [BitVec.le_def]
  rcases h with h | h
  · exact .inl (BitVec.eq_of_toNat_eq h)
  · exact .inr h

/-- The bits of the low run of n ones. -/
theorem lowRun_bits : ∀ n, n ≤ 8 → ∀ i, i < 8 → ((BitVec.ofNat 8 (2 ^ n - 1)).getLsbD i = true ↔ i < n) := by
  decide

/-- Longer low runs are larger bytes. -/
theorem lowRun_mono : ∀ n, n ≤ 8 → ∀ m, m ≤ n →
    (BitVec.ofNat 8 (2 ^ m - 1)).toNat ≤ (BitVec.ofNat 8 (2 ^ n - 1)).toNat := by decide

theorem lowRun_full : ∀ n, n ≤ 8 → (BitVec.ofNat 8 (2 ^ n - 1) = 0xFF ↔ n = 8) := by decide

/-- A quotient of the converter, as a number. -/
theorem ticksToCm_toNat (t : Nat) : (ticksToCm t).toNat = min (t / 58) 400 := by
  unfold ticksToCm cmDiv cmMax
  rw [BitVec.toNat_ofNat, Nat.mod_eq_of_lt]
  show _ < 512
  omega

theorem ticksToInch_toNat (t : Nat) : (ticksToInch t).toNat = min (t / 148) 157 := by
  unfold ticksToInch inDiv inMax
  rw [BitVec.toNat_ofNat, Nat.mod_eq_of_lt]
  show _ < 512
  omega

theorem cmToInch_toNat {cfg : Config} (h : cfg.cm2in = .formula) (c : Dist) :
    (cmToInch cfg c).toNat = min (c.toNat * 100 / 254) 157 := by
  unfold cmToInch inMax
  rw [h]
  rw [BitVec.toNat_ofNat, Nat.mod_eq_of_lt]
  show _ < 512
  omega

end Sys2Proof.Machine
end

