-- ==== Sys2Proof/Laws/Tick.lean ====
section
/-! SUPPORT. What a ranging cycle, the arms of TICK and TICK itself do to the control state. -/

namespace Sys2Proof.Machine

/-- RANGING_CYCLE (R210): the echo that MEASURE_RAW measured, what the cycle shows for it, its trace, and what it
leaves alone. -/
theorem runs_rangingCycle (s : State) : RunsAt rangingCycle s (fun _ t =>
    (∃ echo m, measureRaw s.cfg.measureTimeout s = .ok (echo, m) ∧ t.work.raw = echo ∧
      (s.pins.sclk = false → echo = 0 → t.leds.store = 0 ∧ t.work.frame = frameOf s.cfg s.cfg.errText) ∧
      (s.pins.sclk = false → echo ≠ 0 → t.work.dist = distanceIn s.ctrl.unit echo ∧
        t.work.thru = thresholdIn s.cfg s.ctrl.unit s.ctrl.threshold ∧
        t.work.frame = frameOf s.cfg (numToText t.work.dist.toNat) ∧
        t.leds.store = ledPattern t.work.dist t.work.thru)) ∧
    t.ctrl = s.ctrl ∧ t.work.ev = s.work.ev ∧ t.work.cand = s.work.cand ∧ t.capu.edge = .rising ∧ t.cfg = s.cfg ∧
      ∃ p, t.pins = (Pins.shown p { s.pins with trig := false }) ∧ (s.pins.sclk = false → t.leds.store = p) ∧
        t.trace = ([TraceEvent.write .trig true, .delay (.param .trig), .write .trig false] ++
          updateEvents s.cfg t.work.frame (ackLevels s 6) ++ patternEvents p).reverse ++ s.trace) := by
  rcases runs_measureRaw s.cfg.measureTimeout s with ⟨echo, m, m1, n1, r1, e1, p1, t1, a1⟩ | ⟨m, m1, a1, n1⟩
  swap
  · exact .inr ⟨m, by unfold rangingCycle; rw [bind_ok (query_apply _ _), bind_error m1], a1, n1⟩
  rcases runs_cutWork_silent (fun cfg w => { w with raw := cfg.ticks echo }) m with ⟨_, s2, m2, n2, q2, c2, w2, _⟩ | ⟨u, m2, a2, n2⟩
  swap
  · exact .inr ⟨u, by unfold rangingCycle; rw [bind_ok (query_apply _ _), bind_ok m1, bind_error m2], a2,
      fun h => n2 (n1 h)⟩
  have hraw : s2.work.raw = echo := by
    rw [w2, r1.cfg]
    exact Config.ticks_of_lt a1
  have htrace : s2.trace = [.write .trig false, .delay (.param .trig), .write .trig true] ++ s.trace := by rw [c2.trace, t1]
  have hack : ackLevels s2 6 = ackLevels s 6 := by rw [(r1.bus.trans c2.bus).acked.ackLevels]; rfl
  have hcfg : s2.cfg = s.cfg := by rw [q2.cfg, r1.cfg]
  have hctrl : s2.ctrl = s.ctrl := by rw [q2.ctrl, r1.ctrl]
  have hpins : s2.pins = { s.pins with trig := false } := by rw [c2.pins, p1]
  have hev : s2.work.ev = s.work.ev := by rw [w2, r1.work]
  have hcand : s2.work.cand = s.work.cand := by rw [w2, r1.work]
  have hed : s2.capu.edge = .rising := by rw [q2.edge, e1]
  have hrun : rangingCycle s = (if echo = 0 then showError else showDistance echo) s2 := by
    unfold rangingCycle
    rw [bind_ok (query_apply _ _), bind_ok m1, bind_ok m2, bind_ok (query_apply _ _), hraw]
  have hn : NoReset s → NoReset s2 := fun h => n2 (n1 h)
  unfold RunsAt
  rw [hrun]
  by_cases h : echo = 0
  · rw [if_pos h]
    rcases runs_showError s2 with ⟨_, t, m3, n3, g, w3⟩ | ⟨t, m3, a3, n3⟩
    · refine .inl ⟨(), t, m3, fun h => n3 (hn h), ⟨echo, m, m1, by rw [w3]; exact hraw, fun hc _ => ⟨?_, by rw [w3, hcfg]⟩,
        fun _ h' => absurd h h'⟩, by rw [g.still.ctrl, hctrl], by rw [w3]; exact hev, by rw [w3]; exact hcand,
        by rw [g.still.edge, hed], by rw [g.still.cfg, hcfg], 0, by rw [g.pins, hpins],
        fun hc => by rw [g.leds (by rw [hpins]; exact hc)], by rw [g.trace, w3, hcfg, hack, htrace]; simp⟩
      rw [g.leds (by rw [hpins]; exact hc)]
    · exact .inr ⟨t, m3, a3, fun h => n3 (hn h)⟩
  · rw [if_neg h]
    rcases runs_showDistance echo s2 with ⟨_, t, m3, n3, g, w3⟩ | ⟨t, m3, a3, n3⟩
    · refine .inl ⟨(), t, m3, fun h => n3 (hn h), ⟨echo, m, m1, by rw [w3]; exact hraw, fun _ h' => absurd h' h,
        fun hc _ => ?_⟩, by rw [g.still.ctrl, hctrl], by rw [w3]; exact hev, by rw [w3]; exact hcand,
        by rw [g.still.edge, hed], by rw [g.still.cfg, hcfg], _, by rw [g.pins, hpins],
        fun hc => by rw [g.leds (by rw [hpins]; exact hc)], by rw [g.trace, w3, hcfg, hack, htrace]; simp⟩
      rw [g.leds (by rw [hpins]; exact hc), w3, hctrl, hcfg]
      exact ⟨rfl, rfl, rfl, rfl⟩
    · exact .inr ⟨t, m3, a3, fun h => n3 (hn h)⟩

/-- What an arm does to the control state; EV is not written. -/
def ArmWrites (m : Op Unit) (f : Ctrl → Ctrl) : Prop :=
  Runs m (fun s _ t => t.ctrl = f s.ctrl ∧ t.work.ev = s.work.ev)

theorem armWrites_showThreshold : ArmWrites showThreshold id :=
  runs_showThreshold.mono fun _ _ _ h => ⟨h.1.still.ctrl, by rw [h.2.1]⟩

theorem armWrites_putCtrl (f : Ctrl → Ctrl) : ArmWrites (putCtrl f) f :=
  (runs_putCtrl_frame f).mono fun _ _ _ h => ⟨h.2.2.1, by rw [h.2.2.2.1]⟩

theorem armWrites_delay (k : DelayKind) : ArmWrites (delay k) id :=
  (runs_delay_marker k).mono fun _ _ _ h => ⟨h.1.still.ctrl, by rw [h.1.work]⟩

theorem armWrites_rangingCycle : ArmWrites rangingCycle id :=
  Runs.mono runs_rangingCycle fun _ _ _ h => ⟨h.2.1, h.2.2.1⟩

theorem ArmWrites.bind {m n : Op Unit} {f g : Ctrl → Ctrl} (h : ArmWrites m f) (k : ArmWrites n g) :
    ArmWrites (m >>= fun _ => n) (fun c => g (f c)) :=
  (Runs.bind h fun _ => k).mono fun _ _ _ ⟨_, _, h1, h2⟩ => ⟨by rw [h2.1, h1.1], by rw [h2.2, h1.2]⟩

/-- The control state after the arm that STATE and a button select (R201 to R209). -/
def armCtrl (e : Button) (c : Ctrl) : Ctrl :=
  if c.opState = 0 then
    match e with
    | .none => c
    | .mode => { c with unit := toggleUnit c.unit }
    | .up | .down => { c with opState := 1 }
  else if c.opState = 1 then
    match e with
    | .none => c
    | .mode => { c with opState := 0 }
    | .up => { c with threshold := adjustThreshold c.threshold 10 }
    | .down => { c with threshold := adjustThreshold c.threshold (-10) }
  else { c with opState := 0 }

theorem runs_arm (st : BitVec StateBits) (e : Button) :
    Runs (arm (dispatchWord st e)) (fun s _ t => s.ctrl.opState = st →
      t.ctrl = armCtrl e s.ctrl ∧ t.work.ev = s.work.ev) := by
  have hst : st = 0 ∨ st = 1 ∨ st = 2 ∨ st = 3 := by revert st; decide
  rcases hst with rfl | rfl | rfl | rfl <;> cases e
  · exact (armWrites_rangingCycle.bind (armWrites_delay _)).mono fun s _ t h hs => by simp [armCtrl, hs, h]
  · exact (armWrites_putCtrl fun c => { c with unit := toggleUnit c.unit }).mono fun s _ t h hs => by
      simp [armCtrl, hs, h]
  · exact ((armWrites_putCtrl _).bind armWrites_showThreshold).mono fun s _ t h hs => by simp [armCtrl, hs, h, stSetup]
  · exact ((armWrites_putCtrl _).bind armWrites_showThreshold).mono fun s _ t h hs => by simp [armCtrl, hs, h, stSetup]
  · exact (armWrites_showThreshold.bind (armWrites_delay _)).mono fun s _ t h hs => by simp [armCtrl, hs, h]
  · exact ((armWrites_putCtrl _).bind (armWrites_delay _)).mono fun s _ t h hs => by simp [armCtrl, hs, h, stMeasure]
  · exact ((armWrites_putCtrl _).bind (armWrites_showThreshold.bind (armWrites_delay _))).mono fun s _ t h hs => by
      simp [armCtrl, hs, h, thrStep]
  · exact ((armWrites_putCtrl _).bind (armWrites_showThreshold.bind (armWrites_delay _))).mono fun s _ t h hs => by
      simp [armCtrl, hs, h, thrStep]
  all_goals
    refine (armWrites_putCtrl fun c => { c with opState := stMeasure }).mono fun s _ t h hs => ⟨?_, h.2⟩
    rw [h.1]
    unfold armCtrl
    rw [if_neg (by rw [hs]; decide), if_neg (by rw [hs]; decide)]
    rfl

/-- TICK (R200): the debounced button goes to STABLE and EV, and the selected arm writes the control state. -/
theorem runs_tick :
    Runs tick (fun s _ t => t.ctrl = armCtrl (debounced s) { s.ctrl with stable := debounced s } ∧
      t.work.ev = debounced s) := by
  intro s
  refine (runs_readDebounced s).bind fun a s1 ⟨h1, h2, h3, h4, _⟩ => ?_
  refine (runs_putWork_silent (fun w => { w with ev := a }) s1).bind fun _ s2 ⟨q2, _, w2, _⟩ => ?_
  refine (Runs.query _ s2).bind fun dw s2' ⟨hd, hs⟩ => ?_
  subst hd hs
  refine (runs_arm s2'.ctrl.opState s2'.work.ev s2').mono fun _ t h5 => ?_
  obtain ⟨h5, h6⟩ := h5 rfl
  have e2 : s2'.work.ev = debounced s := by
    rw [w2]
    exact h1
  rw [h5, h6, e2, q2.ctrl, h4]
  exact ⟨rfl, rfl⟩

/-- The arm of a dispatch word is the operation the word decodes to (R87). -/
theorem exec_decodeDw (dw : BitVec 4) (s : State) :
    exec (decodeDw dw) s = .next (run (arm dw) (fun _ => .unit) s) := by
  have : ∀ dw : BitVec 4, dw = 0 ∨ dw = 1 ∨ dw = 2 ∨ dw = 3 ∨ dw = 4 ∨ dw = 5 ∨ dw = 6 ∨ dw = 7 ∨ dw = 8 ∨
    dw = 9 ∨ dw = 10 ∨ dw = 11 ∨ dw = 12 ∨ dw = 13 ∨ dw = 14 ∨ dw = 15 := by decide
  rcases this dw with rfl | rfl | rfl | rfl | rfl | rfl | rfl | rfl | rfl | rfl | rfl | rfl | rfl | rfl | rfl | rfl <;>
    rfl

/-! ## EDGE and the pins at rest (R35 a, d) -/

/-- EDGE = RISING and resting pins are kept. -/
def RestKept (s t : State) : Prop :=
  (s.capu.edge = .rising → t.capu.edge = .rising) ∧ (PinsIdle s.pins → PinsIdle t.pins)

theorem RestKept.of_same {s t : State} (h : t.capu.edge = s.capu.edge) (hp : t.pins = s.pins) : RestKept s t :=
  ⟨fun x => h.trans x, fun x => by rw [hp]; exact x⟩

theorem RestKept.trans {s t u : State} (h : RestKept s t) (g : RestKept t u) : RestKept s u :=
  ⟨fun x => g.1 (h.1 x), fun x => g.2 (h.2 x)⟩

theorem Pins.busIdle_rests {p : Pins} (h : PinsIdle p) : PinsIdle p.busIdle := ⟨h.1, ⟨rfl, rfl, rfl⟩, h.2.2.1, h.2.2.2⟩

theorem Pins.shown_rests (pattern : Byte) {p : Pins} (h : p.trig = false) : PinsIdle (p.shown pattern) :=
  ⟨h, ⟨rfl, rfl, rfl⟩, rfl, rfl⟩

/-- The arms keep them. -/
def RestsAlong (m : Op Unit) : Prop := Runs m (fun s _ t => RestKept s t)

theorem RestsAlong.bind {m n : Op Unit} (h : RestsAlong m) (k : RestsAlong n) : RestsAlong (m >>= fun _ => n) :=
  (Runs.bind h fun _ => k).mono fun _ _ _ ⟨_, _, h1, h2⟩ => h1.trans h2

theorem rests_putCtrl (f : Ctrl → Ctrl) : RestsAlong (putCtrl f) :=
  (runs_putCtrl_frame f).mono fun _ _ _ h => RestKept.of_same h.1.edge h.1.pins

theorem rests_delay (k : DelayKind) : RestsAlong (delay k) :=
  (runs_delay_marker k).mono fun _ _ _ h => RestKept.of_same h.1.still.edge h.1.pins

theorem rests_showThreshold : RestsAlong showThreshold :=
  runs_showThreshold.mono fun _ _ _ h =>
    ⟨fun x => h.1.still.edge.trans x, fun x => by rw [h.1.pins]; exact Pins.busIdle_rests x⟩

theorem rests_rangingCycle : RestsAlong rangingCycle :=
  Runs.mono runs_rangingCycle fun _ _ _ h => by
    obtain ⟨_, _, _, _, he, _, p, hp, _⟩ := h
    exact ⟨fun _ => he, fun _ => by rw [hp]; exact Pins.shown_rests p rfl⟩

theorem rests_arm (dw : BitVec 4) : RestsAlong (arm dw) := by
  unfold arm
  split
  · exact rests_rangingCycle.bind (rests_delay _)
  · exact rests_putCtrl _
  · exact (rests_putCtrl _).bind rests_showThreshold
  · exact (rests_putCtrl _).bind rests_showThreshold
  · exact rests_showThreshold.bind (rests_delay _)
  · exact (rests_putCtrl _).bind (rests_delay _)
  · exact (rests_putCtrl _).bind (rests_showThreshold.bind (rests_delay _))
  · exact (rests_putCtrl _).bind (rests_showThreshold.bind (rests_delay _))
  · exact rests_putCtrl fun c => { c with opState := stMeasure }

theorem rests_tick : RestsAlong tick :=
  (Runs.bind runs_readDebounced fun _ => Runs.bind (runs_putWork_silent _) fun _ => Runs.bind (Runs.query _) fun dw =>
    rests_arm dw).mono fun s _ t h => by
    obtain ⟨_, s1, ⟨_, b, _⟩, _, s2, ⟨q2, c2, _⟩, dw, s3, ⟨_, h3⟩, h⟩ := h
    subst h3
    exact (RestKept.of_same b.edge b.pins).trans ((RestKept.of_same q2.edge c2.pins).trans h)

end Sys2Proof.Machine
end

