-- ==== Sys2Proof/Laws/Words.lean ====
section
/-! SUPPORT. Reading back what the encoder writes, operand by operand. -/

namespace Sys2Proof

theorem readBit_bitBytes (b : Bool) (rest : List Byte) : readBit (bitBytes b ++ rest) = .ok (b, rest) := by
  cases b <;> rfl

theorem halves_append (v : BitVec 16) : (v.extractLsb' 8 8 ++ v.extractLsb' 0 8 : BitVec 16) = v := by
  apply BitVec.eq_of_getLsbD_eq
  intro i hi
  simp only [BitVec.getLsbD_append, BitVec.getLsbD_extractLsb']
  by_cases h : i < 8
  · simp [h]
  · rw [if_neg h]
    have : i - 8 < 8 := by omega
    simp only [this, decide_true, Bool.true_and]
    congr 1
    omega

theorem readHalf_halfBytes {w : Nat} (v : BitVec w) (rest : List Byte) :
    readHalf (halfBytes v ++ rest) = .ok (v.setWidth 16, rest) := by
  simp only [halfBytes, List.cons_append, List.nil_append, readHalf, halves_append]

theorem readWord_wordBytes (v : BitVec 32) (rest : List Byte) : readWord (wordBytes v ++ rest) = .ok (v, rest) := by
  simp only [wordBytes, List.cons_append, List.nil_append, readWord]
  congr 2
  apply BitVec.eq_of_getLsbD_eq
  intro i hi
  simp only [BitVec.getLsbD_append, BitVec.getLsbD_extractLsb']
  split_ifs with h h2 h3
  · simp [h]
  · simp only [h2, decide_true, Bool.true_and]
    congr 1
    omega
  · simp only [h3, decide_true, Bool.true_and]
    congr 1
    omega
  · have h4 : i - 8 - 8 - 8 < 8 := by omega
    simp only [h4, decide_true, Bool.true_and]
    congr 1
    omega

theorem readNarrow_halfBytes {w : Nat} (hw : w ≤ 16) (v : BitVec w) (rest : List Byte) :
    readNarrow w (halfBytes v ++ rest) = .ok (v, rest) := by
  unfold readNarrow
  rw [readHalf_halfBytes]
  have hv : (v.setWidth 16).toNat = v.toNat := by
    rw [BitVec.toNat_setWidth, Nat.mod_eq_of_lt]
    exact Nat.lt_of_lt_of_le v.isLt (Nat.pow_le_pow_right (by omega) hw)
  simp only [hv, v.isLt, if_true]
  congr 2
  apply BitVec.eq_of_toNat_eq
  rw [BitVec.toNat_setWidth, hv, Nat.mod_eq_of_lt v.isLt]

theorem readList_listBytes : ∀ l rest : List Byte, readList (listBytes l ++ rest) = .ok (l, rest)
  | [], [] => rfl
  | [], _ :: _ => rfl
  | c :: l, rest => by
    show readList (1 :: c :: (listBytes l ++ rest)) = _
    unfold readList
    rw [readList_listBytes l rest]
    rfl

theorem readNat_natBytesAux : ∀ (fuel n : Nat) (rest : List Byte), n < fuel →
    readNat (natBytesAux fuel n ++ rest) = .ok (n, rest)
  | 0, _, _, h => absurd h (Nat.not_lt_zero _)
  | fuel + 1, n, rest, h => by
    unfold natBytesAux
    by_cases hn : n < 128
    · rw [if_pos hn]
      show readNat (_ :: rest) = _
      unfold readNat
      have hb : (BitVec.ofNat 8 n).toNat = n := by simp; omega
      rw [hb, if_pos hn]
    · rw [if_neg hn]
      show readNat (_ :: (natBytesAux fuel (n / 128) ++ rest)) = _
      unfold readNat
      have hb : (BitVec.ofNat 8 (n % 128 + 128)).toNat = n % 128 + 128 := by simp; omega
      rw [hb, if_neg (by omega), readNat_natBytesAux fuel _ _ (by omega)]
      show Except.ok (n % 128 + 128 - 128 + 128 * (n / 128), rest) = _
      congr 2
      omega

theorem readNat_natBytes (n : Nat) (rest : List Byte) : readNat (natBytes n ++ rest) = .ok (n, rest) :=
  readNat_natBytesAux _ _ _ (Nat.lt_succ_self n)

theorem readInt_intBytes (z : Int) (rest : List Byte) : readInt (intBytes z ++ rest) = .ok (z, rest) := by
  cases z with
  | ofNat n =>
    unfold readInt intBytes
    simp only [readNat_natBytes, Read.map]
    simp
  | negSucc n =>
    unfold readInt intBytes
    simp only [readNat_natBytes, Read.map]
    rw [if_neg (by omega)]
    congr 3
    omega

theorem readList1_list1Bytes (b : Byte) (l rest : List Byte) :
    readList1 (list1Bytes (b :: l) ++ rest) = .ok (b :: l, rest) := by
  rw [show readList1 (list1Bytes (b :: l) ++ rest) = (readList (listBytes l ++ rest)).map (b :: ·) from rfl,
    readList_listBytes]
  rfl

/-- The command bytes of the brightness levels decode to their level. -/
theorem decodeCmd_ctrl : ∀ l : BitVec 3, decodeCmd (0x88 ||| l.setWidth 8) = .ok (.cmdCtrl l) := by decide

/-- The dispatch words of the recovery arm decode to it. -/
theorem decodeDw_recover : ∀ l : BitVec 3, (BitVec.ofNat 8 (8 + l.toNat)).toNat < 16 ∧
    decodeDw ((BitVec.ofNat 8 (8 + l.toNat)).setWidth 4) = .fRecover l := by decide

end Sys2Proof
end

