-- ==== Sys2Proof/Tests/Slice0.lean ====
section
/-! SUPPORT. Tests with expected results from spec/95_test_vectors.md and the rules, and one witness for the
hypotheses of each obligation. -/

namespace Sys2Proof.Tests

open Sys2Proof Sys2Proof.Machine

/-! ## The small state the tests start from -/

/-- Draws of all zeros. -/
def zeroDraw : ResetDraw where
  cnt := 0
  ccr := 0
  cf := false
  rise := 0
  fall := 0
  polln := 0
  sh := 0
  bi := 0
  ackv := false
  frame0 := 0
  frame1 := 0
  frame2 := 0
  frame3 := 0
  cand := .none
  raw := 0
  dist := 0
  thru := 0
  ev := .none

/-- Reset values with draws of zeros, an acknowledging display, ECHO low, nothing to come, SEQ in its loop. -/
def calm : State where
  capu := capuReset configDefault zeroDraw
  pins := pinsReset
  ctrl := ctrlReset
  work := workReset configDefault zeroDraw
  seq := .loop
  env := {
    echo := false
    dioExt := true
    adc := [100, 100]
    ack := List.replicate 7 false
    overcap := []
    resets := []
    schedule := []
    count := ⟨0, 0, 0, 0, 0⟩ }
  display := ⟨false, 0, 0, [], false, ⟨[], false, 0, false⟩⟩
  leds := ⟨0, 0⟩
  trace := []
  result := .none
  micro := 0
  script := []
  cfg := configDefault

/-- `calm` with a capture unit. -/
def withCapu (cnt ccr : Nat) (edge : Edge) (cf echo : Bool) : State :=
  (calm.setCapu ⟨cnt, ccr, edge, cf⟩).setEnv { calm.env with echo := echo }

/-- `calm` with a control state. -/
def withCtrl (opState : BitVec 2) (unit : MeasureUnit) (threshold : Dist) (stable : Button) : State :=
  calm.setCtrl ⟨opState, unit, threshold, stable⟩

/-- A state with samples to come. -/
def samples (l : List Nat) (s : State) : State := s.setEnv { s.env with adc := l }

/-- A state with launches to make. -/
def launching (w : OpWord) (s : State) : State := s.setScript [w]

/-- The answer is a next state of which `p` holds. -/
def gives (a : Answer) (p : State → Bool) : Bool :=
  match a with
  | .next t => p t
  | .fault _ => false
  | .refused _ => false

/-! ## Well-formedness -/

theorem test_empty_transaction_is_ill_formed : (Instr.twTransaction []).wellFormed = false := by decide

theorem test_other_operands_are_well_formed :
    (Instr.twTransaction [0]).wellFormed = true ∧ (Instr.textToFrame []).wellFormed = true := by decide

/-! ## Decoding: words written out from 30_encoding R92, R87, R83 to R85 -/

theorem test_decode_capture_unit :
    decode .opx [0b000000] = .ok (.cntTick, []) ∧ decode .opx [0b000001] = .ok (.echoRise, []) ∧
    decode .opx [0b000010] = .ok (.echoFall, []) ∧ decode .opx [0b000011] = .ok (.cfClear, []) ∧
    decode .opx [0b000100] = .ok (.setEdgeRising, []) ∧ decode .opx [0b000101] = .ok (.setEdgeFalling, []) ∧
    decode .opx [0b000110] = .ok (.ccrRead, []) ∧ decode .opx [0b000111] = .ok (.cfRead, []) := by decide

theorem test_decode_range_sensor :
    decode .opx [0b001000] = .ok (.trigPulse, []) ∧
    decode .opx [0b001001, 0x03] = .ok (.waitCapture 3, []) ∧
    decode .opx [0b001010, 0xE8, 0x07, 0x55] = .ok (.measureRaw 1000, [0x55]) ∧
    decode .opx [0b001011, 0xC4, 0x0E] = .ok (.ticksToCm 1860, []) ∧
    decode .opx [0b001100, 0xEC, 0x01] = .ok (.ticksToInch 236, []) := by decide

theorem test_decode_display :
    decode .opx [0b001101] = .ok (.twStart, []) ∧ decode .opx [0b001110, 1] = .ok (.twBit true, []) ∧
    decode .opx [0b001111] = .ok (.twAck, []) ∧ decode .opx [0b010000, 0x5B] = .ok (.twByte 0x5B, []) ∧
    decode .opx [0b010001] = .ok (.twStop, []) := by decide

theorem test_decode_display_operations :
    decode .opx [0b010010, 0xC0, 1, 0x66, 0] = .ok (.twTransaction [0xC0, 0x66], []) ∧
    decode .opx [0b010011, 1, 0x34, 1, 0x32, 0] = .ok (.textToFrame [0x34, 0x32], []) ∧
    decode .opx [0b010100, 0xAC, 0x02] = .ok (.numToText 300, []) ∧
    decode .opx [0b010101] = .ok (.writeFrame, []) ∧ decode .opx [0b010110, 0] = .ok (.writeDigits [], []) ∧
    decode .opx [0b010111, 9] = .ok (.setBrightness 9, []) := by decide

theorem test_decode_shift_bus :
    decode .opx [0b011000, 0] = .ok (.srBit false, []) ∧ decode .opx [0b011001] = .ok (.srLatch, []) ∧
    decode .opx [0b011010, 0xA5] = .ok (.sendPattern 0xA5, []) ∧
    decode .opx [0b011011, 0x90, 0x01, 0x64, 0x00] = .ok (.ledPattern 400 100, []) := by decide

theorem test_decode_buttons :
    decode .opx [0b011100] = .ok (.adcSample, []) ∧ decode .opx [0b011101, 0xB8, 0x17] = .ok (.classify 3000, []) ∧
    decode .opx [0b011110] = .ok (.readRaw, []) ∧ decode .opx [0b011111] = .ok (.readDebounced, []) := by decide

theorem test_decode_state_machine :
    decode .opx [0b100000] = .ok (.tick, []) ∧ decode .opx [0b100001] = .ok (.rangingCycle, []) ∧
    decode .opx [0b100010] = .ok (.showError, []) ∧
    decode .opx [0b100011, 0x1E] = .ok (.showDistance 30, []) ∧
    decode .opx [0b100100] = .ok (.showThreshold, []) ∧ decode .opx [0b100101, 19] = .ok (.thrAdjust (-10), []) ∧
    decode .opx [0b100110, 0x90, 0x01] = .ok (.cmToInch 400, []) ∧ decode .opx [0b100111] = .ok (.thrInUnit, []) := by
  decide

theorem test_decode_services :
    decode .opx [0b101000, 10] = .ok (.delayUs 10, []) ∧ decode .opx [0b101001, 50] = .ok (.delayMs 50, []) ∧
    decode .opx [0b101010, 1, 0x41, 0] = .ok (.logText [0x41], []) ∧
    decode .opx [0b101011, 1, 2, 3, 4] = .ok (.logNumber 0x04030201, []) ∧
    decode .opx [0b101100] = .ok (.reset, []) ∧ decode .opx [0b101101] = .ok (.boot, []) := by decide

theorem test_decode_arms :
    decode .dw [0b0000] = .ok (.mNone, []) ∧ decode .dw [0b0001] = .ok (.mMode, []) ∧
    decode .dw [0b0010] = .ok (.mUp, []) ∧ decode .dw [0b0011] = .ok (.mDown, []) ∧
    decode .dw [0b0100] = .ok (.sNone, []) ∧ decode .dw [0b0101] = .ok (.sMode, []) ∧
    decode .dw [0b0110] = .ok (.sUp, []) ∧ decode .dw [0b0111] = .ok (.sDown, []) ∧
    decode .dw [0b1010] = .ok (.fRecover 2, []) ∧ decode .dw [0b1100] = .ok (.fRecover 4, []) := by decide

theorem test_decode_commands :
    decode .cmd [0b01000000] = .ok (.cmdAutoinc, []) ∧ decode .cmd [0b11000000] = .ok (.cmdAddr0, []) ∧
    decode .cmd [0b10001000] = .ok (.cmdCtrl 0, []) ∧ decode .cmd [0b10001111] = .ok (.cmdCtrl 7, []) := by decide

theorem test_decode_rejects :
    decode .opx [] = .error .noWord ∧ decode .opx [46] = .error (.unassignedOpx 46) ∧
    decode .opx [63] = .error (.unassignedOpx 63) ∧ decode .opx [64] = .error (.notSixBits 64) ∧
    decode .dw [16] = .error (.notFourBits 16) ∧ decode .cmd [0x80] = .error (.notACommand 0x80) ∧
    decode .cmd [0x41] = .error (.notACommand 0x41) ∧ decode .opx [9, 0x81] = .error .truncated ∧
    decode .opx [14, 2] = .error .badOperand ∧ decode .opx [38, 0, 2] = .error .badOperand := by decide

/-- Every word of the table as the host numbers it runs as the first operation after reset. -/
theorem test_table_words_run :
    ((List.range 46).map (fun k => (8, k)) ++ [(8, 0x40), (8, 0xC0), (8, 0x88), (8, 0x8F)] ++
      (List.range 16).map (fun k => (4, k))).all (fun r =>
        gives (step (State.reset.withFetchWord r.1 r.2)) (fun _ => true) && (decodeTableWord r.1 r.2).isSome) = true := by
  decide +kernel

/-! ## The capture unit (vectors V40.x) -/

theorem test_V40_6_counter_wraps :
    gives (exec .cntTick (withCapu 0xFFFF 7 .rising false false)) (fun t => t.capu = ⟨0, 7, .rising, false⟩) = true := by
  decide

theorem test_V40_1_2_echo_rise :
    gives (exec .echoRise (withCapu 0x1234 0 .rising false false)) (fun t =>
      t.capu = ⟨0x1234, 0x1234, .rising, true⟩ ∧ t.env.echo = true) = true ∧
    gives (exec .echoRise (withCapu 1 0x0AAA .falling false false)) (fun t =>
      t.capu = ⟨1, 0x0AAA, .falling, false⟩ ∧ t.env.echo = true) = true := by decide

theorem test_V40_5_10_echo_rise :
    gives (exec .echoRise { withCapu 0x2000 0x1000 .rising true false with cfg := { configDefault with overcapture := .overwrite } })
      (fun t => t.capu.ccr = 0x2000 ∧ t.capu.cf) = true ∧
    gives (exec .echoRise { withCapu 0x2000 0x1000 .rising true false with cfg := { configDefault with overcapture := .hold } })
      (fun t => t.capu.ccr = 0x1000 ∧ t.capu.cf) = true ∧
    gives (exec .echoRise (withCapu 5 6 .rising false true)) (fun t => t.capu = ⟨5, 6, .rising, false⟩) = true := by decide

theorem test_V40_3_4_echo_fall :
    gives (exec .echoFall (withCapu 1 0x0AAA .rising false true)) (fun t =>
      t.capu = ⟨1, 0x0AAA, .rising, false⟩ ∧ t.env.echo = false) = true ∧
    gives (exec .echoFall (withCapu 0x1300 0 .falling false true)) (fun t =>
      t.capu = ⟨0x1300, 0x1300, .falling, true⟩) = true := by decide

theorem test_V40_7_11_cf_clear :
    gives (exec .cfClear (withCapu 9 0x1234 .rising true false)) (fun t => t.capu = ⟨9, 0x1234, .rising, false⟩) = true ∧
    gives (exec .cfClear ((withCapu 5 0 .rising false false).setSchedule [(0, .echo true)])) (fun t =>
      t.capu = ⟨5, 5, .rising, false⟩) = true := by decide

theorem test_V40_8_set_edge_falling :
    gives (exec .setEdgeFalling (withCapu 9 3 .rising false false)) (fun t => t.capu = ⟨9, 3, .falling, false⟩) = true := by
  decide

theorem test_V40_9_set_edge_rising :
    gives (exec .setEdgeRising (withCapu 9 3 .falling false true)) (fun t => t.capu = ⟨9, 3, .rising, false⟩) = true := by
  decide

theorem test_V40_13_ccr_read :
    gives (exec .ccrRead (withCapu 9 0x1234 .rising true false)) (fun t =>
      t.result = .ticks 0x1234 ∧ t.capu.cf) = true := by decide

theorem test_cf_read_after_event :
    gives (exec .cfRead ((withCapu 9 3 .rising false false).setSchedule [(0, .echo true)])) (fun t =>
      t.result = .bit true ∧ t.capu.ccr = 9) = true := by decide

/-! ## The range sensor (vectors V41.x, program P1) -/

theorem test_trig_pulse :
    gives (exec .trigPulse calm) (fun t =>
      t.trace = [.write .trig false, .delay (.param .trig), .write .trig true] ∧ t.pins = pinsReset) = true := by decide

theorem test_V41_2_wait_capture :
    gives (exec (.waitCapture 3) (calm.setSchedule [(10, .echo true)])) (fun t =>
      t.result = .wait .captured ∧ t.work.polln = 2) = true := by decide +kernel

/-- R121, "each line one micro-step": the first line, then five lines a poll, three in the poll that sees the flag and
four in the one that runs out of budget. -/
theorem test_wait_capture_lines :
    gives (exec (.waitCapture 3) calm) (fun t => t.micro = 1 + 5 + 5 + 4) = true ∧
    gives (exec (.waitCapture 3) (calm.setSchedule [(6, .echo true)])) (fun t => t.micro = 1 + 5 + 2) = true := by
  decide +kernel

theorem test_V41_3_4_wait_capture :
    gives (exec (.waitCapture 0) calm) (fun t => t.result = .wait .timedOut ∧ t.work.polln = 1) = true ∧
    gives (exec (.waitCapture 0) (withCapu 0 0 .rising true false)) (fun t =>
      t.result = .wait .captured ∧ t.work.polln = 0) = true := by decide +kernel

theorem test_P1_measure_raw :
    gives (exec (.measureRaw 1000) ((withCapu 0xFF00 0xBEEF .rising true false).setSchedule
      [(6, .cnt 220), (0, .echo true), (6, .cnt 236), (0, .echo false)])) (fun t =>
        t.result = .ticks 236 ∧ t.work.rise = 0xFFDC ∧ t.work.fall = 0xC8 ∧
        t.capu = ⟨0xC8, 0xC8, .rising, true⟩ ∧ t.pins = pinsReset) = true := by decide +kernel

theorem test_V41_8_13_measure_raw :
    gives (exec (.measureRaw 2) calm) (fun t =>
      t.result = .ticks 0 ∧ t.capu = ⟨0, 0, .rising, false⟩ ∧ t.work.polln = 2) = true ∧
    gives (exec (.measureRaw 5) (calm.setSchedule [(6, .echo true), (4, .echo false)])) (fun t =>
      t.result = .ticks 0 ∧ t.capu.edge = .rising ∧ t.work.polln = 5) = true := by decide +kernel

theorem test_ticks_to_cm :
    [(0, 0), (57, 0), (58, 1), (115, 1), (116, 2), (1860, 32), (23199, 399), (23200, 400), (65535, 400)].all (fun p =>
      gives (exec (.ticksToCm (p.1)) calm) (fun t => t.result = .dist (BitVec.ofNat 9 p.2))) = true := by
  decide

theorem test_ticks_to_inch :
    [(0, 0), (147, 0), (148, 1), (296, 2), (1860, 12), (23235, 156), (23236, 157), (65535, 157)].all (fun p =>
      gives (exec (.ticksToInch (p.1)) calm) (fun t => t.result = .dist (BitVec.ofNat 9 p.2))) = true := by
  decide

/-! ## The display bus (vectors V42.x) -/

theorem test_tw_start_stop :
    gives (exec .twStart calm) (fun t => t.trace.reverse = [.write .dio true, .write .dclk true,
      .delay (.param .start), .write .dio false, .delay (.param .start)] ∧ t.display.inTxn) = true ∧
    gives (exec .twStop calm) (fun t => t.trace.reverse = [.write .dclk false, .write .dio false,
      .delay (.param .stop), .write .dclk true, .delay (.param .stop), .write .dio true, .delay (.param .stop)]) = true := by
  decide

theorem test_tw_bit :
    gives (exec (.twBit true) calm) (fun t => t.trace.reverse = [.write .dclk false, .write .dio true,
      .delay (.param .setup), .write .dclk true, .delay (.param .hold)]) = true := by decide

theorem test_tw_ack :
    gives (exec .twAck (calm.setEnv { calm.env with ack := [true] })) (fun t =>
      t.trace.reverse = [.write .dclk false, .dir .inPullup, .write .dclk true, .read true, .write .dclk false,
        .dir .out] ∧ t.result = .bit true ∧ t.work.ackv = true ∧ t.pins.dioOut = true) = true := by decide

/-- The DIO levels of 0x5B, first slot to eighth. -/
theorem test_tw_byte_order :
    gives (exec (.twByte 0x5B) calm) (fun t =>
      t.trace.reverse.filterMap (fun e => match e with | .write .dio v => some v | _ => none) =
        [true, true, false, true, true, false, true, false] ∧ t.work.sh = 0 ∧ t.work.bi = 7) = true := by decide +kernel

theorem test_V42_1_transaction :
    gives (exec (.twTransaction [0x40]) calm) (fun t => t.trace.length = 34 + 2 + 1 + 21 ∧
      t.pins = pinsReset ∧ t.work.sh = 0 ∧ t.work.bi = 7 ∧ t.work.ackv = false ∧ t.display.panel.autoInc) = true := by
  decide +kernel

theorem test_V42_5_6_text_to_frame :
    gives (exec (.textToFrame [0x31, 0x32, 0x33, 0x34, 0x35]) calm) (fun t =>
      t.work.frame = ⟨0x5B, 0x4F, 0x66, 0x6D⟩) = true ∧
    gives (exec (.textToFrame [0x34, 0x23, 0x32]) calm) (fun t => t.work.frame = ⟨0, 0x66, 0, 0x5B⟩) = true := by decide

theorem test_num_to_text :
    gives (exec (.numToText 0) calm) (fun t => t.result = .text [0x30]) = true ∧
    gives (exec (.numToText 12345) calm) (fun t => t.result = .text [0x31, 0x32, 0x33, 0x34, 0x35]) = true := by
  decide +kernel

theorem test_V42_2_write_digits :
    gives (exec (.writeDigits [0x34, 0x32]) calm) (fun t => t.display.panel.mem = [(2, 0x66), (3, 0x5B)] ∧
      t.trace.length = 176 + 12 + 6 + 106) = true := by decide +kernel

theorem test_write_frame :
    gives (exec .writeFrame (calm.setWork { calm.work with frame := ⟨0x6F, 0, 0x3F, 0x06⟩ })) (fun t =>
      t.display.panel.mem = [(0, 0x6F), (2, 0x3F), (3, 0x06)]) = true := by decide +kernel

theorem test_V42_10_12_set_brightness :
    gives (exec (.setBrightness 5) calm) (fun t => t.display.panel.bright = 5 ∧ t.display.bytes = [0x8D]) = true ∧
    gives (exec (.setBrightness 255) calm) (fun t => t.display.panel.bright = 7 ∧ t.display.bytes = [0x8F]) = true := by
  decide +kernel

theorem test_commands :
    gives (exec .cmdAutoinc calm) (fun t => t.display.bytes = [0x40]) = true ∧
    gives (exec .cmdAddr0 (calm.setWork { calm.work with frame := ⟨1, 2, 3, 4⟩ })) (fun t =>
      t.display.bytes = [0xC0, 1, 2, 3, 4]) = true ∧
    gives (exec (.cmdCtrl 7) calm) (fun t => t.display.bytes = [0x8F] ∧ t.display.panel.isOn) = true := by decide +kernel

/-! ## The shift bus (vectors V43.x) -/

theorem test_sr_bit_latch :
    gives (exec (.srBit true) calm) (fun t => t.leds = ⟨1, 0⟩ ∧ t.pins.sdat = true ∧ t.pins.sclk = false) = true ∧
    gives (exec .srLatch (calm.setLeds ⟨0xA5, 0⟩)) (fun t => t.leds = ⟨0xA5, 0xA5⟩) = true := by decide

theorem test_V43_1_send_pattern :
    gives (exec (.sendPattern 0x07) calm) (fun t => t.trace.length = 27 ∧ t.leds = ⟨7, 7⟩ ∧ t.pins.sdat = true ∧
      t.trace.reverse.filterMap (fun e => match e with | .write .sdat v => some v | _ => none) =
        [false, false, false, false, false, true, true, true]) = true := by decide +kernel

theorem test_T8_2_led_pattern :
    [(0, 100, 0xFF), (1, 100, 0x7F), (12, 100, 0x7F), (13, 100, 0x3F), (87, 100, 0x01), (88, 100, 0x00),
      (399, 400, 0x00), (0, 0, 0x00), (0, 1, 0xFF), (1, 1, 0x00), (4, 39, 0x7F), (35, 39, 0x00)].all (fun p =>
        gives (exec (.ledPattern (BitVec.ofNat 9 p.1) (BitVec.ofNat 9 p.2.1)) calm) (fun t =>
          t.result = .byte (BitVec.ofNat 8 p.2.2))) = true := by decide

/-! ## Parameters at other values (R33): widths, and a table for CM2IN -/

theorem test_counter_of_eight_bits :
    gives (exec .cntTick { withCapu 0xFF 7 .rising false false with cfg := { configDefault with cntBits := 8 } }) (fun t =>
      t.capu.cnt = 0) = true ∧
    gives (exec (.ticksToCm 314) { calm with cfg := { configDefault with cntBits := 8 } }) (fun t =>
      t.result = .dist 1) = true := by decide

theorem test_cm2in_table :
    gives (exec (.cmToInch 10) { calm with cfg := { configDefault with cm2in := .table (Vector.ofFn fun i => i.val / 2) } })
      (fun t => t.result = .dist 5) = true := by decide +kernel

/-! ## The buttons (vectors V44.x) -/

theorem test_V44_classify :
    [(799, .none), (800, .up), (1600, .up), (1601, .none), (1799, .none), (1800, .down), (2800, .down), (2801, .none),
      (3000, .none), (3001, .mode), (4095, .mode)].all (fun (p : Nat × Button) =>
        gives (exec (.classify (p.1)) calm) (fun t => t.result = .button p.2)) = true := by decide

theorem test_adc_sample_and_read_raw :
    gives (exec .adcSample (samples [3500, 1] calm)) (fun t => t.result = .sample 3500 ∧ t.env.adc = [1]) = true ∧
    gives (exec .readRaw (samples [3500, 1] calm)) (fun t => t.result = .button .mode ∧ t.ctrl = calm.ctrl) = true := by
  decide

theorem test_V44_6_7_debounce :
    gives (exec .readDebounced (samples [1000, 1000] calm)) (fun t => t.result = .button .up ∧ t.ctrl.stable = .up ∧
      t.env.adc = [] ∧ t.trace = [.delay (.param .settle)]) = true ∧
    gives (exec .readDebounced (samples [1000, 100] calm)) (fun t =>
      t.result = .button .none ∧ t.ctrl.stable = .none ∧ t.env.adc = []) = true := by decide

theorem test_V44_9_12_debounce :
    gives (exec .readDebounced (samples [1000, 7] (withCtrl 0 .centimeters 0 .up))) (fun t =>
      t.result = .button .up ∧ t.env.adc = [7] ∧ t.trace = []) = true ∧
    gives (exec .readDebounced (samples [2000, 2000] (withCtrl 0 .centimeters 0 .up))) (fun t =>
      t.result = .button .down ∧ t.ctrl.stable = .down) = true := by decide

/-! ## The state machine (vectors V45.x, program P3) -/

theorem test_P3_tick :
    gives (step ((withCtrl 0 .centimeters 100 .none).setSchedule
      [(9, .cnt 0x1000), (0, .echo true), (6, .cnt 1860), (0, .echo false)])) (fun t =>
        t.work.raw = 1860 ∧ t.work.dist = 32 ∧ t.work.thru = 100 ∧ t.leds.store = 0x1F ∧
        t.display.panel.mem = [(2, 0x4F), (3, 0x5B)] ∧ t.trace.head? = some (.delay (.param .gap)) ∧
        t.ctrl = ⟨0, .centimeters, 100, .none⟩) = true := by decide +kernel

theorem test_V45_17_tick_recovers :
    gives (exec .tick (samples [1000, 1000] (withCtrl 2 .inches 70 .none))) (fun t =>
      t.ctrl = ⟨0, .inches, 70, .up⟩ ∧ t.work.ev = .up ∧ t.trace = [.delay (.param .settle)]) = true := by decide

theorem test_V45_2_ranging_without_echo :
    gives (exec .rangingCycle ({ withCtrl 0 .centimeters 100 .none with
      cfg := { configDefault with measureTimeout := 4 } })) (fun t => t.work.raw = 0 ∧ t.work.polln = 4 ∧
        t.leds.store = 0 ∧ t.display.panel.mem = [(1, 0x79), (2, 0x50), (3, 0x50)]) = true := by decide +kernel

theorem test_V45_1_m_none :
    gives (exec .mNone ((withCtrl 0 .centimeters 100 .none).setSchedule
      [(6, .echo true), (6, .cnt 1860), (0, .echo false)])) (fun t => t.work.raw = 1860 ∧ t.leds.store = 0x1F ∧
        t.trace.head? = some (.delay (.param .gap))) = true := by decide +kernel

theorem test_V45_7_8_m_mode :
    gives (exec .mMode (withCtrl 0 .centimeters 100 .mode)) (fun t => t.ctrl = ⟨0, .inches, 100, .mode⟩) = true ∧
    gives (exec .mMode (withCtrl 0 .inches 100 .mode)) (fun t => t.ctrl = ⟨0, .centimeters, 100, .mode⟩) = true := by
  decide

theorem test_V45_9_m_up :
    gives (exec .mUp (withCtrl 0 .centimeters 50 .up)) (fun t => t.ctrl = ⟨1, .centimeters, 50, .up⟩ ∧
      t.work.frame = ⟨0, 0, 0x6D, 0x3F⟩ ∧ t.leds = calm.leds) = true := by decide +kernel

theorem test_V45_10_m_down :
    gives (exec .mDown (withCtrl 0 .inches 120 .down)) (fun t => t.ctrl = ⟨1, .inches, 120, .down⟩ ∧
      t.work.frame = ⟨0, 0, 0x66, 0x07⟩) = true := by decide +kernel

theorem test_V45_11_s_none :
    gives (exec .sNone (withCtrl 1 .centimeters 120 .none)) (fun t => t.ctrl = ⟨1, .centimeters, 120, .none⟩ ∧
      t.work.frame = ⟨0, 0x06, 0x5B, 0x3F⟩ ∧ t.trace.head? = some (.delay (.param .setupTick))) = true := by
  decide +kernel

theorem test_V45_12_s_mode :
    gives (exec .sMode (withCtrl 1 .centimeters 120 .mode)) (fun t => t.ctrl = ⟨0, .centimeters, 120, .mode⟩ ∧
      t.trace = [.delay (.param .setupTick)]) = true := by decide

theorem test_V45_13_14_s_up :
    gives (exec .sUp (withCtrl 1 .centimeters 390 .up)) (fun t => t.ctrl.threshold = 400 ∧
      t.work.frame = ⟨0, 0x66, 0x3F, 0x3F⟩) = true ∧
    gives (exec .sUp (withCtrl 1 .centimeters 400 .up)) (fun t => t.ctrl.threshold = 400) = true := by decide +kernel

theorem test_V45_15_16_s_down :
    gives (exec .sDown (withCtrl 1 .inches 10 .down)) (fun t => t.ctrl.threshold = 0 ∧
      t.work.frame = ⟨0, 0, 0, 0x3F⟩) = true ∧
    gives (exec .sDown (withCtrl 1 .centimeters 0 .down)) (fun t => t.ctrl.threshold = 0) = true := by decide +kernel

theorem test_V45_18_f_recover :
    gives (exec (.fRecover 4) (withCtrl 3 .centimeters 0 .none)) (fun t =>
      t.ctrl = ⟨0, .centimeters, 0, .none⟩ ∧ t.trace = []) = true := by decide

theorem test_V42_3_show_error :
    gives (exec .showError calm) (fun t => t.work.frame = ⟨0, 0x79, 0x50, 0x50⟩ ∧ t.leds = ⟨0, 0⟩) = true := by
  decide +kernel

theorem test_V45_4_5_show_distance :
    gives (exec (.showDistance 1860) (withCtrl 0 .inches 100 .none)) (fun t => t.work.dist = 12 ∧ t.work.thru = 39 ∧
      t.leds.store = 0x1F) = true ∧
    gives (exec (.showDistance 30) (withCtrl 0 .centimeters 100 .none)) (fun t =>
      t.work.frame = ⟨0, 0, 0, 0x3F⟩ ∧ t.leds.store = 0xFF) = true := by decide +kernel

theorem test_show_threshold :
    gives (exec .showThreshold (withCtrl 1 .inches 100 .none)) (fun t => t.work.thru = 39 ∧
      t.work.frame = ⟨0, 0, 0x4F, 0x6F⟩) = true := by decide +kernel

theorem test_T8_1_thr_adjust :
    [(0, 10, 10), (395, 10, 400), (400, 10, 400), (5, -10, 0), (0, -10, 0), (200, 1000, 400), (200, -1000, 0),
      (511, 10, 400)].all (fun (p : Nat × Int × Nat) =>
        gives (exec (.thrAdjust p.2.1) (withCtrl 1 .centimeters (BitVec.ofNat 9 p.1) .none)) (fun t =>
          t.ctrl.threshold = BitVec.ofNat 9 p.2.2)) = true := by decide

theorem test_cm_to_inch :
    [(0, 0), (10, 3), (120, 47), (150, 59), (160, 62), (400, 157)].all (fun p =>
      gives (exec (.cmToInch (BitVec.ofNat 9 p.1)) calm) (fun t => t.result = .dist (BitVec.ofNat 9 p.2))) = true := by
  decide

theorem test_thr_in_unit :
    gives (exec .thrInUnit (withCtrl 0 .inches 100 .none)) (fun t => t.result = .dist 39) = true ∧
    gives (exec .thrInUnit (withCtrl 0 .centimeters 100 .none)) (fun t => t.result = .dist 100) = true := by decide

/-! ## Services, RESET, BOOT (vectors V46.1, V70.x) -/

theorem test_V46_1_delays :
    gives (exec (.delayUs 10) calm) (fun t => t.trace = [.delay .call] ∧ t.pins = calm.pins) = true ∧
    gives (exec (.delayMs 50) calm) (fun t => t.trace = [.delay .call] ∧ t.work = calm.work) = true := by decide

theorem test_loggers :
    gives (exec (.logText [0x41]) calm) (fun t => t = calm.setResult .unit) = true ∧
    gives (exec (.logNumber 7) calm) (fun t => t = calm.setResult .unit) = true := by decide

theorem test_V70_1_reset :
    gives (exec .reset { withCtrl 1 .inches 250 .up with
      pins := ⟨true, false, false, .inPullup, true, true, true⟩
      capu := ⟨1, 2, .falling, true⟩ }) (fun t => t.ctrl = ⟨0, .centimeters, 0, .none⟩ ∧ t.capu.edge = .rising ∧
        t.pins = ⟨false, true, true, .out, false, false, false⟩ ∧ t.seq = .idle) = true := by decide

theorem test_V70_2_3_boot :
    gives (exec .boot calm) (fun t => t.trace = [] ∧ t.seq = .loop) = true ∧
    gives (exec .boot { calm with cfg := { configDefault with brightInit := some 5 } }) (fun t =>
      t.display.bytes = [0x8D] ∧ t.seq = .loop) = true := by decide +kernel

/-- A launch that breaks a premise is refused. -/
theorem test_launch_refusals :
    step { calm with cfg := { configDefault with timersReady := false } } = .refused .launchPremise ∧
    step { calm with cfg := { configDefault with upHi := 1900 } } = .refused .badConfig ∧
    step (launching ⟨.opx, [46]⟩ calm) = .refused (.notAnOperation (.unassignedOpx 46)) := ⟨rfl, rfl, rfl⟩

/-! ## Witnesses: a state and operands that meet the hypotheses of each obligation -/

/-- The counter and ECHO are busy, no RESET is to come. -/
def busy : State := calm.setSchedule [(0, .cnt 5), (2, .echo true), (9, .echo false)]

/-- The one hypothesis of TriggerPulse, BusConditions, AckCycle, ByteIsSentLowBitFirst, DigitUpdateTrace,
CommandTransactions, ShiftBusParts, PatternIsSentHighBitFirst, SampleIsConsumed, TickTransition, SetupArms,
ThresholdIsClamped and, with an operation that is neither BOOT nor RESET, of
ConfigIsConstantAndTraceGrows. -/
theorem witness_noReset : NoReset calm ∧ NoReset busy := by
  unfold NoReset
  decide

theorem witness_EncodeDecodeRoundTrip : (Instr.twTransaction [0]).wellFormed = true := by decide

theorem witness_DecodedOperationsAreWellFormed :
    decode .opx [18, 0x40, 0, 9] = .ok (.twTransaction [0x40], [9]) := by decide

theorem witness_DispatchWordMap : 2 ≤ (2 : BitVec 2).toNat ∧ 2 ≤ (3 : BitVec 2).toNat := by decide

theorem witness_StepRunsDecodedOperation :
    (launchRefusal (launching ⟨.opx, [32]⟩ calm).cfg = none ∧
      (launching ⟨.opx, [32]⟩ calm).script = ⟨.opx, [32]⟩ :: [] ∧ decode .opx [32] = .ok (.tick, [])) ∧
    launchRefusal calm.cfg = none ∧ calm.script = [] ∧ calm.seq = .loop ∧ (calm.setSeq .idle).seq = .idle := by decide

/-- Configurations at the edges of what is allowed, a table for CM2IN, and a refused launch. -/
theorem witness_OnlyLaunchesAreRefused :
    [configDefault, { configDefault with upHi := 1799 }, { configDefault with modeTh := 4094 },
      { configDefault with measureTimeout := 2 ^ 32 - 1 }, { configDefault with tGap := 0, tSetupTick := 1 },
      { configDefault with errText := [0x21] },
      { configDefault with cm2in := .table (Vector.replicate 512 0) }].all configOk = true ∧
    [{ configDefault with upHi := 1800 }, { configDefault with modeTh := 4095 },
      { configDefault with measureTimeout := 0 }, { configDefault with measureTimeout := 2 ^ 32 },
      { configDefault with tTrig := 9 }, { configDefault with tGap := 2 },
      { configDefault with errText := [0x58] }, { configDefault with segmap := (0x20, 1) :: segmapDefault },
      { configDefault with segmap := segmapDefault ++ [(0x7A, 0x80)] },
      { configDefault with cm2in := .table (Vector.replicate 512 1) }].all (fun c => !configOk c) = true ∧
    ((46 ≤ (46 : Byte).toNat ∧ (46 : Byte).toNat < 64) ∧ (46 ≤ (63 : Byte).toNat ∧ (63 : Byte).toNat < 64) ∧
      launchRefusal (launching ⟨.opx, [63, 1]⟩ calm).cfg = none ∧
      (launching ⟨.opx, [63, 1]⟩ calm).script = ⟨.opx, 63 :: [1]⟩ :: []) := by decide +kernel

theorem witness_ConfiguredEdgeCaptures :
    ((withCapu 1 2 .rising false false).env.echo = false ∧ (withCapu 1 2 .rising false false).capu.edge = .rising ∧
      (withCapu 1 2 .rising false false).capu.cf = false) ∧
    ((withCapu 1 2 .falling true false).env.echo = false ∧ (withCapu 1 2 .falling true false).capu.edge = .falling) ∧
    ((withCapu 1 2 .falling false true).env.echo = true ∧ (withCapu 1 2 .falling false true).capu.edge = .falling ∧
      (withCapu 1 2 .falling false true).capu.cf = false) ∧
    ((withCapu 1 2 .rising true true).env.echo = true ∧ (withCapu 1 2 .rising true true).capu.edge = .rising) := by
  decide

theorem witness_OvercaptureKeepsFlag :
    [(true, Overcapture.overwrite), (false, .overwrite), (true, .hold), (false, .hold), (true, .either), (false, .either)].all
      (fun p =>
        let s : State := { withCapu 1 2 (if p.1 then .rising else .falling) true (!p.1) with
          cfg := { configDefault with overcapture := p.2 } }
        let e : State := s.setEnv { s.env with overcap := [false] }
        e.env.echo = !p.1 ∧ e.capu.edge = (if p.1 then .rising else .falling) ∧ e.capu.cf = true ∧
          e.cfg.overcapture = p.2 ∧ e.env.overcap = false :: []) = true := by decide

theorem witness_CapturePrimitives : calm.window = .ok calm.countMicro := window_quiet rfl

theorem witness_WindowDeliversDueEvents :
    calm.env.schedule = [] ∧ (calm.setSchedule [(1, .reset)]).env.schedule = (0 + 1, .reset) :: [] ∧
    busy.env.schedule = (0, .cnt 5) :: [(2, .echo true), (9, .echo false)] ∧
    (calm.setSchedule [(0, .echo true)]).env.schedule = (0, .echo true) :: [] ∧
    (calm.setSchedule [(0, .reset)]).env.schedule = (0, .reset) :: [] := by decide

theorem witness_QuietCaptureWait :
    (Quiet calm ∧ calm.capu.cf = false) ∧ Quiet (withCapu 0 0 .rising true false) ∧
    (withCapu 0 0 .rising true false).capu.cf = true := ⟨⟨rfl, rfl⟩, rfl, rfl⟩

/-- The first and the last window before the first and before the last poll of the budget, for timeouts 0, 1 and 3, and
the first and the last window in which a capture is lost. -/
theorem witness_CaptureIsSeenByNextPoll :
    [(0, 0, 0), (0, 0, 1), (1, 0, 0), (1, 0, 1), (3, 0, 0), (3, 1, 2), (3, 1, 6), (3, 2, 7), (3, 2, 11)].all (fun (p : Nat × Nat × Nat) =>
      let s := calm.setSchedule [(p.2.2, .echo true)]
      s.capu.cf = false ∧ s.capu.edge = .rising ∧ s.env.echo = false ∧ p.2.1 < max (s.cfg.polls p.1) 1 ∧
        5 * p.2.1 ≤ p.2.2 + 3 ∧ p.2.2 ≤ 5 * p.2.1 + 1 ∧ s.env.schedule = [(p.2.2, .echo true)]) = true ∧
    [(0, 2), (0, 4), (1, 2), (1, 4), (3, 12), (3, 14)].all (fun (p : Nat × Nat) =>
      let s := calm.setSchedule [(p.2, .echo true)]
      s.capu.cf = false ∧ s.capu.edge = .rising ∧ s.env.echo = false ∧ 5 * max (s.cfg.polls p.1) 1 ≤ p.2 + 3 ∧
        p.2 + 1 ≤ 5 * max (s.cfg.polls p.1) 1 ∧
        s.env.schedule = [(p.2, .echo true)]) = true := by decide

/-- The first and the last polls, with both values of TIMEOUT_RESTART. -/
theorem witness_MeasureRawReturnsPulseWidth :
    [(true, 0, 0, 0), (true, 3, 2, 2), (false, 0, 0, 0), (false, 3, 2, 0), (false, 3, 0, 2)].all
      (fun (p : Bool × Nat × Nat × Nat) =>
        let s : State := { (calm.setSchedule [(6 + 5 * p.2.2.1, .cnt 7), (0, .echo true),
            ((if p.1 then 6 else 5) + 5 * p.2.2.2, .cnt 70000), (0, .echo false)]) with
          cfg := { configDefault with timeoutRestart := p.1 } }
        s.env.echo = false ∧ p.2.2.1 < max (s.cfg.polls p.2.1) 1 ∧
        (if s.cfg.timeoutRestart then p.2.2.2 else p.2.2.1 + p.2.2.2) < max (s.cfg.polls p.2.1) 1 ∧
        s.env.schedule = [(6 + 5 * p.2.2.1, .cnt 7), (0, .echo true),
          ((if s.cfg.timeoutRestart then 6 else 5) + 5 * p.2.2.2, .cnt 70000), (0, .echo false)]) = true := by decide

/-- Both timeouts, the second with both values of TIMEOUT_RESTART. -/
theorem witness_MeasureRawTimesOut :
    Quiet calm ∧ [(true, 0, 0), (true, 3, 2), (false, 0, 0), (false, 3, 0), (false, 3, 2)].all
      (fun (p : Bool × Nat × Nat) =>
        let s : State := { calm.setSchedule [(6 + 5 * p.2.2, .echo true)] with
          cfg := { configDefault with timeoutRestart := p.1 } }
        s.env.echo = false ∧ p.2.2 < max (s.cfg.polls p.2.1) 1 ∧
          s.env.schedule = [(6 + 5 * p.2.2, .echo true)]) = true := ⟨rfl, by decide⟩

theorem witness_EchoEndingBeforeSwitchIsLost :
    [0, 4].all (fun (j : Nat) =>
      let s := calm.setSchedule [(6 + 5 * 2, .echo true), (j, .echo false)]
      s.env.echo = false ∧ 2 < max (s.cfg.polls 3) 1 ∧ j ≤ 4 ∧
        s.env.schedule = [(6 + 5 * 2, .echo true), (j, .echo false)]) = true := by decide

theorem witness_ConverterSaturates :
    ¬ 23200 ≤ 23199 % 2 ^ calm.cfg.cntBits ∧ 23200 ≤ 23200 % 2 ^ calm.cfg.cntBits ∧
    ¬ 23236 ≤ 23235 % 2 ^ calm.cfg.cntBits ∧ 23236 ≤ 23236 % 2 ^ calm.cfg.cntBits := by decide

theorem witness_TransactionTrace : NoReset calm ∧ ([0x40] : List Byte) ≠ [] := ⟨witness_noReset.1, by decide⟩

theorem witness_WriteDigitsReachesDisplayMemory :
    NoReset calm ∧ DisplayBusIdle calm.pins ∧ Mem.wf calm.display.panel.mem = true ∧
    ∀ k, k < 6 → ackAt calm k = false :=
  ⟨witness_noReset.1, ⟨rfl, rfl, rfl⟩, rfl, by decide⟩

theorem witness_BrightnessReachesDisplay :
    NoReset calm ∧ DisplayBusIdle calm.pins ∧ ackAt calm 0 = false ∧ calm.cfg.cmdCtrlBase = 0x88 ∧
    calm.cfg.cmdAutoinc = 0x40 :=
  ⟨witness_noReset.1, ⟨rfl, rfl, rfl⟩, rfl, rfl, rfl⟩

/-- A long and a short text; a listed and an unlisted code of an allowed SEGMAP; canonical cells. -/
theorem witness_TextToFrameJustifiesRight :
    NoReset calm ∧ ([1, 2, 3, 4, 5] : Text) = [1] ++ [2, 3, 4, 5] ∧ ([2, 3, 4, 5] : Text).length = 4 ∧
    ([1, 2, 3] : Text).length < 4 ∧ ([] : Text).length < 4 ∧ Mem.wf configDefault.segmap = true ∧
    ((0x39 : Byte).toNat, (0x6F : Byte)) ∈ configDefault.segmap ∧
    (∀ cell ∈ configDefault.segmap, cell.1 ≠ (0x7A : Byte).toNat) ∧ segmapOk configDefault = true ∧
    Mem.wf [(0, 7), (3, 1)] = true := ⟨witness_noReset.1, by decide⟩

theorem witness_AcknowledgeIsNotActedUpon : ∃ t, exec .twAck calm = .next t := ⟨_, rfl⟩

theorem witness_PatternReachesStorageRegister : NoReset calm ∧ calm.pins.sclk = false := ⟨witness_noReset.1, rfl⟩

theorem witness_LedPatternIsLowRun :
    (0 : Dist).toNat = 0 ∧ (400 : Dist).toNat ≤ (400 : Dist).toNat ∧ (399 : Dist).toNat < (400 : Dist).toNat := by decide

theorem witness_LedPatternIsMonotonic :
    0 < (400 : Dist).toNat ∧ (399 : Dist).toNat ≤ (400 : Dist).toNat ∧
    ((0 : Dist).toNat = 0 ∨ (0 : Dist).toNat ≤ (7 : Dist).toNat) := by decide

/-- The default bands, and bands of another ADC_BITS. -/
theorem witness_ClassesFollowBands : bandsOk calm.cfg = true ∧
    bandsOk { configDefault with adcBits := 8, upLo := 0, upHi := 0, downLo := 1, downHi := 2, modeTh := 254 } = true := by
  decide

/-- Unchanged, confirmed, and bounced. -/
theorem witness_DebouncerConfirmsChange :
    classAt calm 0 = calm.ctrl.stable ∧
    (classAt (samples [1000, 1000] calm) 0 ≠ calm.ctrl.stable ∧
      classAt (samples [1000, 1000] calm) 1 = classAt (samples [1000, 1000] calm) 0) ∧
    (classAt (samples [1000, 2000] calm) 0 ≠ calm.ctrl.stable ∧
      classAt (samples [1000, 2000] calm) 1 ≠ classAt (samples [1000, 2000] calm) 0) := by decide

theorem witness_TickRunsSelectedArm :
    ∃ u v e, readDebounced calm = .ok (e, u) ∧ u.window = .ok v := ⟨_, _, _, rfl, rfl⟩

theorem witness_SingleWriteArms : calm.window = .ok calm.countMicro := window_quiet rfl

theorem witness_EnteringSetupShowsThreshold :
    NoReset busy ∧ (Instr.mUp = .mUp ∨ Instr.mUp = .mDown) ∧ (Instr.mDown = .mUp ∨ Instr.mDown = .mDown) :=
  ⟨witness_noReset.2, by decide, by decide⟩

/-- The formula and a table, both units, the threshold 0 under an allowed configuration. -/
theorem witness_ThresholdConverts :
    calm.ctrl.unit = .centimeters ∧ calm.ctrl.threshold = 0 ∧ (withCtrl 0 .inches 400 .none).ctrl.unit = .inches ∧
    calm.cfg.cm2in = .formula ∧ configOk calm.cfg = true ∧
    [Cm2In.table (Vector.replicate 512 0)].all (fun f => configOk { configDefault with cm2in := f }) = true := by
  decide +kernel

theorem witness_ShowOperations : NoReset calm ∧ calm.pins.sclk = false := ⟨witness_noReset.1, rfl⟩

/-- A cycle that reads 0, and one that does not. -/
theorem witness_RangingCycleShowsResult :
    NoReset calm ∧ calm.pins.sclk = false ∧
    gives (exec (.measureRaw 4) calm) (fun m => m.result = .ticks 0) = true ∧
    gives (exec (.measureRaw 4) (calm.setSchedule [(6, .echo true), (6, .cnt 1), (0, .echo false)])) (fun m =>
      m.result = .ticks 1) = true := ⟨witness_noReset.1, rfl, by decide +kernel, by decide +kernel⟩

theorem witness_ServicesHaveNoEffect : calm.window = .ok calm.countMicro := window_quiet rfl

theorem witness_ResetRestoresDefaults :
    (calm.setEnv { calm.env with resets := [zeroDraw] }).env.resets = zeroDraw :: [] := rfl

/-- The first and the last micro-step of the shortest transaction. -/
theorem witness_ResetAbandonsTransaction :
    ([0x40] : List Byte) ≠ [] ∧ (0 < 12 + 63 * ([0x40] : List Byte).length ∧ 74 < 12 + 63 * ([0x40] : List Byte).length) ∧
    (calm.setSchedule [(0, .reset), (3, .cnt 1)]).env.schedule = (0, .reset) :: [(3, .cnt 1)] ∧
    (calm.setSchedule [(74, .reset)]).env.schedule = (74, .reset) :: [] := by decide

theorem witness_BootSendsBrightness :
    NoReset calm ∧ calm.cfg.brightInit = none ∧
    ({ calm with cfg := { configDefault with brightInit := some 7 } } : State).cfg.brightInit = some 7 :=
  ⟨witness_noReset.1, rfl, rfl⟩

theorem witness_Ownership :
    NoReset busy ∧ Quiet calm ∧ writesState .boot = false ∧ writesUnit .mUp = false ∧ writesThreshold .mUp = false ∧
    writesStable .mUp = false ∧ writesEdge .cntTick = false ∧ writesCapu .ccrRead = false ∧ measures .sUp = false ∧
    drivesDisplay .srLatch = false ∧ drivesShift .twAck = false :=
  ⟨witness_noReset.2, rfl, rfl, rfl, rfl, rfl, rfl, rfl, rfl, rfl, rfl⟩

theorem witness_WorkingRegisterOwnership :
    NoReset busy ∧ measures .twAck = false ∧ writesPolln .twAck = false ∧ sendsBytes .twAck = false ∧
    sendsPattern .twAck = false ∧ writesFrame .twAck = false ∧ writesStable .twAck = false ∧
    writesRaw .twAck = false ∧ writesDist .twAck = false ∧ writesThru .twAck = false ∧ isTickOrReset .twAck = false ∧
    (Instr.srLatch ≠ .twAck) ∧ sendsBytes .srLatch = false :=
  ⟨witness_noReset.2, rfl, rfl, rfl, rfl, rfl, rfl, rfl, rfl, rfl, rfl, by decide, rfl⟩

theorem witness_LoopKeepsRestState :
    calm.script = [] ∧ Between calm ∧ (∃ t, step calm = .next t) ∧ ∃ t, step (calm.setSchedule [(9, .reset)]) = .next t :=
  ⟨rfl, ⟨rfl, by decide, by decide, .inl rfl, rfl, ⟨rfl, rfl, rfl⟩, rfl, rfl⟩, ⟨_, rfl⟩, ⟨_, rfl⟩⟩

theorem witness_StepKeepsMachineInvariant :
    MachineInv calm ∧ ∃ t, step (launching ⟨.dw, [15]⟩ calm) = .next t :=
  ⟨⟨by decide, by decide, by decide, .inl rfl, ⟨by decide, by decide⟩, by decide, by decide, by decide, by decide⟩, ⟨_, rfl⟩⟩

end Sys2Proof.Tests
end

section
/-! PROOFS. The statements of 00_scope: what a step runs (R9, R273), and what every operation keeps:
the configuration and the script, the growth of the trace and of the count of micro-steps, SEQ's position. -/

namespace Sys2Proof.Machine

/-! ## What a step runs -/

theorem step_of_fetch {s t : State} {i : Instr} (hl : launchRefusal s.cfg = none) (hf : fetch s = .ok (i, t)) :
    step s = exec i t := by
  unfold step
  rw [hl, hf]

theorem fetch_script {s : State} {w : OpWord} {more : List OpWord} {i : Instr} {rest : List Byte}
    (hs : s.script = w :: more) (hd : decode w.space w.bytes = .ok (i, rest)) :
    fetch s = .ok (i, s.setScript more) := by
  unfold fetch
  rw [hs]
  simp only [hd]

theorem fetch_idle {s : State} (hs : s.script = []) (hq : s.seq = .idle) : fetch s = .ok (.boot, s) := by
  unfold fetch
  rw [hs, hq]

theorem fetch_loop {s : State} (hs : s.script = []) (hq : s.seq = .loop) : fetch s = .ok (.tick, s) := by
  unfold fetch
  rw [hs, hq]

/-! ## What every operation keeps, a RESET in its midst included -/

/-- The configuration and the script stay, the trace and the count of micro-steps only grow. -/
structure Grows (s t : State) : Prop where
  cfg : t.cfg = s.cfg
  script : t.script = s.script
  trace : s.trace <:+ t.trace
  micro : s.micro ≤ t.micro

theorem grows_drive (p : Pins) (e : TraceEvent) (s : State) : Grows s (s.drive p e) where
  cfg := by simp
  script := by simp
  trace := by simp
  micro := by simp

theorem grows_release (s : State) : Grows s (s.setDir .inPullup) := by
  obtain ⟨-, htrace, -, -, -, -, -, -, hmicro, hscript, hcfg, -⟩ := State.setDir_inPullup_same s
  exact ⟨hcfg, hscript, htrace ▸ List.suffix_cons _ _, hmicro.ge⟩

theorem closed_grows : Closed Grows where
  refl _ := ⟨rfl, rfl, List.suffix_rfl, le_rfl⟩
  trans _ _ _ h g := ⟨g.cfg.trans h.cfg, g.script.trans h.script, h.trace.trans g.trace, h.micro.trans g.micro⟩
  events _ _ h hm := ⟨h.cfg, h.script, h.trace ▸ List.suffix_rfl, hm⟩
  reset _ _ h := ⟨h.cfg, h.script, h.trace ▸ List.suffix_rfl, h.micro.ge⟩
  drive := grows_drive
  release := grows_release
  trace _ _ := ⟨rfl, rfl, List.suffix_cons _ _, le_rfl⟩
  work _ _ _ := ⟨rfl, rfl, List.suffix_rfl, le_rfl⟩
  edge _ _ := ⟨rfl, rfl, List.suffix_rfl, le_rfl⟩
  clear _ := ⟨rfl, rfl, List.suffix_rfl, le_rfl⟩
  sample _ := ⟨rfl, rfl, List.suffix_rfl, le_rfl⟩
  measure _ := ⟨rfl, rfl, List.suffix_rfl, le_rfl⟩
  setup _ := ⟨rfl, rfl, List.suffix_rfl, le_rfl⟩
  toggle _ := ⟨rfl, rfl, List.suffix_rfl, le_rfl⟩
  adjust _ _ := ⟨rfl, rfl, List.suffix_rfl, le_rfl⟩
  stable _ _ := ⟨rfl, rfl, List.suffix_rfl, le_rfl⟩
  loop _ := ⟨rfl, rfl, List.suffix_rfl, le_rfl⟩
  result _ _ := ⟨rfl, rfl, List.suffix_rfl, le_rfl⟩

/-! ## SEQ's position -/

/-- Wherever the operation ends, SEQ's position is what it was (log 19). -/
def KeepsSeq {α : Type} (m : Op α) : Prop := Runs m (fun s _ t => t.seq = s.seq)

section
variable {α β : Type}

theorem KeepsSeq.bind {m : Op α} {k : α → Op β} (hm : KeepsSeq m) (hk : ∀ a, KeepsSeq (k a)) : KeepsSeq (m >>= k) :=
  (Runs.bind hm hk).mono fun _ _ _ ⟨_, _, h1, h2⟩ => h2.trans h1

theorem KeepsSeq.query (g : State → α) : KeepsSeq (Machine.query g) :=
  (Runs.query g).mono fun _ _ _ h => by rw [h.2]

theorem KeepsSeq.look (g : State → α) : KeepsSeq (Machine.look g) :=
  (Runs.look g).mono fun _ _ _ h => h.1.seq

/-- With no RESET to come the launched operation leaves SEQ where it was. -/
theorem KeepsSeq.run {m : Op α} (hm : KeepsSeq m) (v : α → Value) {s : State} (hs : NoReset s) :
    (Machine.run m v s).seq = s.seq := by
  obtain ⟨a, t, ht, -, hseq⟩ := Runs.run hm v hs
  rw [ht]
  exact hseq

end

theorem keepsSeq_delay (k : DelayKind) : KeepsSeq (delay k) := (runs_delay_marker k).mono fun _ _ _ h => h.1.still.seq

theorem keepsSeq_putWork (f : Work → Work) : KeepsSeq (putWork f) := (runs_putWork_silent f).mono fun _ _ _ h => h.1.seq

theorem keepsSeq_putCtrl (f : Ctrl → Ctrl) : KeepsSeq (putCtrl f) := (runs_putCtrl_frame f).mono fun _ _ _ h => h.1.seq

theorem keepsSeq_cfClear : KeepsSeq cfClear := runs_cfClear_still.mono fun _ _ _ h => h.1.seq

theorem keepsSeq_setEdge (e : Edge) : KeepsSeq (setEdge e) := (runs_setEdge_still e).mono fun _ _ _ h => h.1.seq

theorem keepsSeq_trigPulse : KeepsSeq trigPulse := runs_trigPulse.mono fun _ _ _ h => h.1.seq

theorem keepsSeq_waitCapture (timeout : Nat) : KeepsSeq (waitCapture timeout) :=
  (runs_waitCapture timeout).mono fun _ _ _ h => h.rangeStill.seq

theorem keepsSeq_measureRaw (timeout : Nat) : KeepsSeq (measureRaw timeout) :=
  (runs_measureRaw timeout).mono fun _ _ _ h => h.1.seq

theorem keepsSeq_twStart : KeepsSeq twStart := runs_twStart.mono fun _ _ _ h => h.1.still.seq

theorem keepsSeq_twBit (b : Bool) : KeepsSeq (twBit b) := (runs_twBit b).mono fun _ _ _ h => h.1.still.seq

theorem keepsSeq_twAck : KeepsSeq twAck := runs_twAck.mono fun _ _ _ h => h.1.still.seq

theorem keepsSeq_twByte (v : Byte) : KeepsSeq (twByte v) := (runs_twByte v).mono fun _ _ _ h => h.1.still.seq

theorem keepsSeq_twStop : KeepsSeq twStop := runs_twStop.mono fun _ _ _ h => h.1.still.seq

theorem keepsSeq_twTransaction (bytes : List Byte) : KeepsSeq (twTransaction bytes) :=
  keepsSeq_twStart.bind fun _ => .bind ((runs_twBytes bytes).mono fun _ _ _ h => h.1.still.seq) fun _ => keepsSeq_twStop

theorem keepsSeq_sendAutoinc : KeepsSeq sendAutoinc := runs_sendAutoinc.mono fun _ _ _ h => h.1.still.seq

theorem keepsSeq_sendDigits : KeepsSeq sendDigits := runs_sendDigits.mono fun _ _ _ h => h.1.still.seq

theorem keepsSeq_writeFrame : KeepsSeq writeFrame := runs_writeFrame.mono fun _ _ _ h => h.1.still.seq

theorem keepsSeq_textToFrame (text : Text) : KeepsSeq (textToFrame text) :=
  (runs_textToFrame text).mono fun _ _ _ h => h.1.still.seq

theorem keepsSeq_writeDigits (text : Text) : KeepsSeq (writeDigits text) :=
  (runs_writeDigits text).mono fun _ _ _ h => h.1.still.seq

theorem keepsSeq_setBrightness (level : Byte) : KeepsSeq (setBrightness level) :=
  (runs_setBrightness level).mono fun _ _ _ h => h.1.still.seq

theorem keepsSeq_srBit (b : Bool) : KeepsSeq (srBit b) := (runs_srBit b).mono fun _ _ _ h => h.1.still.seq

theorem keepsSeq_srLatch : KeepsSeq srLatch := runs_srLatch.mono fun _ _ _ h => h.1.still.seq

theorem keepsSeq_sendPattern (p : Byte) : KeepsSeq (sendPattern p) :=
  (runs_sendPattern p).mono fun _ _ _ h => h.1.still.seq

theorem keepsSeq_adcSample : KeepsSeq adcSample := runs_adcSample_takes.mono fun _ _ _ h => h.2.2.1.seq

theorem keepsSeq_readRaw : KeepsSeq readRaw := keepsSeq_adcSample.bind fun _ => .query _

theorem keepsSeq_readDebounced : KeepsSeq readDebounced := runs_readDebounced.mono fun _ _ _ h => h.2.1.seq

theorem keepsSeq_showError : KeepsSeq showError := runs_showError.mono fun _ _ _ h => h.1.still.seq

theorem keepsSeq_showDistance (raw : Nat) : KeepsSeq (showDistance raw) :=
  (runs_showDistance raw).mono fun _ _ _ h => h.1.still.seq

theorem keepsSeq_showThreshold : KeepsSeq showThreshold := runs_showThreshold.mono fun _ _ _ h => h.1.still.seq

theorem keepsSeq_rangingCycle : KeepsSeq rangingCycle := by
  refine .bind (.query _) fun timeout => (keepsSeq_measureRaw timeout).bind fun echo =>
    .bind ((runs_cutWork_silent fun cfg w => { w with raw := cfg.ticks echo }).mono fun _ _ _ h => h.1.seq) fun _ =>
    .bind (.query _) fun raw => ?_
  split
  · exact keepsSeq_showError
  · exact keepsSeq_showDistance raw

theorem keepsSeq_thrAdjust (delta : Int) : KeepsSeq (thrAdjust delta) := keepsSeq_putCtrl _

theorem keepsSeq_putState (v : BitVec StateBits) : KeepsSeq (putState v) := keepsSeq_putCtrl _

theorem keepsSeq_mNone : KeepsSeq mNone := keepsSeq_rangingCycle.bind fun _ => keepsSeq_delay _

theorem keepsSeq_mMode : KeepsSeq mMode := keepsSeq_putCtrl _

theorem keepsSeq_mUp : KeepsSeq mUp := (keepsSeq_putState _).bind fun _ => keepsSeq_showThreshold

theorem keepsSeq_mDown : KeepsSeq mDown := (keepsSeq_putState _).bind fun _ => keepsSeq_showThreshold

theorem keepsSeq_sNone : KeepsSeq sNone := keepsSeq_showThreshold.bind fun _ => keepsSeq_delay _

theorem keepsSeq_sMode : KeepsSeq sMode := (keepsSeq_putState _).bind fun _ => keepsSeq_delay _

theorem keepsSeq_sUp : KeepsSeq sUp :=
  (keepsSeq_thrAdjust _).bind fun _ => keepsSeq_showThreshold.bind fun _ => keepsSeq_delay _

theorem keepsSeq_sDown : KeepsSeq sDown :=
  (keepsSeq_thrAdjust _).bind fun _ => keepsSeq_showThreshold.bind fun _ => keepsSeq_delay _

theorem keepsSeq_fRecover : KeepsSeq fRecover := keepsSeq_putState _

theorem keepsSeq_arm (dw : BitVec 4) : KeepsSeq (arm dw) := by
  unfold arm
  split
  · exact keepsSeq_mNone
  · exact keepsSeq_mMode
  · exact keepsSeq_mUp
  · exact keepsSeq_mDown
  · exact keepsSeq_sNone
  · exact keepsSeq_sMode
  · exact keepsSeq_sUp
  · exact keepsSeq_sDown
  · exact keepsSeq_fRecover

theorem keepsSeq_tick : KeepsSeq tick :=
  keepsSeq_readDebounced.bind fun _ => (keepsSeq_putWork _).bind fun _ => .bind (.query _) fun dw => keepsSeq_arm dw

/-- With no RESET to come only BOOT and RESET move SEQ (log 19). -/
theorem exec_keepsSeq (i : Instr) {s : State} (hs : NoReset s) (hboot : i ≠ .boot) (hreset : i ≠ .reset) :
    ∃ t, exec i s = .next t ∧ t.seq = s.seq := by
  cases i with
  | boot => exact absurd rfl hboot
  | reset => exact absurd rfl hreset
  | echoRise => exact ⟨_, rfl, (undisturbed_echoTo true s).seq⟩
  | echoFall => exact ⟨_, rfl, (undisturbed_echoTo false s).seq⟩
  | cntTick | ticksToCm | ticksToInch | numToText | ledPattern | classify | cmToInch | thrInUnit | logText | logNumber =>
    exact ⟨_, rfl, rfl⟩
  | cfClear => exact ⟨_, rfl, keepsSeq_cfClear.run _ hs⟩
  | setEdgeRising | setEdgeFalling => exact ⟨_, rfl, (keepsSeq_setEdge _).run _ hs⟩
  | ccrRead | cfRead => exact ⟨_, rfl, (KeepsSeq.look _).run _ hs⟩
  | trigPulse => exact ⟨_, rfl, keepsSeq_trigPulse.run _ hs⟩
  | waitCapture => exact ⟨_, rfl, (keepsSeq_waitCapture _).run _ hs⟩
  | measureRaw => exact ⟨_, rfl, (keepsSeq_measureRaw _).run _ hs⟩
  | twStart => exact ⟨_, rfl, keepsSeq_twStart.run _ hs⟩
  | twBit => exact ⟨_, rfl, (keepsSeq_twBit _).run _ hs⟩
  | twAck => exact ⟨_, rfl, keepsSeq_twAck.run _ hs⟩
  | twByte => exact ⟨_, rfl, (keepsSeq_twByte _).run _ hs⟩
  | twStop => exact ⟨_, rfl, keepsSeq_twStop.run _ hs⟩
  | twTransaction => exact ⟨_, rfl, (keepsSeq_twTransaction _).run _ hs⟩
  | textToFrame => exact ⟨_, rfl, (keepsSeq_textToFrame _).run _ hs⟩
  | writeFrame => exact ⟨_, rfl, keepsSeq_writeFrame.run _ hs⟩
  | writeDigits => exact ⟨_, rfl, (keepsSeq_writeDigits _).run _ hs⟩
  | setBrightness | cmdCtrl => exact ⟨_, rfl, (keepsSeq_setBrightness _).run _ hs⟩
  | srBit => exact ⟨_, rfl, (keepsSeq_srBit _).run _ hs⟩
  | srLatch => exact ⟨_, rfl, keepsSeq_srLatch.run _ hs⟩
  | sendPattern => exact ⟨_, rfl, (keepsSeq_sendPattern _).run _ hs⟩
  | adcSample => exact ⟨_, rfl, keepsSeq_adcSample.run _ hs⟩
  | readRaw => exact ⟨_, rfl, keepsSeq_readRaw.run _ hs⟩
  | readDebounced => exact ⟨_, rfl, keepsSeq_readDebounced.run _ hs⟩
  | tick => exact ⟨_, rfl, keepsSeq_tick.run _ hs⟩
  | rangingCycle => exact ⟨_, rfl, keepsSeq_rangingCycle.run _ hs⟩
  | showError => exact ⟨_, rfl, keepsSeq_showError.run _ hs⟩
  | showDistance => exact ⟨_, rfl, (keepsSeq_showDistance _).run _ hs⟩
  | showThreshold => exact ⟨_, rfl, keepsSeq_showThreshold.run _ hs⟩
  | thrAdjust => exact ⟨_, rfl, (keepsSeq_thrAdjust _).run _ hs⟩
  | delayUs | delayMs => exact ⟨_, rfl, (keepsSeq_delay _).run _ hs⟩
  | mNone => exact ⟨_, rfl, keepsSeq_mNone.run _ hs⟩
  | mMode => exact ⟨_, rfl, keepsSeq_mMode.run _ hs⟩
  | mUp => exact ⟨_, rfl, keepsSeq_mUp.run _ hs⟩
  | mDown => exact ⟨_, rfl, keepsSeq_mDown.run _ hs⟩
  | sNone => exact ⟨_, rfl, keepsSeq_sNone.run _ hs⟩
  | sMode => exact ⟨_, rfl, keepsSeq_sMode.run _ hs⟩
  | sUp => exact ⟨_, rfl, keepsSeq_sUp.run _ hs⟩
  | sDown => exact ⟨_, rfl, keepsSeq_sDown.run _ hs⟩
  | fRecover => exact ⟨_, rfl, keepsSeq_fRecover.run _ hs⟩
  | cmdAutoinc => exact ⟨_, rfl, keepsSeq_sendAutoinc.run _ hs⟩
  | cmdAddr0 => exact ⟨_, rfl, keepsSeq_sendDigits.run _ hs⟩

/-! ## The obligations of 00_scope -/

/-- Settles O57: `Grows` holds along every operation, and `exec_keepsSeq` gives SEQ's position. -/
theorem configIsConstantAndTraceGrows : Obligations.ConfigIsConstantAndTraceGrows := by
  intro i s
  obtain ⟨t, ht, hgrows⟩ := exec_along closed_grows i s
  obtain ⟨l, hl⟩ := hgrows.trace
  refine ⟨t, ht, hgrows.cfg, hgrows.script, ⟨l, hl.symm⟩, hgrows.micro, fun hs hboot hreset => ?_⟩
  obtain ⟨u, hu, hseq⟩ := exec_keepsSeq i hs hboot hreset
  cases ht.symm.trans hu
  exact hseq

/-- Settles O5, by what `fetch` gives in each of its three cases. -/
theorem stepRunsDecodedOperation : Obligations.StepRunsDecodedOperation :=
  ⟨fun _ _ _ _ _ hl hs hd => step_of_fetch hl (fetch_script hs hd),
    fun _ hl hs => ⟨fun hq => step_of_fetch hl (fetch_idle hs hq), fun hq => step_of_fetch hl (fetch_loop hs hq)⟩⟩

/-- Settles O11: one law of Laws/Window.lean or Laws/Polls.lean for each head the schedule can have. -/
theorem windowDeliversDueEvents : Obligations.WindowDeliversDueEvents := fun _ =>
  ⟨window_quiet, fun _ _ _ => window_later, fun _ _ => window_cnt, fun _ _ => window_echo, fun _ => window_reset⟩

end Sys2Proof.Machine
end

section
/-! PROOFS. The invariants of 10_state: what holds between operations of the loop (R35), what every step keeps
(R29, R27, R53, R11, R12, R21 to R23, R37), and both at reset (R34). -/

namespace Sys2Proof.Machine

/-! ## What a step that answers a next state has run -/

theorem step_next {s t : State} (h : step s = .next t) : ∃ i u, fetch s = .ok (i, u) ∧ exec i u = .next t := by
  unfold step at h
  split at h
  · cases h
  · split at h
    · exact ⟨_, _, ‹_›, h⟩
    · cases h

/-- The state an operation starts from differs in the script only. -/
theorem fetch_state {s u : State} {i : Instr} (h : fetch s = .ok (i, u)) : ∃ l, u = s.setScript l := by
  unfold fetch at h
  split at h
  · split at h <;> cases h
    exact ⟨_, rfl⟩
  · split at h <;> cases h <;> exact ⟨s.script, rfl⟩

/-- With nothing launched a step is BOOT or TICK (R273). -/
theorem step_loop {s t : State} (hs : s.script = []) (h : step s = .next t) :
    exec .boot s = .next t ∨ exec .tick s = .next t := by
  obtain ⟨i, u, hf, ht⟩ := step_next h
  cases hq : s.seq
  · cases (fetch_idle hs hq).symm.trans hf
    exact .inl ht
  · cases (fetch_loop hs hq).symm.trans hf
    exact .inr ht

/-! ## What holds between operations (R35) -/

/-- The part of `Between` that is about the control state (R35 b, c). -/
def Ctrl.AtRest (c : Ctrl) : Prop := c.threshold.toNat ≤ 400 ∧ c.threshold.toNat % 10 = 0 ∧ LegalState c

theorem ctrlReset_atRest : ctrlReset.AtRest := ⟨by decide, by decide, .inl rfl⟩

/-- An adjustment by a multiple of THR_STEP, clamped at 0 and 400, keeps the multiples of 10. -/
theorem adjustThreshold_mod_ten {t : Dist} {delta : Int} (ht : t.toNat % 10 = 0) (hd : delta % 10 = 0) :
    (adjustThreshold t delta).toNat % 10 = 0 := by
  have := adjustThreshold_toNat t delta
  omega

/-- Every arm keeps the control state at rest. -/
theorem armCtrl_atRest (e : Button) {c : Ctrl} (h : c.AtRest) : (armCtrl e c).AtRest := by
  obtain ⟨hle, hten, hlegal⟩ := h
  unfold armCtrl
  split_ifs
  · cases e
    · exact ⟨hle, hten, hlegal⟩
    · exact ⟨hle, hten, hlegal⟩
    · exact ⟨hle, hten, .inr rfl⟩
    · exact ⟨hle, hten, .inr rfl⟩
  · cases e
    · exact ⟨hle, hten, hlegal⟩
    · exact ⟨hle, hten, .inl rfl⟩
    · exact ⟨adjustThreshold_le _ _, adjustThreshold_mod_ten hten (by decide), by simpa [LegalState] using hlegal⟩
    · exact ⟨adjustThreshold_le _ _, adjustThreshold_mod_ten hten (by decide), by simpa [LegalState] using hlegal⟩
  · exact ⟨hle, hten, .inl rfl⟩

/-- A RESET in the midst of an operation leaves the rest state (R270). -/
theorem Aborted.between {t : State} (h : Aborted t) : Between t := by
  obtain ⟨hle, hten, hlegal⟩ := ctrlReset_atRest
  unfold Between
  rw [h.edge, h.ctrl, h.pins]
  exact ⟨rfl, hle, hten, hlegal, rfl, ⟨rfl, rfl, rfl⟩, rfl, rfl⟩

/-- What an operation of the loop does to the rest state, where it ends. -/
def RestStep (s t : State) : Prop := RestKept s t ∧ (s.ctrl.AtRest → t.ctrl.AtRest)

theorem RestStep.between {s t : State} (h : RestStep s t) (hs : Between s) : Between t := by
  obtain ⟨⟨hedge, hpins⟩, hctrl⟩ := h
  obtain ⟨he, hle, hten, hlegal, hp⟩ := hs
  obtain ⟨hle', hten', hlegal'⟩ := hctrl ⟨hle, hten, hlegal⟩
  exact ⟨hedge he, hle', hten', hlegal', hpins hp⟩

theorem runs_tick_restStep : Runs tick (fun s _ t => RestStep s t) :=
  (Runs.and rests_tick runs_tick).mono fun s _ t ⟨hrest, hctrl, _⟩ => ⟨hrest, fun h => by
    rw [hctrl]
    exact armCtrl_atRest _ h⟩

theorem runs_goto (q : SeqPos) : Runs (goto q) (fun s _ t => t = s.setSeq q) :=
  fun s => .inl ⟨(), s.setSeq q, rfl, id, rfl⟩

theorem runs_goto_restStep (q : SeqPos) : Runs (goto q) (fun s _ t => RestStep s t) :=
  (runs_goto q).mono fun _ _ _ ht => by
    subst ht
    exact ⟨RestKept.of_same rfl rfl, id⟩

theorem runs_setBrightness_restStep (level : Byte) : Runs (setBrightness level) (fun s _ t => RestStep s t) :=
  (runs_setBrightness level).mono fun _ _ _ ⟨hpart, _⟩ =>
    ⟨⟨fun he => hpart.still.edge.trans he, fun hp => by rw [hpart.pins]; exact Pins.busIdle_rests hp⟩,
      fun hc => by rw [hpart.still.ctrl]; exact hc⟩

theorem RestStep.trans {s t u : State} (h : RestStep s t) (g : RestStep t u) : RestStep s u :=
  ⟨h.1.trans g.1, fun hc => g.2 (h.2 hc)⟩

theorem runs_boot_restStep : Runs boot (fun s _ t => RestStep s t) := by
  refine (Runs.bind (Runs.query _) fun level => (?_ : Runs _ fun s _ t => RestStep s t)).mono
    fun s _ t ⟨_, _, ⟨_, hs⟩, h⟩ => hs ▸ h
  cases level
  · exact runs_goto_restStep .loop
  · exact (Runs.bind (runs_setBrightness_restStep _) fun _ => runs_goto_restStep .loop).mono
      fun _ _ _ ⟨_, _, h1, h2⟩ => h1.trans h2

/-- An operation of the loop leads from rest to rest, whether it ends or a RESET abandons it. -/
theorem Runs.between {m : Op Unit} (h : Runs m fun s _ t => RestStep s t) (v : Unit → Value) {s : State}
    (hs : Between s) : Between (Machine.run m v s) := by
  rcases h.run_cases v s with ⟨_, t, ht, hstep⟩ | habort
  · rw [ht]
    exact hstep.between hs
  · exact habort.between

/-- No operation changes the script (log 30). -/
theorem exec_script {i : Instr} {s t : State} (h : exec i s = .next t) : t.script = s.script := by
  obtain ⟨u, hu, hgrows⟩ := exec_along closed_grows i s
  cases h.symm.trans hu
  exact hgrows.script

/-- Settles O58: BOOT and TICK keep the rest state where they end, and a RESET restores it. -/
theorem loopKeepsRestState : Obligations.LoopKeepsRestState := by
  intro s t hs hb h
  rcases step_loop hs h with hexec | hexec
  · refine ⟨?_, (exec_script hexec).trans hs⟩
    cases hexec
    exact runs_boot_restStep.between _ hb
  · refine ⟨?_, (exec_script hexec).trans hs⟩
    cases hexec
    exact runs_tick_restStep.between _ hb

/-! ## What every step keeps -/

/-- The machine invariant is kept. -/
def InvKept (s t : State) : Prop := MachineInv s → MachineInv t

theorem invKept_of_display {s t : State} (hctrl : t.ctrl = s.ctrl) (hcapu : t.capu = s.capu) (hwork : t.work = s.work)
    (hcfg : t.cfg = s.cfg) (hwf : Mem.wf s.display.panel.mem = true → Mem.wf t.display.panel.mem = true)
    (hbelow : Mem.below 4 s.display.panel.mem = true → Mem.below 4 t.display.panel.mem = true) : InvKept s t := by
  rintro ⟨h1, h2, h3⟩
  unfold MachineInv
  rw [hctrl, hcapu, hwork, hcfg]
  exact ⟨hwf h1, hbelow h2, h3⟩

theorem invKept_drive (p : Pins) (e : TraceEvent) (s : State) : InvKept s (s.drive p e) := by
  obtain ⟨hwf, hbelow⟩ := senseDisplay_wf s.pins.dclk s.dioLine ((s.setPins p).addTrace e)
  rw [← State.drive_display] at hwf hbelow
  exact invKept_of_display (by simp) (by simp) (by simp) (by simp) hwf hbelow

theorem invKept_release (s : State) : InvKept s (s.setDir .inPullup) := by
  obtain ⟨-, -, hcapu, hctrl, hwork, -, -, -, -, -, hcfg, -⟩ := State.setDir_inPullup_same s
  obtain ⟨hwf, hbelow⟩ := senseDisplay_wf s.pins.dclk s.dioLine
    (((s.setEnv s.env.holdAck).setPins { s.pins with dioDir := .inPullup }).addTrace (.dir .inPullup))
  exact invKept_of_display hctrl hcapu hwork hcfg hwf hbelow

theorem invKept_undisturbed {s t : State} (h : Undisturbed s t) : InvKept s t := by
  rintro ⟨h1, h2, h3, h4, hcapu, hwork⟩
  unfold MachineInv
  rw [h.display, h.ctrl, h.work, h.cfg]
  exact ⟨h1, h2, h3, h4, h.width hcapu, hwork⟩

theorem invKept_afterReset {s t : State} (h : AfterReset s t) : InvKept s t := by
  rintro ⟨h1, h2, -⟩
  unfold MachineInv
  rw [h.display, h.ctrl, h.cfg]
  exact ⟨h1, h2, ctrlReset_atRest.1, .inl rfl, h.width⟩

theorem invKept_setCtrl {s : State} {c : Ctrl} (hle : s.ctrl.threshold.toNat ≤ 400 → c.threshold.toNat ≤ 400)
    (hlegal : LegalState s.ctrl → LegalState c) : InvKept s (s.setCtrl c) :=
  fun ⟨h1, h2, h3, h4, h5⟩ => ⟨h1, h2, hle h3, hlegal h4, h5⟩

theorem invKept_setWork {s : State} {w : Work} (h : WorkStep s w) : InvKept s (s.setWork w) :=
  fun ⟨h1, h2, h3, h4, hcapu, hwork⟩ => ⟨h1, h2, h3, h4, hcapu, h.inWidth hcapu hwork⟩

/-- Every kind of micro-step, each event and RESET keep the machine invariant. -/
theorem closed_invKept : Closed InvKept where
  refl _ := id
  trans _ _ _ h g := g ∘ h
  events _ _ h _ := invKept_undisturbed h
  reset _ _ := invKept_afterReset
  drive := invKept_drive
  release := invKept_release
  trace _ _ := id
  work _ _ := invKept_setWork
  edge _ _ := id
  clear _ := id
  sample _ := id
  measure _ := invKept_setCtrl id fun _ => .inl rfl
  setup _ := invKept_setCtrl id fun _ => .inr rfl
  toggle _ := invKept_setCtrl id id
  adjust _ _ := invKept_setCtrl (fun _ => adjustThreshold_le _ _) id
  stable _ _ := invKept_setCtrl id id
  loop _ := id
  result _ _ := id

/-- Settles O59: the operation a step runs starts from the invariant, and `InvKept` holds along it. -/
theorem stepKeepsMachineInvariant : Obligations.StepKeepsMachineInvariant := by
  intro s t hs h
  obtain ⟨i, u, hf, ht⟩ := step_next h
  obtain ⟨l, rfl⟩ := fetch_state hf
  obtain ⟨t', ht', hkept⟩ := exec_along closed_invKept i (s.setScript l)
  cases ht.symm.trans ht'
  exact hkept hs

/-! ## The state after reset -/

theorem aborted_reset : Aborted State.reset := ⟨rfl, rfl, rfl, rfl, rfl⟩

theorem machineInv_reset : MachineInv State.reset :=
  ⟨panelOf_wf _, panelOf_below _, ctrlReset_atRest.1, .inl rfl, ⟨Config.ticks_lt _ _, Config.ticks_lt _ _⟩,
    Config.ticks_lt _ _, Config.ticks_lt _ _, Config.ticks_lt _ _, Config.polls_lt _ _⟩

/-- Settles O60: the values by R34; the rest state as after any RESET; the counts are cut to their widths, and
the display's power-on content is canonical. -/
theorem resetStateMeetsInvariants : Obligations.ResetStateMeetsInvariants :=
  ⟨rfl, rfl, rfl, rfl, aborted_reset.between, rfl, machineInv_reset⟩

end Sys2Proof.Machine
end

section
/-! PROOFS. Ownership (10_state R11 to R37, R218): every register, pin and device with its writers in one table, the
footprint of every operation, and the statements about owners read off them. A footprint holds with no RESET to come,
whatever the counter and ECHO do; what these two write themselves is claimed for a quiet environment only. -/

namespace Sys2Proof.Machine

/-! ## What is owned -/

/-- The parts of the state that have writers of their own; parts that always share their writers are one. -/
inductive Owned where
  | edge | capu | echo | trig | displayBus | shiftBus | echoTimes | polln | shifter | ackv | frame | cand | raw | dist
  | thru | ev | opState | unit | threshold | stable
deriving DecidableEq

/-- The part is as it was. The counter and ENV write the capture unit and ECHO by themselves, unless no event is to
come. -/
def Owned.Same : Owned → State → State → Prop
  | .edge, s, t => t.capu.edge = s.capu.edge
  | .capu, s, t => Quiet s → t.capu = s.capu
  | .echo, s, t => Quiet s → t.env.echo = s.env.echo
  | .trig, s, t => t.pins.trig = s.pins.trig
  | .displayBus, s, t => t.pins.dclk = s.pins.dclk ∧ t.pins.dioOut = s.pins.dioOut ∧ t.pins.dioDir = s.pins.dioDir ∧
      t.display = s.display ∧ t.env.ack = s.env.ack
  | .shiftBus, s, t => t.pins.sdat = s.pins.sdat ∧ t.pins.sclk = s.pins.sclk ∧ t.pins.slat = s.pins.slat ∧
      t.leds = s.leds
  | .echoTimes, s, t => t.work.rise = s.work.rise ∧ t.work.fall = s.work.fall
  | .polln, s, t => t.work.polln = s.work.polln
  | .shifter, s, t => t.work.sh = s.work.sh ∧ t.work.bi = s.work.bi
  | .ackv, s, t => t.work.ackv = s.work.ackv
  | .frame, s, t => t.work.frame = s.work.frame
  | .cand, s, t => t.work.cand = s.work.cand
  | .raw, s, t => t.work.raw = s.work.raw
  | .dist, s, t => t.work.dist = s.work.dist
  | .thru, s, t => t.work.thru = s.work.thru
  | .ev, s, t => t.work.ev = s.work.ev
  | .opState, s, t => t.ctrl.opState = s.ctrl.opState
  | .unit, s, t => t.ctrl.unit = s.ctrl.unit
  | .threshold, s, t => t.ctrl.threshold = s.ctrl.threshold
  | .stable, s, t => t.ctrl.stable = s.ctrl.stable

/-- The operations that write the part (R218 and the "written only by" of 10_state). -/
def Owned.writtenBy : Owned → Instr → Bool
  | .edge, i => writesEdge i
  | .capu, i => writesCapu i
  | .echo, i => i = .echoRise || i = .echoFall
  | .trig, i => measures i || i = .trigPulse
  | .displayBus, i => drivesDisplay i
  | .shiftBus, i => drivesShift i
  | .echoTimes, i => measures i
  | .polln, i => writesPolln i
  | .shifter, i => sendsBytes i || sendsPattern i
  | .ackv, i => sendsBytes i || i = .twAck
  | .frame, i => writesFrame i
  | .cand, i => writesStable i
  | .raw, i => writesRaw i
  | .dist, i => writesDist i
  | .thru, i => writesThru i
  | .ev, i => isTickOrReset i
  | .opState, i => writesState i
  | .unit, i => writesUnit i
  | .threshold, i => writesThreshold i
  | .stable, i => writesStable i

namespace Owned

theorem Same.refl (r : Owned) (s : State) : r.Same s s := by
  cases r <;> simp [Same]

theorem Same.trans {r : Owned} {s t u : State} (hq : Quiet s → Quiet t) (h : r.Same s t) (g : r.Same t u) :
    r.Same s u := by
  cases r <;> simp_all [Same]

/-- The return value is no owned part. -/
theorem same_setResult {r : Owned} {s t : State} (v : Value) : r.Same s (t.setResult v) ↔ r.Same s t := by
  cases r <;> rfl

/-- The other agents write the capture unit and ECHO, and nothing else that is owned. -/
theorem same_of_undisturbed {r : Owned} {s t : State} (h : Undisturbed s t) (hcapu : r ≠ .capu) (hecho : r ≠ .echo) :
    r.Same s t := by
  cases r <;> simp_all [Same, h.edge, h.pins, h.ctrl, h.work, h.display, h.leds, h.ack]

end Owned

/-! ## Footprints -/

/-- From `s` to `t` nothing is written but the listed parts, and a quiet environment stays quiet. -/
def OnlyWritten (l : List Owned) (s t : State) : Prop := (Quiet s → Quiet t) ∧ ∀ r, r ∉ l → r.Same s t

theorem OnlyWritten.refl (s : State) : OnlyWritten [] s s := ⟨id, fun r _ => Owned.Same.refl r s⟩

theorem OnlyWritten.mono {l l' : List Owned} {s t : State} (h : OnlyWritten l s t) (hl : l ⊆ l') : OnlyWritten l' s t :=
  ⟨h.1, fun r hr => h.2 r fun hm => hr (hl hm)⟩

theorem OnlyWritten.trans {l l' : List Owned} {s t u : State} (h : OnlyWritten l s t) (g : OnlyWritten l' t u) :
    OnlyWritten (l ++ l') s u :=
  ⟨g.1 ∘ h.1, fun r hr => by
    rw [List.mem_append, not_or] at hr
    exact (h.2 r hr.1).trans h.1 (g.2 r hr.2)⟩

/-- The window before a micro-step writes no owned part but those of the other agents, and these only if an event is
to come. -/
theorem onlyWritten_window {s t : State} (h : s.window = .ok t) : OnlyWritten [] s t := by
  have hquiet : Quiet s → t = s.countMicro := fun hq => by
    cases h.symm.trans (window_quiet hq)
    rfl
  have hund : Undisturbed s t := by
    rcases window_cases s with ⟨u, hu, hd, -⟩ | ⟨u, hu, -⟩
    · cases h.symm.trans hu
      exact hd
    · cases h.symm.trans hu
  refine ⟨fun hq => hquiet hq ▸ hq, fun r _ => ?_⟩
  cases r
  case capu => exact fun hq => hquiet hq ▸ rfl
  case echo => exact fun hq => hquiet hq ▸ rfl
  all_goals exact Owned.same_of_undisturbed hund (by decide) (by decide)

/-- The footprint of an operation: wherever it ends, only the listed parts are written. -/
def WritesOnly {α : Type} (l : List Owned) (m : Op α) : Prop := Runs m fun s _ t => OnlyWritten l s t

section
variable {α β : Type} {l l' : List Owned}

theorem WritesOnly.mono {m : Op α} (h : WritesOnly l m) (hl : l ⊆ l') : WritesOnly l' m :=
  Runs.mono h fun _ _ _ h => h.mono hl

theorem WritesOnly.bind {m : Op α} {k : α → Op β} (hm : WritesOnly l m) (hk : ∀ a, WritesOnly l' (k a)) :
    WritesOnly (l ++ l') (m >>= k) :=
  (Runs.bind hm hk).mono fun _ _ _ ⟨_, _, h1, h2⟩ => h1.trans h2

theorem WritesOnly.pure (a : α) : WritesOnly [] (Pure.pure a : Op α) :=
  (Runs.pure a).mono fun s _ _ h => h.2 ▸ OnlyWritten.refl s

theorem WritesOnly.query (g : State → α) : WritesOnly [] (Machine.query g) :=
  (Runs.query g).mono fun s _ _ h => h.2 ▸ OnlyWritten.refl s

theorem WritesOnly.goto (q : SeqPos) : WritesOnly [] (Machine.goto q) :=
  (runs_goto q).mono fun s _ _ h => h ▸ ⟨id, fun r _ => by cases r <;> simp [Owned.Same]⟩

/-- A micro-step writes what its change of the state writes. -/
theorem WritesOnly.micro {f : State → α × State} (hs : ∀ s, (f s).2.env.schedule = s.env.schedule)
    (hf : ∀ s r, r ∉ l → r.Same s (f s).2) : WritesOnly l (Machine.micro f) := fun s => by
  rcases window_cases s with ⟨t, ht, -, -, hn⟩ | ⟨t, ht, hr, hn⟩
  · refine .inl ⟨_, _, micro_ok ht, fun h => ?_, (onlyWritten_window ht).trans (l' := l) ⟨fun hq => ?_, hf t⟩⟩
    · unfold NoReset
      rw [hs]
      exact hn h
    · exact (hs t).trans hq
  · exact .inr ⟨t, micro_error ht, hr.aborted, hn⟩

theorem WritesOnly.act {f : State → State} (hs : ∀ s, (f s).env.schedule = s.env.schedule)
    (hf : ∀ s r, r ∉ l → r.Same s (f s)) : WritesOnly l (Machine.act f) := WritesOnly.micro hs hf

theorem WritesOnly.look (g : State → α) : WritesOnly [] (Machine.look g) :=
  WritesOnly.micro (fun _ => rfl) fun s r _ => Owned.Same.refl r s

end

/-! ## The micro-steps -/

theorem writesOnly_control : WritesOnly [] control := WritesOnly.act (fun _ => rfl) fun s r _ => Owned.Same.refl r s

theorem writesOnly_delay (k : DelayKind) : WritesOnly [] (delay k) :=
  WritesOnly.act (fun _ => rfl) fun s r _ => by cases r <;> simp [Owned.Same]

/-- A write of working registers: by default each register that is not listed is seen to keep its value. -/
theorem writesOnly_workAct {l : List Owned} (f : State → Work)
    (hf : ∀ s r, r ∉ l → r.Same s (s.setWork (f s)) := by intro s r hr; cases r <;> simp_all [Owned.Same]) :
    WritesOnly l (act fun s => s.setWork (f s)) := WritesOnly.act (fun _ => rfl) hf

/-- A write of the control state, in the same way. -/
theorem writesOnly_ctrlAct {l : List Owned} (f : State → Ctrl)
    (hf : ∀ s r, r ∉ l → r.Same s (s.setCtrl (f s)) := by intro s r hr; cases r <;> simp_all [Owned.Same]) :
    WritesOnly l (act fun s => s.setCtrl (f s)) := WritesOnly.act (fun _ => rfl) hf

theorem writesOnly_cfClear : WritesOnly [.capu] cfClear :=
  WritesOnly.act (fun _ => rfl) fun s r hr => by cases r <;> simp_all [Owned.Same, Capu.clearFlag]

theorem writesOnly_setEdge (e : Edge) : WritesOnly [.edge, .capu] (setEdge e) :=
  WritesOnly.act (fun _ => rfl) fun s r hr => by cases r <;> simp_all [Owned.Same]

theorem writesOnly_adcSample : WritesOnly [] adcSample :=
  WritesOnly.micro (fun _ => rfl) fun s r _ => by cases r <;> simp [Owned.Same, Env.dropSample]

/-- The owner of a pin. -/
def Pin.owned : Pin → Owned
  | .trig => .trig
  | .dclk | .dio => .displayBus
  | .sdat | .sclk | .slat => .shiftBus

/-- A change of pins with the trace event and the receivers: a bus whose pins stay is not reached. -/
theorem same_drive {p : Pins} {e : TraceEvent} {s : State} {r : Owned} (htrig : r = .trig → p.trig = s.pins.trig)
    (hdisplay : r = .displayBus → p.dclk = s.pins.dclk ∧ p.dioOut = s.pins.dioOut ∧ p.dioDir = s.pins.dioDir)
    (hshift : r = .shiftBus → p.sdat = s.pins.sdat ∧ p.sclk = s.pins.sclk ∧ p.slat = s.pins.slat) :
    r.Same s (s.drive p e) := by
  have henv := State.drive_env p e s
  cases r
  case echo => exact fun _ => by rw [henv]
  case displayBus =>
    obtain ⟨hclk, hout, hdir⟩ := hdisplay rfl
    exact ⟨by simpa, by simpa, by simpa, State.drive_display_of_same hclk hout hdir, by rw [henv]⟩
  case shiftBus =>
    obtain ⟨hdat, hclk, hlat⟩ := hshift rfl
    exact ⟨by simpa, by simpa, by simpa, State.drive_leds_of_same hclk hlat⟩
  all_goals simp_all [Owned.Same]

/-- A write of a pin keeps the levels of the pins with other owners. -/
theorem Pins.put_same (q : Pins) (p : Pin) (v : Bool) :
    (p.owned ≠ .trig → (q.put p v).trig = q.trig) ∧
    (p.owned ≠ .displayBus → (q.put p v).dclk = q.dclk ∧ (q.put p v).dioOut = q.dioOut ∧
      (q.put p v).dioDir = q.dioDir) ∧
    (p.owned ≠ .shiftBus → (q.put p v).sdat = q.sdat ∧ (q.put p v).sclk = q.sclk ∧ (q.put p v).slat = q.slat) := by
  cases p <;> simp [Pin.owned, Pins.put]

theorem writesOnly_pinWrite (p : Pin) (v : Bool) : WritesOnly [p.owned] (pinWrite p v) :=
  WritesOnly.act (fun _ => State.drive_schedule _ _ _) fun s r hr => by
    have hne : p.owned ≠ r := fun h => hr (h ▸ List.mem_singleton_self _)
    obtain ⟨htrig, hdisplay, hshift⟩ := s.pins.put_same p v
    exact same_drive (fun h => htrig (h ▸ hne)) (fun h => hdisplay (h ▸ hne)) fun h => hshift (h ▸ hne)

theorem writesOnly_dirWrite (d : Dir) : WritesOnly [.displayBus] (dirWrite d) :=
  WritesOnly.act (fun _ => State.setDir_schedule _ _) fun s r hr => by
    rw [List.mem_singleton] at hr
    cases d
    case out => exact same_drive (fun _ => rfl) (fun h => absurd h hr) fun _ => ⟨rfl, rfl, rfl⟩
    case inPullup =>
      obtain ⟨hpins, -, hcapu, hctrl, hwork, -, hleds, -, -, -, -, henv⟩ := State.setDir_inPullup_same s
      cases r
      case echo => exact fun _ => by rw [henv]; rfl
      all_goals simp_all [Owned.Same]

/-! ## The capture unit and the range sensor -/

theorem writesOnly_trigPulse : WritesOnly [.trig] trigPulse :=
  ((writesOnly_pinWrite .trig _).bind fun _ => (writesOnly_delay _).bind fun _ => writesOnly_pinWrite .trig _).mono
    (by decide)

theorem writesOnly_pollOnce (timeout : Nat) {again : Op WaitResult} (h : WritesOnly [.polln] again) :
    WritesOnly [.polln] (pollOnce timeout again) := by
  refine (WritesOnly.look _).bind fun f => writesOnly_control.bind fun _ => ?_
  split
  · exact (WritesOnly.pure _).mono (by decide)
  · refine ((writesOnly_workAct (l := [.polln]) _).bind fun _ => (WritesOnly.look _).bind fun n =>
      (?_ : WritesOnly [.polln] _)).mono (by decide)
    split
    · exact (WritesOnly.pure _).mono (by decide)
    · exact writesOnly_control.bind fun _ => h

theorem writesOnly_pollLoop (timeout : Nat) : ∀ fuel, WritesOnly [.polln] (pollLoop timeout fuel)
  | 0 => writesOnly_pollOnce timeout ((WritesOnly.pure _).mono (by decide))
  | fuel + 1 => writesOnly_pollOnce timeout (writesOnly_pollLoop timeout fuel)

theorem writesOnly_continueWait (timeout : Nat) : WritesOnly [.polln] (continueWait timeout) :=
  (WritesOnly.query _).bind fun budget => writesOnly_pollLoop budget _

theorem writesOnly_waitCapture (timeout : Nat) : WritesOnly [.polln] (waitCapture timeout) :=
  ((writesOnly_workAct (l := [.polln]) _).bind fun _ => writesOnly_continueWait timeout).mono (by decide)

theorem writesOnly_secondWait (timeout : Nat) : WritesOnly [.polln] (secondWait timeout) := by
  refine (WritesOnly.query _).bind fun restart => ?_
  split
  · exact writesOnly_waitCapture timeout
  · exact writesOnly_continueWait timeout

/-- What a measurement writes. -/
def measuring : List Owned := [.edge, .capu, .trig, .echoTimes, .polln]

theorem writesOnly_measureFall (timeout : Nat) : WritesOnly measuring (measureFall timeout) := by
  refine ((writesOnly_workAct (l := [.echoTimes]) _).bind fun _ => writesOnly_cfClear.bind fun _ =>
    (writesOnly_setEdge _).bind fun _ => (writesOnly_secondWait timeout).bind fun r =>
    (?_ : WritesOnly measuring _)).mono (by decide)
  cases r
  · exact ((writesOnly_workAct (l := [.echoTimes]) _).bind fun _ => (writesOnly_setEdge _).bind fun _ =>
      WritesOnly.look _).mono (by decide)
  · exact ((writesOnly_setEdge _).bind fun _ => WritesOnly.pure _).mono (by decide)

theorem writesOnly_measureRaw (timeout : Nat) : WritesOnly measuring (measureRaw timeout) := by
  refine (writesOnly_cfClear.bind fun _ => (writesOnly_setEdge _).bind fun _ => writesOnly_trigPulse.bind fun _ =>
    (writesOnly_waitCapture timeout).bind fun r => (?_ : WritesOnly measuring _)).mono (by decide)
  cases r
  · exact writesOnly_measureFall timeout
  · exact (WritesOnly.pure _).mono (by decide)

/-! ## The display bus -/

theorem writesOnly_twStart : WritesOnly [.displayBus] twStart :=
  ((writesOnly_pinWrite .dio _).bind fun _ => (writesOnly_pinWrite .dclk _).bind fun _ =>
    (writesOnly_delay _).bind fun _ => (writesOnly_pinWrite .dio _).bind fun _ => writesOnly_delay _).mono (by decide)

theorem writesOnly_twBit (b : Bool) : WritesOnly [.displayBus] (twBit b) :=
  ((writesOnly_pinWrite .dclk _).bind fun _ => (writesOnly_pinWrite .dio _).bind fun _ =>
    (writesOnly_delay _).bind fun _ => (writesOnly_pinWrite .dclk _).bind fun _ => writesOnly_delay _).mono (by decide)

theorem writesOnly_sampleAck : WritesOnly [.ackv] sampleAck :=
  WritesOnly.act (fun _ => rfl) fun s r hr => by cases r <;> simp_all [Owned.Same]

theorem writesOnly_twAck : WritesOnly [.displayBus, .ackv] twAck :=
  ((writesOnly_pinWrite .dclk _).bind fun _ => (writesOnly_dirWrite _).bind fun _ =>
    (writesOnly_pinWrite .dclk _).bind fun _ => writesOnly_sampleAck.bind fun _ =>
    (writesOnly_pinWrite .dclk _).bind fun _ => (writesOnly_dirWrite _).bind fun _ => WritesOnly.query _).mono
    (by decide)

theorem writesOnly_twStop : WritesOnly [.displayBus] twStop :=
  ((writesOnly_pinWrite .dclk _).bind fun _ => (writesOnly_pinWrite .dio _).bind fun _ =>
    (writesOnly_delay _).bind fun _ => (writesOnly_pinWrite .dclk _).bind fun _ => (writesOnly_delay _).bind fun _ =>
    (writesOnly_pinWrite .dio _).bind fun _ => writesOnly_delay _).mono (by decide)

theorem writesOnly_twBits : ∀ left, WritesOnly [.displayBus, .shifter] (twBits left)
  | 0 => (WritesOnly.pure _).mono (by decide)
  | left + 1 =>
    ((writesOnly_workAct (l := [.shifter]) _).bind fun _ => (WritesOnly.query _).bind fun b =>
      (writesOnly_twBit b).bind fun _ => (writesOnly_workAct (l := [.shifter]) _).bind fun _ =>
      writesOnly_twBits left).mono (by decide)

/-- What sending bytes on the display bus writes. -/
def sendingBytes : List Owned := [.displayBus, .shifter, .ackv]

theorem writesOnly_twByte (v : Byte) : WritesOnly sendingBytes (twByte v) :=
  ((writesOnly_workAct (l := [.shifter]) _).bind fun _ => (writesOnly_twBits 8).bind fun _ => writesOnly_twAck).mono
    (by decide)

theorem writesOnly_twBytes : ∀ bytes, WritesOnly sendingBytes (twBytes bytes)
  | [] => (WritesOnly.pure _).mono (by decide)
  | v :: rest => ((writesOnly_twByte v).bind fun _ => writesOnly_twBytes rest).mono (by decide)

theorem writesOnly_twTransaction (bytes : List Byte) : WritesOnly sendingBytes (twTransaction bytes) :=
  (writesOnly_twStart.bind fun _ => (writesOnly_twBytes bytes).bind fun _ => writesOnly_twStop).mono (by decide)

theorem writesOnly_sendAutoinc : WritesOnly sendingBytes sendAutoinc :=
  (WritesOnly.query _).bind fun _ => writesOnly_twTransaction _

theorem writesOnly_sendDigits : WritesOnly sendingBytes sendDigits :=
  (WritesOnly.query _).bind fun _ => writesOnly_twTransaction _

theorem writesOnly_writeFrame : WritesOnly sendingBytes writeFrame :=
  (writesOnly_sendAutoinc.bind fun _ => writesOnly_sendDigits).mono (by decide)

theorem writesOnly_setBrightness (level : Byte) : WritesOnly sendingBytes (setBrightness level) :=
  (WritesOnly.query _).bind fun _ => writesOnly_twTransaction _

theorem writesOnly_putDigit (c : Byte) (store : Frame → Byte → Frame) : WritesOnly [.frame] (putDigit c store) :=
  writesOnly_workAct _

theorem writesOnly_textToFrame (text : Text) : WritesOnly [.frame] (textToFrame text) :=
  ((writesOnly_putDigit _ _).bind fun _ => (writesOnly_putDigit _ _).bind fun _ => (writesOnly_putDigit _ _).bind fun _ =>
    writesOnly_putDigit _ _).mono (by decide)

/-- What a refresh of the display with a text writes. -/
def writingText : List Owned := .frame :: sendingBytes

theorem writesOnly_writeDigits (text : Text) : WritesOnly writingText (writeDigits text) :=
  (writesOnly_textToFrame text).bind fun _ => writesOnly_writeFrame

/-! ## The shift bus -/

theorem writesOnly_srBit (b : Bool) : WritesOnly [.shiftBus] (srBit b) :=
  ((writesOnly_pinWrite .sdat _).bind fun _ => (writesOnly_pinWrite .sclk _).bind fun _ =>
    writesOnly_pinWrite .sclk _).mono (by decide)

theorem writesOnly_srLatch : WritesOnly [.shiftBus] srLatch :=
  ((writesOnly_pinWrite .slat _).bind fun _ => writesOnly_pinWrite .slat _).mono (by decide)

/-- What sending a pattern on the shift bus writes. -/
def sendingPattern : List Owned := [.shiftBus, .shifter]

theorem writesOnly_srBits : ∀ left, WritesOnly sendingPattern (srBits left)
  | 0 => (WritesOnly.pure _).mono (by decide)
  | left + 1 =>
    ((writesOnly_workAct (l := [.shifter]) _).bind fun _ => (WritesOnly.query _).bind fun b =>
      (writesOnly_srBit b).bind fun _ => (writesOnly_workAct (l := [.shifter]) _).bind fun _ =>
      writesOnly_srBits left).mono (by decide)

theorem writesOnly_sendPattern (p : Byte) : WritesOnly sendingPattern (sendPattern p) :=
  ((writesOnly_pinWrite .slat _).bind fun _ => (writesOnly_workAct (l := [.shifter]) _).bind fun _ =>
    (writesOnly_srBits 8).bind fun _ => writesOnly_srLatch).mono (by decide)

/-! ## The buttons -/

theorem writesOnly_readRaw : WritesOnly [] readRaw := writesOnly_adcSample.bind fun _ => WritesOnly.query _

theorem writesOnly_confirm : WritesOnly [.stable] confirm := by
  refine (writesOnly_delay _).bind fun _ => writesOnly_readRaw.bind fun c2 => (WritesOnly.query _).bind fun cand => ?_
  split
  · exact ((writesOnly_ctrlAct (l := [.stable]) _).bind fun _ => WritesOnly.query _).mono (by decide)
  · exact (WritesOnly.query _).mono (by decide)

theorem writesOnly_readDebounced : WritesOnly [.cand, .stable] readDebounced := by
  refine (writesOnly_readRaw.bind fun c => (writesOnly_workAct (l := [.cand]) _).bind fun _ =>
    (WritesOnly.query _).bind fun stable => (?_ : WritesOnly [.stable] _)).mono (by decide)
  split
  · exact (WritesOnly.pure _).mono (by decide)
  · exact writesOnly_confirm

/-! ## The state machine -/

theorem writesOnly_showError : WritesOnly (writingText ++ sendingPattern) showError :=
  (WritesOnly.query _).bind fun _ => (writesOnly_writeDigits _).bind fun _ => writesOnly_sendPattern 0

theorem writesOnly_showDistance (raw : Nat) :
    WritesOnly (.dist :: .thru :: writingText ++ sendingPattern) (showDistance raw) :=
  ((writesOnly_workAct (l := [.dist]) _).bind fun _ => (WritesOnly.query _).bind fun _ =>
    (writesOnly_writeDigits _).bind fun _ => (writesOnly_workAct (l := [.thru]) _).bind fun _ =>
    (WritesOnly.query _).bind fun _ => writesOnly_sendPattern _).mono (by decide)

theorem writesOnly_showThreshold : WritesOnly (.thru :: writingText) showThreshold :=
  (writesOnly_workAct (l := [.thru]) _).bind fun _ => (WritesOnly.query _).bind fun _ => writesOnly_writeDigits _

theorem writesOnly_thrAdjust (delta : Int) : WritesOnly [.threshold] (thrAdjust delta) := writesOnly_ctrlAct _

theorem writesOnly_putState (v : BitVec StateBits) : WritesOnly [.opState] (putState v) := writesOnly_ctrlAct _

/-- What a ranging cycle writes. -/
def ranging : List Owned := .raw :: .dist :: .thru :: measuring ++ writingText ++ sendingPattern

theorem writesOnly_rangingCycle : WritesOnly ranging rangingCycle := by
  refine ((WritesOnly.query _).bind fun timeout => (writesOnly_measureRaw timeout).bind fun echo =>
    (writesOnly_workAct (l := [.raw]) _).bind fun _ => (WritesOnly.query _).bind fun raw =>
    (?_ : WritesOnly ranging _)).mono (by decide)
  split
  · exact writesOnly_showError.mono (by decide)
  · exact (writesOnly_showDistance raw).mono (by decide)

theorem writesOnly_mNone : WritesOnly ranging mNone :=
  (writesOnly_rangingCycle.bind fun _ => writesOnly_delay _).mono (by decide)

theorem writesOnly_mMode : WritesOnly [.unit] mMode := writesOnly_ctrlAct _

theorem writesOnly_mUp : WritesOnly (.opState :: .thru :: writingText) mUp :=
  (writesOnly_putState _).bind fun _ => writesOnly_showThreshold

theorem writesOnly_mDown : WritesOnly (.opState :: .thru :: writingText) mDown :=
  (writesOnly_putState _).bind fun _ => writesOnly_showThreshold

theorem writesOnly_sNone : WritesOnly (.thru :: writingText) sNone :=
  writesOnly_showThreshold.bind fun _ => writesOnly_delay _

theorem writesOnly_sMode : WritesOnly [.opState] sMode := (writesOnly_putState _).bind fun _ => writesOnly_delay _

theorem writesOnly_sUp : WritesOnly (.threshold :: .thru :: writingText) sUp :=
  (writesOnly_thrAdjust _).bind fun _ => writesOnly_sNone

theorem writesOnly_sDown : WritesOnly (.threshold :: .thru :: writingText) sDown :=
  (writesOnly_thrAdjust _).bind fun _ => writesOnly_sNone

theorem writesOnly_fRecover : WritesOnly [.opState] fRecover := writesOnly_putState _

/-- What the arms of TICK write, together. -/
def dispatched : List Owned := .opState :: .unit :: .threshold :: ranging

theorem writesOnly_arm (dw : BitVec 4) : WritesOnly dispatched (arm dw) := by
  unfold arm
  split
  · exact writesOnly_mNone.mono (by decide)
  · exact writesOnly_mMode.mono (by decide)
  · exact writesOnly_mUp.mono (by decide)
  · exact writesOnly_mDown.mono (by decide)
  · exact writesOnly_sNone.mono (by decide)
  · exact writesOnly_sMode.mono (by decide)
  · exact writesOnly_sUp.mono (by decide)
  · exact writesOnly_sDown.mono (by decide)
  · exact writesOnly_fRecover.mono (by decide)

theorem writesOnly_tick : WritesOnly (.cand :: .stable :: .ev :: dispatched) tick :=
  writesOnly_readDebounced.bind fun _ => (writesOnly_workAct (l := [.ev]) _).bind fun _ =>
    (WritesOnly.query _).bind fun dw => writesOnly_arm dw

theorem writesOnly_boot : WritesOnly sendingBytes boot := by
  refine (WritesOnly.query _).bind fun level => ?_
  cases level
  · exact (WritesOnly.goto _).mono (by decide)
  · exact ((writesOnly_setBrightness _).bind fun _ => WritesOnly.goto _).mono (by decide)

/-! ## Every operation -/

/-- An operation leaves every part that it is not among the writers of. -/
def RespectsOwners (i : Instr) (s t : State) : Prop := ∀ r : Owned, r.writtenBy i = false → r.Same s t

/-- An operation respects the owners where its footprint lies within the parts it is a writer of. -/
theorem WritesOnly.respectsOwners {α : Type} {l : List Owned} {m : Op α} (h : WritesOnly l m) (v : α → Value)
    {i : Instr} (hl : (l.all fun r => r.writtenBy i) = true) {s : State} (hs : NoReset s) :
    RespectsOwners i s (Machine.run m v s) := by
  obtain ⟨a, t, ht, -, -, hsame⟩ := Runs.run h v hs
  intro r hr
  rw [ht, Owned.same_setResult]
  refine hsame r fun hm => ?_
  rw [List.all_eq_true.1 hl r hm] at hr
  cases hr

/-- A pure operation writes its return value only. -/
theorem respectsOwners_setResult (i : Instr) (s : State) (v : Value) : RespectsOwners i s (s.setResult v) :=
  fun r _ => (Owned.same_setResult v).2 (Owned.Same.refl r s)

/-- An event row launched alone: the other agents write the capture unit, and ECHO where the row is its edge. -/
theorem respectsOwners_event {i : Instr} {s t : State} (h : Undisturbed s t) (v : Value) (hcapu : writesCapu i = true)
    (hecho : Owned.writtenBy .echo i = false → t.env.echo = s.env.echo) : RespectsOwners i s (t.setResult v) := by
  intro r hr
  rw [Owned.same_setResult]
  cases r
  case capu => exact absurd hcapu (by simpa [Owned.writtenBy] using hr)
  case echo => exact fun _ => hecho hr
  all_goals exact Owned.same_of_undisturbed h (by decide) (by decide)

/-- RESET is a writer of every part but ECHO, which lies outside the CORE (R270). -/
theorem respectsOwners_reset (s : State) : RespectsOwners .reset s s.coreReset := by
  intro r hr
  cases r
  case echo => exact fun _ => rfl
  all_goals cases hr

/-- With no RESET to come every operation completes and leaves every part that it is not among the writers of. -/
theorem exec_respectsOwners (i : Instr) {s : State} (hs : NoReset s) :
    ∃ t, exec i s = .next t ∧ RespectsOwners i s t := by
  cases i with
  | cntTick => exact ⟨_, rfl, respectsOwners_event (undisturbed_cntTicks 1 s) _ rfl fun _ => rfl⟩
  | echoRise => exact ⟨_, rfl, respectsOwners_event (undisturbed_echoTo true s) _ rfl fun h => by cases h⟩
  | echoFall => exact ⟨_, rfl, respectsOwners_event (undisturbed_echoTo false s) _ rfl fun h => by cases h⟩
  | reset => exact ⟨_, rfl, respectsOwners_reset s⟩
  | ticksToCm | ticksToInch | numToText | ledPattern | classify | cmToInch | thrInUnit | logText | logNumber =>
    exact ⟨_, rfl, respectsOwners_setResult _ s _⟩
  | cfClear => exact ⟨_, rfl, writesOnly_cfClear.respectsOwners _ rfl hs⟩
  | setEdgeRising | setEdgeFalling => exact ⟨_, rfl, (writesOnly_setEdge _).respectsOwners _ rfl hs⟩
  | ccrRead | cfRead => exact ⟨_, rfl, (WritesOnly.look _).respectsOwners _ rfl hs⟩
  | trigPulse => exact ⟨_, rfl, writesOnly_trigPulse.respectsOwners _ rfl hs⟩
  | waitCapture => exact ⟨_, rfl, (writesOnly_waitCapture _).respectsOwners _ rfl hs⟩
  | measureRaw => exact ⟨_, rfl, (writesOnly_measureRaw _).respectsOwners _ rfl hs⟩
  | twStart => exact ⟨_, rfl, writesOnly_twStart.respectsOwners _ rfl hs⟩
  | twBit => exact ⟨_, rfl, (writesOnly_twBit _).respectsOwners _ rfl hs⟩
  | twAck => exact ⟨_, rfl, writesOnly_twAck.respectsOwners _ rfl hs⟩
  | twByte => exact ⟨_, rfl, (writesOnly_twByte _).respectsOwners _ rfl hs⟩
  | twStop => exact ⟨_, rfl, writesOnly_twStop.respectsOwners _ rfl hs⟩
  | twTransaction => exact ⟨_, rfl, (writesOnly_twTransaction _).respectsOwners _ rfl hs⟩
  | textToFrame => exact ⟨_, rfl, (writesOnly_textToFrame _).respectsOwners _ rfl hs⟩
  | writeFrame => exact ⟨_, rfl, writesOnly_writeFrame.respectsOwners _ rfl hs⟩
  | writeDigits => exact ⟨_, rfl, (writesOnly_writeDigits _).respectsOwners _ rfl hs⟩
  | setBrightness | cmdCtrl => exact ⟨_, rfl, (writesOnly_setBrightness _).respectsOwners _ rfl hs⟩
  | srBit => exact ⟨_, rfl, (writesOnly_srBit _).respectsOwners _ rfl hs⟩
  | srLatch => exact ⟨_, rfl, writesOnly_srLatch.respectsOwners _ rfl hs⟩
  | sendPattern => exact ⟨_, rfl, (writesOnly_sendPattern _).respectsOwners _ rfl hs⟩
  | adcSample => exact ⟨_, rfl, writesOnly_adcSample.respectsOwners _ rfl hs⟩
  | readRaw => exact ⟨_, rfl, writesOnly_readRaw.respectsOwners _ rfl hs⟩
  | readDebounced => exact ⟨_, rfl, writesOnly_readDebounced.respectsOwners _ rfl hs⟩
  | tick => exact ⟨_, rfl, writesOnly_tick.respectsOwners _ rfl hs⟩
  | rangingCycle => exact ⟨_, rfl, writesOnly_rangingCycle.respectsOwners _ rfl hs⟩
  | showError => exact ⟨_, rfl, writesOnly_showError.respectsOwners _ rfl hs⟩
  | showDistance => exact ⟨_, rfl, (writesOnly_showDistance _).respectsOwners _ rfl hs⟩
  | showThreshold => exact ⟨_, rfl, writesOnly_showThreshold.respectsOwners _ rfl hs⟩
  | thrAdjust => exact ⟨_, rfl, (writesOnly_thrAdjust _).respectsOwners _ rfl hs⟩
  | delayUs | delayMs => exact ⟨_, rfl, (writesOnly_delay _).respectsOwners _ rfl hs⟩
  | boot => exact ⟨_, rfl, writesOnly_boot.respectsOwners _ rfl hs⟩
  | mNone => exact ⟨_, rfl, writesOnly_mNone.respectsOwners _ rfl hs⟩
  | mMode => exact ⟨_, rfl, writesOnly_mMode.respectsOwners _ rfl hs⟩
  | mUp => exact ⟨_, rfl, writesOnly_mUp.respectsOwners _ rfl hs⟩
  | mDown => exact ⟨_, rfl, writesOnly_mDown.respectsOwners _ rfl hs⟩
  | sNone => exact ⟨_, rfl, writesOnly_sNone.respectsOwners _ rfl hs⟩
  | sMode => exact ⟨_, rfl, writesOnly_sMode.respectsOwners _ rfl hs⟩
  | sUp => exact ⟨_, rfl, writesOnly_sUp.respectsOwners _ rfl hs⟩
  | sDown => exact ⟨_, rfl, writesOnly_sDown.respectsOwners _ rfl hs⟩
  | fRecover => exact ⟨_, rfl, writesOnly_fRecover.respectsOwners _ rfl hs⟩
  | cmdAutoinc => exact ⟨_, rfl, writesOnly_sendAutoinc.respectsOwners _ rfl hs⟩
  | cmdAddr0 => exact ⟨_, rfl, writesOnly_sendDigits.respectsOwners _ rfl hs⟩

/-! ## The obligations about owners -/

/-- Settles O54: the parts `edge`, `capu` and `echo` of the table of owners. -/
theorem captureUnitOwnership : Obligations.CaptureUnitOwnership := by
  intro i s hs
  obtain ⟨t, ht, hown⟩ := exec_respectsOwners i hs
  exact ⟨t, ht, hown .edge, fun hq hw => hown .capu hw hq,
    fun hq hrise hfall => hown .echo (by simp [Owned.writtenBy, hrise, hfall]) hq⟩

/-- Settles O55: the parts `trig`, `displayBus` and `shiftBus` of the table of owners. -/
theorem pinOwnership : Obligations.PinOwnership := by
  intro i s hs
  obtain ⟨t, ht, hown⟩ := exec_respectsOwners i hs
  exact ⟨t, ht, fun hm hne => hown .trig (by simp [Owned.writtenBy, hm, hne]), hown .displayBus, hown .shiftBus⟩

/-- Settles O56: the working registers of the table of owners. -/
theorem workingRegisterOwnership : Obligations.WorkingRegisterOwnership := by
  intro i s hs
  obtain ⟨t, ht, hown⟩ := exec_respectsOwners i hs
  exact ⟨t, ht, hown .echoTimes, hown .polln, fun hb hp => hown .shifter (by simp [Owned.writtenBy, hb, hp]),
    fun hb hne => hown .ackv (by simp [Owned.writtenBy, hb, hne]), hown .frame, hown .cand, hown .raw, hown .dist,
    hown .thru, hown .ev⟩

end Sys2Proof.Machine
end

section
/-! PROOFS. The statements of 20_memory: in which order the bits of a byte (R54) and of a pattern (R55) go out, and
where a digit update puts its bytes in the display memory (R53). -/

namespace Sys2Proof.Machine

/-- After the digits of a text the display addresses 0 to 3 read as its four characters' segment bytes. -/
theorem read_writeDigits_frameOf (cfg : Config) (text : Text) {m : Mem} (h : m.wf = true) (k : Nat) :
    (Mem.writeDigits (frameOf cfg text).d0 (frameOf cfg text).d1 (frameOf cfg text).d2 (frameOf cfg text).d3 m).read k =
      if k < 4 then segment cfg (frameChar text k) else m.read k := by
  rw [Mem.read_writeDigits _ _ _ _ k h]
  match k with
  | 0 | 1 | 2 | 3 => rfl
  | k + 4 => simp

/-- Settles O22: `runs_twByte` at a launch. -/
theorem byteIsSentLowBitFirst : Obligations.ByteIsSentLowBitFirst := by
  intro s v hs
  obtain ⟨a, t, ht, -, hpart, hwork, -, ha, -⟩ := (runs_twByte v).run .bit hs
  exact ⟨t.setResult (.bit a), congrArg _ ht, hpart.trace, hpart.pins, hwork, congrArg _ ha⟩

/-- Settles O33: `runs_sendPattern` at a launch. -/
theorem patternIsSentHighBitFirst : Obligations.PatternIsSentHighBitFirst := by
  intro s p hs
  obtain ⟨_, t, ht, -, hpart, hwork, -⟩ := (runs_sendPattern p).run (fun _ => .unit) hs
  exact ⟨t.setResult .unit, congrArg _ ht, hpart.trace, hpart.pins, hwork⟩

/-- Settles O26: `runs_writeDigits` gives the whole panel, and the four writes are read back. -/
theorem writeDigitsReachesDisplayMemory : Obligations.WriteDigitsReachesDisplayMemory := by
  intro s text hs hidle hwf hack
  obtain ⟨_, t, ht, -, -, -, -, hpanel⟩ := (runs_writeDigits text).run (fun _ => .unit) hs
  refine ⟨t.setResult .unit, congrArg _ ht, ?_⟩
  rw [State.setResult_display, hpanel hidle hack]
  exact ⟨rfl, rfl, rfl, Mem.writeDigits_wf _ _ _ _ hwf, read_writeDigits_frameOf s.cfg text hwf⟩

end Sys2Proof.Machine
end

section
/-! PROOFS. The statements of 30_encoding about words: encoding and decoding (R92, R87, R83 to R85, log 11) and the
dispatch word (R87). -/

namespace Sys2Proof

/-! ## What a read can give -/

/-- Whatever the read gives has the property. -/
def Read.Gives {α : Type} (p : α → Prop) (r : Read α) : Prop := ∀ a rest, r = .ok (a, rest) → p a

section
variable {α β : Type} {p : β → Prop}

theorem Read.Gives.ok {b : β} {rest : List Byte} (h : p b) : Read.Gives p (.ok (b, rest)) := by
  rintro _ _ ⟨⟩
  exact h

theorem Read.Gives.error {e : DecodeError} : Read.Gives p (.error e) := nofun

theorem Read.Gives.map {f : α → β} : ∀ {r : Read α}, Read.Gives (fun a => p (f a)) r → Read.Gives p (r.map f)
  | .ok (a, rest), h => Read.Gives.ok (h a rest rfl)
  | .error _, _ => Read.Gives.error

/-- Every value of `f` has the property, whatever the read gives it. -/
theorem Read.Gives.map_of_forall {f : α → β} {r : Read α} (h : ∀ a, p (f a)) : Read.Gives p (r.map f) :=
  Read.Gives.map fun a _ _ => h a

end

/-- A list read by `readList1` has a first byte (R81, R146). -/
theorem readList1_gives_nonempty : ∀ bytes : List Byte, Read.Gives (fun l => (!l.isEmpty) = true) (readList1 bytes)
  | [] => Read.Gives.error
  | _ :: _ => Read.Gives.map_of_forall fun _ => rfl

/-! ## Decoded operations are well-formed -/

/-- Row 18, TW_TRANSACTION, is the one row whose operand decides; row 27 reads two operands; behind row 45 there is no
operation. -/
theorem decodeOpx_gives_wellFormed (byte : Byte) (rest : List Byte) :
    Read.Gives (fun i : Instr => i.wellFormed = true) (decodeOpx byte rest) := by
  unfold decodeOpx
  split
  case h_19 => exact Read.Gives.map (readList1_gives_nonempty rest)
  case h_28 =>
    split
    · exact Read.Gives.map_of_forall fun _ => rfl
    · exact Read.Gives.error
  case h_47 => split <;> exact Read.Gives.error
  any_goals exact Read.Gives.ok rfl
  all_goals exact Read.Gives.map_of_forall fun _ => rfl

theorem decodeDw_wellFormed (dw : BitVec 4) : (decodeDw dw).wellFormed = true := by
  unfold decodeDw
  split <;> rfl

theorem decodeCmd_wellFormed {byte : Byte} {i : Instr} (h : decodeCmd byte = .ok i) : i.wellFormed = true := by
  unfold decodeCmd at h
  split_ifs at h <;> cases h <;> rfl

/-- The three word spaces together: a row of the table, an arm, a display command. -/
theorem decode_gives_wellFormed (space : WordSpace) :
    ∀ bytes : List Byte, Read.Gives (fun i : Instr => i.wellFormed = true) (decode space bytes)
  | [] => Read.Gives.error
  | byte :: rest => by
    unfold decode
    cases space with
    | opx => exact decodeOpx_gives_wellFormed byte rest
    | dw =>
      dsimp only
      split
      · exact Read.Gives.ok (decodeDw_wellFormed _)
      · exact Read.Gives.error
    | cmd =>
      dsimp only
      split
      · next h => exact Read.Gives.ok (decodeCmd_wellFormed h)
      · exact Read.Gives.error

/-! ## Decoding the encoding -/

/-- An operand that is read goes to its operation. -/
theorem Read.map_of_ok {α β : Type} {r : Read α} {a : α} {rest : List Byte} (f : α → β) (h : r = .ok (a, rest)) :
    r.map f = .ok (f a, rest) := by
  rw [h]
  rfl

theorem decode_dw_of_lt {byte : Byte} (h : byte.toNat < 16) (rest : List Byte) :
    decode .dw (byte :: rest) = .ok (decodeDw (byte.setWidth 4), rest) := if_pos h

theorem decode_cmd_of_ok {byte : Byte} {i : Instr} (h : decodeCmd byte = .ok i) (rest : List Byte) :
    decode .cmd (byte :: rest) = .ok (i, rest) := by
  simp only [decode, h]

/-- The two operands of LED_PATTERN, one behind the other (R174). -/
theorem decodeOpx_ledPattern (d t : Dist) (rest : List Byte) :
    decodeOpx 27 (halfBytes d ++ halfBytes t ++ rest) = .ok (.ledPattern d t, rest) := by
  have hd := readNarrow_halfBytes (by decide) d (halfBytes t ++ rest)
  have ht := readNarrow_halfBytes (by decide) t rest
  rw [List.append_assoc]
  simp [decodeOpx, hd, ht, Read.map]

/-- The word selects the operation's row, and the row's reader takes back what the encoder wrote behind it. -/
theorem decode_encode (i : Instr) (rest : List Byte) (h : i.wellFormed = true) :
    decode (encode i).space ((encode i).bytes ++ rest) = .ok (i, rest) := by
  cases i with
  | cntTick | echoRise | echoFall | cfClear | setEdgeRising | setEdgeFalling | ccrRead | cfRead | trigPulse
  | twStart | twAck | twStop | writeFrame | srLatch | adcSample | readRaw | readDebounced | tick | rangingCycle
  | showError | showThreshold | thrInUnit | reset | boot
  | mNone | mMode | mUp | mDown | sNone | sMode | sUp | sDown | cmdAutoinc | cmdAddr0
  | twByte | setBrightness | sendPattern => rfl
  | twBit bit | srBit bit => exact Read.map_of_ok _ (readBit_bitBytes bit rest)
  | waitCapture n | measureRaw n | ticksToCm n | ticksToInch n | numToText n | classify n | showDistance n
  | delayUs n | delayMs n => exact Read.map_of_ok _ (readNat_natBytes n rest)
  | thrAdjust z => exact Read.map_of_ok _ (readInt_intBytes z rest)
  | textToFrame l | writeDigits l | logText l => exact Read.map_of_ok _ (readList_listBytes l rest)
  | twTransaction l =>
    cases l with
    | nil => cases h
    | cons b l => exact Read.map_of_ok _ (readList1_list1Bytes b l rest)
  | cmToInch v => exact Read.map_of_ok _ (readNarrow_halfBytes (by decide) v rest)
  | logNumber v => exact Read.map_of_ok _ (readWord_wordBytes v rest)
  | ledPattern d t => exact decodeOpx_ledPattern d t rest
  | fRecover ignored =>
    obtain ⟨hbits, hword⟩ := decodeDw_recover ignored
    exact (decode_dw_of_lt hbits rest).trans (by rw [hword])
  | cmdCtrl level => exact decode_cmd_of_ok (decodeCmd_ctrl level) rest

/-! ## The dispatch word -/

theorem dispatchWord_toNat (st : BitVec 2) (ev : Button) :
    (Machine.dispatchWord st ev).toNat = 4 * st.toNat + (Machine.buttonCode ev).toNat := by
  rw [Machine.dispatchWord, BitVec.toNat_append, ← Nat.shiftLeft_add_eq_or_of_lt (Machine.buttonCode ev).isLt,
    Nat.shiftLeft_eq]
  omega

/-- From 8 on every dispatch word selects the recovery arm. -/
theorem decodeDw_of_le {dw : BitVec 4} (h : 8 ≤ dw.toNat) : decodeDw dw = .fRecover (dw.setWidth 3) := by
  unfold decodeDw
  split
  case h_9 => rfl
  all_goals omega

/-! ## The obligations about words -/

/-- Settles O1: `decode_encode`, one operand reader for each row. -/
theorem encodeDecodeRoundTrip : Obligations.EncodeDecodeRoundTrip := decode_encode

/-- Settles O2: an empty transaction is the one ill-formed operation, and `readList1` gives no empty list. -/
theorem decodedOperationsAreWellFormed : Obligations.DecodedOperationsAreWellFormed := decode_gives_wellFormed

/-- Settles O3, by evaluation of the decoder at the thirteen words. -/
theorem tableWordsDecode : Obligations.TableWordsDecode := by
  unfold Obligations.TableWordsDecode
  decide

/-- Settles O4: the word as a number, and the arm of each number. -/
theorem dispatchWordMap : Obligations.DispatchWordMap := by
  refine ⟨fun st ev => ?_, fun ev => ?_, fun ev => ?_, fun st ev h => ⟨_, decodeDw_of_le ?_⟩⟩
  · rw [dispatchWord_toNat]
    cases ev <;> rfl
  · cases ev <;> rfl
  · cases ev <;> rfl
  · rw [dispatchWord_toNat]
    omega

end Sys2Proof
end

section
/-! PROOFS. The statements of 30_encoding about the display: the transactions of its commands (R83 to R85), the
brightness they reach (R151, R153), and the decimal text of a number (R91, R148). -/

namespace Sys2Proof.Machine

/-! ## The display commands -/

/-- The events of an operation launched by `exec`. -/
theorem Runs.emits {m : Op Unit} {R : State → Unit → State → Prop} (h : Runs m R) {s : State} (hs : NoReset s)
    {events : List TraceEvent} (htrace : ∀ t, R s () t → Emitted s t events) :
    ∃ t, (.next (Machine.run m (fun _ => .unit) s) : Answer) = .next t ∧ Emitted s t events := by
  obtain ⟨_, t, ht, -, hr⟩ := h.run (fun _ => .unit) hs
  exact ⟨t.setResult .unit, congrArg _ ht, htrace t hr⟩

/-- The clamp of R151, as a number. -/
theorem brightCommand_eq (cfg : Config) (level : Byte) :
    brightCommand cfg level = cfg.cmdCtrlBase ||| BitVec.ofNat 8 (min level.toNat 7) := by
  unfold brightCommand brightMax
  split_ifs with h
  · rw [Nat.min_eq_left h, BitVec.ofNat_toNat, BitVec.setWidth_eq]
  · rw [Nat.min_eq_right (by omega)]

/-- Three bits hold no level above 7: nothing to clamp. -/
theorem brightCommand_setWidth (cfg : Config) (l : BitVec 3) :
    brightCommand cfg (l.setWidth 8) = cfg.cmdCtrlBase ||| l.setWidth 8 := by
  have hl : (l.setWidth 8).toNat ≤ brightMax := by
    revert l
    decide
  exact congrArg _ (if_pos hl)

/-- The default command byte of a level is no auto-increment and keeps the level in its low bits (R85). -/
theorem ctrlByte_spec : ∀ n, n < 8 →
    (0x88 ||| BitVec.ofNat 8 n : Byte) ≠ 0x40 ∧
    (0x88 ||| BitVec.ofNat 8 n : Byte) = 0x88 ||| ((0x88 ||| BitVec.ofNat 8 n) &&& 7) ∧
    (0x88 ||| BitVec.ofNat 8 n : Byte).setWidth 3 = BitVec.ofNat 3 n := by decide

/-- The receiver takes the brightness command with the default command bytes (R153). -/
theorem panelEffect_brightCommand {cfg : Config} (hctrl : cfg.cmdCtrlBase = 0x88) (hauto : cfg.cmdAutoinc = 0x40)
    (level : Byte) (p : Panel) :
    panelEffect cfg [brightCommand cfg level] p =
      some { p with bright := BitVec.ofNat 3 (min level.toNat 7), isOn := true } := by
  obtain ⟨hne, hbase, hlow⟩ := ctrlByte_spec (min level.toNat 7) (by omega)
  rw [brightCommand_eq, hctrl, panelEffect, hauto, hctrl, if_neg hne, if_pos hbase, hlow]

/-- Settles O25: the laws of the three senders at a launch, with the clamp written out. -/
theorem commandTransactions : Obligations.CommandTransactions := by
  intro s level l hs
  refine ⟨runs_sendAutoinc.emits hs fun t h => h.1.trace, runs_sendDigits.emits hs fun t h => h.1.trace, ?_, ?_⟩
  · rw [← brightCommand_eq]
    exact (runs_setBrightness level).emits hs fun t h => h.1.trace
  · rw [← brightCommand_setWidth]
    exact (runs_setBrightness (l.setWidth 8)).emits hs fun t h => h.1.trace

/-- Settles O27: `runs_setBrightness`, and what the receiver makes of the command byte. -/
theorem brightnessReachesDisplay : Obligations.BrightnessReachesDisplay := by
  intro s level hs hidle hack hctrl hauto
  obtain ⟨_, t, ht, -, -, -, -, hpanel⟩ := (runs_setBrightness level).run (fun _ => .unit) hs
  exact ⟨t.setResult .unit, congrArg _ ht, hpanel _ hidle hack (panelEffect_brightCommand hctrl hauto level _)⟩

/-! ## The decimal text -/

/-- The digit of 10^i stands i places from the right of the decimal text (R91). -/
theorem numToText_reverse_getElem? (v i : Nat) :
    (numToText v).reverse[i]? = if i = 0 ∨ 10 ^ i ≤ v then some (digitChar (v / 10 ^ i % 10)) else none := by
  have h := decimalAux_digit (v + 1) v [] (Nat.lt_succ_self v) i
  rwa [List.length_nil, Nat.zero_add] at h

/-- The four characters shown are the text's from the right, with spaces where it has none (R89). -/
theorem frameChar_from_right (text : Text) {i : Nat} (hi : i < 4) :
    frameChar text (3 - i) = (text.reverse[i]?).getD space := by
  unfold frameChar nDigits
  by_cases hlen : i < text.length
  · rw [List.getElem?_reverse hlen, ← List.getD_eq_getElem?_getD]
    split_ifs
    · congr 1
      omega
    · omega
    · congr 1
      omega
  · rw [List.getElem?_eq_none (by simpa using hlen), if_neg (by omega), if_pos (by omega)]
    rfl

/-- Settles O29, by `decimalAux_spec` with nothing behind the digits. -/
theorem numToTextIsDecimal : Obligations.NumToTextIsDecimal := by
  intro s v
  obtain ⟨l, hl, hne, hdigits, hvalue, hhead, hzero⟩ := decimalAux_spec (v + 1) v [] (Nat.lt_succ_self v)
  rw [List.append_nil] at hl
  have hexec : exec (.numToText v) s = .next (s.setResult (.text l)) := hl ▸ rfl
  exact ⟨l, hexec, hdigits, hvalue, hzero, fun hv => ⟨hhead hv, hne⟩⟩

/-- Settles O30: the four places from the right hold the digits that the text has there. -/
theorem fourDigitsShowNumber : Obligations.FourDigitsShowNumber := by
  intro v i hi
  rw [frameChar_from_right _ hi, numToText_reverse_getElem?]
  split_ifs <;> rfl

end Sys2Proof.Machine
end

section
/-! PROOFS. The statements of 40_capture_unit: the counter's step (R101), what a change of ECHO does to the capture unit
(R102 to R105), and SEQ's five primitives on it (R106 to R111). -/

namespace Sys2Proof.Machine

/-! ## A configured edge reaches the capture unit -/

/-- With CF = 0 CCR and CF are written together, and ENV draws nothing (R103, R104). -/
theorem capture_of_clear {s : State} (h : s.capu.cf = false) :
    s.capture = s.setCapu { s.capu with ccr := s.capu.cnt, cf := true } := by
  unfold State.capture Capu.capture
  rw [h]
  rfl

/-- With CF = 1 only CCR can change (R105). -/
theorem Capu.capture_of_set (overwrite : Bool) {c : Capu} (h : c.cf = true) :
    c.capture overwrite = { c with ccr := if overwrite then c.cnt else c.ccr } := by
  unfold Capu.capture
  rw [h]
  cases overwrite <;> rfl

/-- Whether CCR is overwritten is as OVERCAPTURE and ENV's draw say (R105). -/
theorem capture_of_set {s : State} (h : s.capu.cf = true) :
    s.capture =
      (s.setCapu { s.capu with ccr := if s.env.nextOver s.cfg.overcapture then s.capu.cnt else s.capu.ccr }).setEnv
        (s.env.dropOver s.cfg.overcapture) := by
  rw [State.capture, Capu.capture_of_set _ h, if_pos h]

theorem dropOver_echo (mode : Overcapture) (e : Env) : (e.dropOver mode).echo = e.echo := by
  cases mode <;> rfl

/-! ## ENV puts ECHO at a level -/

section
variable {s : State} {v : Bool}

theorem echoTo_of_same (h : s.env.echo = v) : s.echoTo v = s := if_pos h

/-- An edge that EDGE does not select (R102). -/
theorem echoTo_of_unselected (hecho : s.env.echo = !v) (hedge : s.capu.edge ≠ edgeTo v) :
    s.echoTo v = s.setEnv { s.env with echo := v } :=
  (if_neg (Bool.eq_not.1 hecho)).trans (if_neg hedge)

theorem echoTo_of_selected (hecho : s.env.echo = !v) (hedge : s.capu.edge = edgeTo v) :
    s.echoTo v = (s.setEnv { s.env with echo := v }).capture :=
  (if_neg (Bool.eq_not.1 hecho)).trans (if_pos hedge)

/-- A configured edge with CF = 0 (R103, R104). -/
theorem echoTo_of_clear (hecho : s.env.echo = !v) (hedge : s.capu.edge = edgeTo v) (hcf : s.capu.cf = false) :
    s.echoTo v =
      (s.setCapu { s.capu with ccr := s.capu.cnt, cf := true }).setEnv { s.env with echo := v } :=
  (echoTo_of_selected hecho hedge).trans (capture_of_clear hcf)

/-- An overcapture: the draw does not depend on ECHO's level (R105). -/
theorem echoTo_of_set (hecho : s.env.echo = !v) (hedge : s.capu.edge = edgeTo v) (hcf : s.capu.cf = true) :
    s.echoTo v =
      (s.setCapu { s.capu with ccr := if s.env.nextOver s.cfg.overcapture then s.capu.cnt else s.capu.ccr }).setEnv
        (Env.dropOver s.cfg.overcapture { s.env with echo := v }) :=
  (echoTo_of_selected hecho hedge).trans (capture_of_set hcf)

end

/-- ECHO_RISE and ECHO_FALL as one event: ECHO is put at a level. -/
theorem exec_echoEvent (s : State) (rise : Bool) :
    exec (if rise then .echoRise else .echoFall) s = .next ((s.echoTo rise).setResult .unit) := by
  cases rise <;> rfl

/-! ## The obligations of 40_capture_unit -/

/-- Settles O8: the three cases of an ECHO event with CF = 0 or no capture, for each of the two levels. -/
theorem configuredEdgeCaptures : Obligations.ConfiguredEdgeCaptures := by
  intro s
  have rise {t : State} (h : s.echoTo true = t) : exec .echoRise s = .next (t.setResult .unit) :=
    h ▸ exec_echoEvent s true
  have fall {t : State} (h : s.echoTo false = t) : exec .echoFall s = .next (t.setResult .unit) :=
    h ▸ exec_echoEvent s false
  refine ⟨fun hecho hedge hcf => rise (echoTo_of_clear hecho hedge hcf),
    fun hecho hedge => rise (echoTo_of_unselected hecho ?_), fun hecho => rise (echoTo_of_same hecho),
    fun hecho hedge hcf => fall (echoTo_of_clear hecho hedge hcf),
    fun hecho hedge => fall (echoTo_of_unselected hecho ?_), fun hecho => fall (echoTo_of_same hecho)⟩
  · rw [hedge]
    exact nofun
  · rw [hedge]
    exact nofun

/-- Settles O9: `echoTo_of_set` gives the whole next state, and OVERCAPTURE decides `nextOver`. -/
theorem overcaptureKeepsFlag : Obligations.OvercaptureKeepsFlag := by
  intro s rise hecho hedge hcf
  have hsel : s.capu.edge = edgeTo rise := by
    rw [hedge]
    cases rise <;> rfl
  refine ⟨if s.env.nextOver s.cfg.overcapture then s.capu.cnt else s.capu.ccr, _,
    (exec_echoEvent s rise).trans (by rw [echoTo_of_set hecho hsel hcf]), dropOver_echo _ _, ite_eq_or_eq _ _ _, ?_⟩
  refine ⟨fun hover => ?_, fun hhold => ?_, fun v more heither hdraw => ?_⟩
  · rw [hover]
    rfl
  · rw [hhold]
    rfl
  · rw [heither, Env.nextOver, hdraw]

/-- Settles O7: one count modulo 2^W, and 2^W - 1 + 1 is 2^W. -/
theorem counterTickWraps : Obligations.CounterTickWraps := by
  intro s
  refine ⟨s.cfg.ticks (s.capu.cnt + 1), rfl, fun hlast => ?_, rfl⟩
  rw [hlast, Nat.sub_add_cancel Nat.one_le_two_pow]
  exact Nat.mod_self _

/-- Settles O10: each primitive is one micro-step, in the state its window leaves. -/
theorem capturePrimitives : Obligations.CapturePrimitives := fun _ _ hwindow =>
  ⟨congrArg _ (run_ok (act_ok hwindow)), congrArg _ (run_ok (act_ok hwindow)), congrArg _ (run_ok (act_ok hwindow)),
    congrArg _ (run_ok (look_ok hwindow)), congrArg _ (run_ok (look_ok hwindow))⟩

end Sys2Proof.Machine
end

section
/-! PROOFS. The statements of 41_range_sensor: the converter (R126, R127), the trigger pulse (R120), and the capture wait
without an event and with an edge in its midst (R121, R246). -/

namespace Sys2Proof.Machine

/-- Settles O19: the two quotients as numbers; the clamps are reached at 58 * 400 and 148 * 157. -/
theorem converterSaturates : Obligations.ConverterSaturates := by
  intro s ticks
  refine ⟨ticksToCm (s.cfg.ticks ticks), ticksToInch (s.cfg.ticks ticks), rfl, rfl, ticksToCm_toNat _,
    ticksToInch_toNat _, ?_, ?_⟩
  · rw [ticksToCm_toNat, Config.ticks]
    omega
  · rw [ticksToInch_toNat, Config.ticks]
    omega

/-- Settles O12: `runs_trigPulse` at a launch. -/
theorem triggerPulse : Obligations.TriggerPulse := by
  intro s hs
  obtain ⟨_, t, ht, -, -, -, hpins, -, -, htrace⟩ := runs_trigPulse.run (fun _ => .unit) hs
  exact ⟨t.setResult .unit, congrArg _ ht, htrace, hpins, rfl⟩

/-! ## The capture wait from its first line (R121) -/

/-- WAIT_CAPTURE is the write of POLLN and the polls from there. -/
theorem waitCapture_apply (timeout : Nat) {s t : State} (h : s.window = .ok t) :
    waitCapture timeout s =
      pollLoop (t.cfg.polls timeout) (t.cfg.polls timeout) (t.setWork { t.work with polln := 0 }) :=
  bind_ok (act_ok h)

theorem exec_waitCapture_ok {timeout : Nat} {s t : State} {r : WaitResult} (h : waitCapture timeout s = .ok (r, t)) :
    exec (.waitCapture timeout) s = .next (t.setResult (.wait r)) :=
  congrArg Host.Outcome.next (run_ok h)

/-- A flag that is set, and no event to come: the first poll sees it. -/
theorem pollLoop_set {s : State} (hc : s.capu.cf = true) (timeout fuel p m : Nat) :
    pollLoop timeout fuel (s.waiting [] p m) = .ok (.captured, s.waiting [] p (m + 2)) := by
  rw [pollLoop_eq, pollOnce_hit _ _ (waiting_quiet s p m) hc (waiting_quiet s p (m + 1))]

section
variable {s : State} (hs : Quiet s) (timeout : Nat)
include hs

/-- WAIT_CAPTURE with no event to come. -/
theorem waitCapture_quiet :
    waitCapture timeout s =
      pollLoop (s.cfg.polls timeout) (s.cfg.polls timeout) (s.waiting [] 0 (s.micro + 1)) := by
  rw [waitCapture_apply timeout (window_quiet hs), State.waiting, ← show s.env.schedule = [] from hs]
  rfl

theorem waitCapture_quiet_set (hc : s.capu.cf = true) :
    waitCapture timeout s = .ok (.captured, s.waiting [] 0 (s.micro + 3)) :=
  (waitCapture_quiet hs timeout).trans (pollLoop_set hc _ _ _ _)

theorem waitCapture_quiet_clear (hc : s.capu.cf = false) :
    waitCapture timeout s = .ok (.timedOut, s.waiting [] (s.cfg.polls (max (s.cfg.polls timeout) 1))
      (s.micro + 5 * max (s.cfg.polls timeout) 1)) := by
  have hmicro : s.micro + 1 + (5 * (max (s.cfg.polls timeout) 1 - 0) - 1) =
      s.micro + 5 * max (s.cfg.polls timeout) 1 := by omega
  rw [waitCapture_quiet hs, pollLoop_quiet (Config.polls_lt _ _) hc _ _ _ (by omega) (by omega), hmicro]

end

/-- Settles O13: the two quiet waits, at a launch. -/
theorem quietCaptureWait : Obligations.QuietCaptureWait := by
  intro s timeout hs
  cases hcf : s.capu.cf with
  | true =>
    exact ⟨_, exec_waitCapture_ok (waitCapture_quiet_set hs timeout hcf), rfl, fun _ => ⟨rfl, rfl, rfl⟩, nofun⟩
  | false =>
    exact ⟨_, exec_waitCapture_ok (waitCapture_quiet_clear hs timeout hcf), rfl, nofun, fun _ => ⟨rfl, rfl, rfl⟩⟩

/-! ## A configured edge in the midst of a wait (R121, R246) -/

/-- `pollLoop_misses` for a budget of max(timeout, 1) polls. -/
theorem pollLoop_misses_of_lt_max {s : State} {timeout : Nat} (hT : timeout < 2 ^ s.cfg.pollBits)
    (hc : s.capu.cf = false) (k : Nat) (e : EnvEvent) (rest : List (Nat × EnvEvent)) {j : Nat}
    (hj : j < max timeout 1) (m : Nat) :
    pollLoop timeout timeout (s.waiting ((5 * j + k, e) :: rest) 0 m) =
      pollLoop timeout (timeout - j) (s.waiting ((k, e) :: rest) j (m + 5 * j)) := by
  cases j with
  | zero => simp
  | succ j => rw [pollLoop_misses hT hc k e rest (j + 1) timeout 0 m (by omega) (by omega), Nat.zero_add]

section
variable {s : State} {v : Bool} (he : s.env.echo = !v) (hedge : s.capu.edge = edgeTo v) (hc : s.capu.cf = false)
include he hedge hc

/-- An edge due in one of the windows from behind the read of poll n up to the read of poll n + 1. -/
theorem pollLoop_edge_seen {timeout n k : Nat} (hT : timeout < 2 ^ s.cfg.pollBits) (hn : n < max timeout 1)
    (hfirst : 5 * n ≤ k + 4) (hlast : k ≤ 5 * n) (m : Nat) :
    pollLoop timeout timeout (s.waiting [(k, .echo v)] 0 m) =
      .ok (.captured, (s.captured v).waiting [] n (m + 5 * n + 2)) := by
  by_cases hk : k = 5 * n
  · subst hk
    refine pollLoop_hit (t := (s.captured v).waiting [] n (m + 5 * n + 1)) hT hc (by omega) (by omega) ?_ rfl
      (waiting_quiet _ _ _)
    rw [Nat.zero_add]
    exact waiting_edge he hedge hc n (m + 5 * n)
  · obtain ⟨j, rfl⟩ : ∃ j, n = j + 1 := ⟨n - 1, by omega⟩
    obtain ⟨d, rfl⟩ : ∃ d, k = 5 * j + (d + 1) := ⟨k - 5 * j - 1, by omega⟩
    obtain ⟨fuel, hfuel⟩ : ∃ fuel, timeout - j = fuel + 1 := ⟨timeout - j - 1, by omega⟩
    rw [pollLoop_misses_of_lt_max hT hc (d + 1) _ _ (by omega), hfuel, pollLoop_eq,
      waiting_miss_edge _ _ he hedge hc d _ _ (by omega), Config.polls_of_lt (by omega), if_neg (by omega)]
    exact pollLoop_set rfl timeout fuel (j + 1) (m + 5 * j + 5)

/-- An edge due behind the last poll's read of CF, up to the comparison that returns: the wait times out with CF set. -/
theorem pollLoop_edge_lost {timeout k : Nat} (hT : timeout < 2 ^ s.cfg.pollBits) (hfirst : 5 * max timeout 1 ≤ k + 4)
    (hlast : k + 2 ≤ 5 * max timeout 1) (m : Nat) :
    pollLoop timeout timeout (s.waiting [(k, .echo v)] 0 m) =
      .ok (.timedOut, (s.captured v).waiting [] (s.cfg.polls (max timeout 1)) (m + 5 * max timeout 1 - 1)) := by
  obtain ⟨j, hj⟩ : ∃ j, max timeout 1 = j + 1 := ⟨max timeout 1 - 1, by omega⟩
  obtain ⟨d, rfl⟩ : ∃ d, k = 5 * j + (d + 1) := ⟨k - 5 * j - 1, by omega⟩
  obtain ⟨hpolls, hbudget, -⟩ := polls_last (p := j) hT (by omega) (by omega)
  rw [pollLoop_misses_of_lt_max hT hc (d + 1) _ _ (by omega), pollLoop_eq,
    waiting_miss_edge _ _ he hedge hc d _ _ (by omega), if_pos hbudget, if_neg (by omega), hpolls, hj]
  rfl

end

/-- WAIT_CAPTURE with an event behind its first line. -/
theorem waitCapture_later {s : State} {k : Nat} {e : EnvEvent} {rest : List (Nat × EnvEvent)}
    (hs : s.env.schedule = (k + 1, e) :: rest) (timeout : Nat) :
    waitCapture timeout s =
      pollLoop (s.cfg.polls timeout) (s.cfg.polls timeout) (s.waiting ((k, e) :: rest) 0 (s.micro + 1)) :=
  waitCapture_apply timeout (window_later hs)

/-- WAIT_CAPTURE with an edge due before its first line: the first poll sees the flag. -/
theorem waitCapture_edge_first {s : State} {v : Bool} (he : s.env.echo = !v) (hedge : s.capu.edge = edgeTo v)
    (hc : s.capu.cf = false) (hs : s.env.schedule = [(0, .echo v)]) (timeout : Nat) :
    waitCapture timeout s = .ok (.captured, (s.captured v).waiting [] 0 (s.micro + 3)) := by
  have hwindow : s.window = .ok ((s.captured v).waiting [] s.work.polln (s.micro + 1)) := by
    have h := waiting_edge he hedge hc s.work.polln s.micro
    rwa [← hs, waiting_self] at h
  rw [waitCapture_apply timeout hwindow]
  exact pollLoop_set rfl _ _ 0 (s.micro + 1)

theorem captured_capu {s : State} {v : Bool} (hedge : s.capu.edge = edgeTo v) :
    (s.captured v).capu = { s.capu with ccr := s.capu.cnt, cf := true } := by
  rw [State.captured, ← hedge]

/-- Settles O14: the window before the write of POLLN by itself; behind it `pollLoop_edge_seen` and
`pollLoop_edge_lost`. -/
theorem captureIsSeenByNextPoll : Obligations.CaptureIsSeenByNextPoll := by
  intro s timeout n k hc hedge he hs
  have hcapu := captured_capu (v := true) hedge
  refine ⟨run (waitCapture timeout) .wait s, rfl, fun hn hfirst hlast => ?_, fun hfirst hlast => ?_⟩
  · cases k with
    | zero =>
      obtain rfl : n = 0 := by omega
      rw [run_ok (waitCapture_edge_first he hedge hc hs timeout)]
      exact ⟨rfl, rfl, hcapu⟩
    | succ k =>
      have hwait := waitCapture_later hs timeout
      rw [pollLoop_edge_seen he hedge hc (Config.polls_lt _ _) hn (by omega) (by omega)] at hwait
      rw [run_ok hwait]
      exact ⟨rfl, rfl, hcapu⟩
  · obtain ⟨k, rfl⟩ : ∃ j, k = j + 1 := ⟨k - 1, by omega⟩
    have hwait := waitCapture_later hs timeout
    rw [pollLoop_edge_lost he hedge hc (Config.polls_lt _ _) (by omega) (by omega)] at hwait
    rw [run_ok hwait]
    exact ⟨rfl, rfl, hcapu⟩

end Sys2Proof.Machine
end

section
/-! PROOFS. The statements of 41_range_sensor about MEASURE_RAW under a known schedule: its two timeouts (R247) and its
result (R122, R123). -/

namespace Sys2Proof.Machine

theorem exec_measureRaw_ok {timeout n : Nat} {s t : State} (h : measureRaw timeout s = .ok (n, t)) :
    exec (.measureRaw timeout) s = .next (t.setResult (.ticks n)) :=
  congrArg Host.Outcome.next (run_ok h)

/-! ## Timeouts with no event to come (R247) -/

/-- After M1 to M3 of MEASURE_RAW (R122). -/
def State.pulsed (s : State) : State :=
  { s with
    capu := { s.capu with edge := .rising, cf := false }
    pins := { s.pins with trig := false }
    trace := [.write .trig false, .delay (.param .trig), .write .trig true] ++ s.trace }

/-- After M5 to M7 of MEASURE_RAW (R122). -/
def State.latched (s : State) : State :=
  { s with capu := { s.capu with edge := .falling, cf := false }, work := { s.work with rise := s.capu.ccr } }

section
variable (s : State) (p m : Nat)

theorem cfClear_quiet : cfClear (s.waiting [] p m) = .ok ((), (s.setCapu s.capu.clearFlag).waiting [] p (m + 1)) := rfl

theorem setEdge_quiet (e : Edge) :
    setEdge e (s.waiting [] p m) = .ok ((), (s.setCapu { s.capu with edge := e }).waiting [] p (m + 1)) := rfl

theorem latchRise_quiet : (act fun s => s.setWork { s.work with rise := s.capu.ccr }) (s.waiting [] p m) =
    .ok ((), (s.setWork { s.work with rise := s.capu.ccr }).waiting [] p (m + 1)) := rfl

theorem delay_quiet (k : DelayKind) :
    delay k (s.waiting [] p m) = .ok ((), (s.addTrace (.delay k)).waiting [] p (m + 1)) := rfl

theorem pinWrite_trig_quiet (v : Bool) : pinWrite .trig v (s.waiting [] p m) =
    .ok ((), ((s.setPins { s.pins with trig := v }).addTrace (.write .trig v)).waiting [] p (m + 1)) := by
  rw [pinWrite, act_ok (waiting_quiet s p m), writePin_trig]
  rfl

theorem trigPulse_quiet : trigPulse (s.waiting [] p m) =
    .ok ((), State.waiting { s with
      pins := { s.pins with trig := false }
      trace := [.write .trig false, .delay (.param .trig), .write .trig true] ++ s.trace } [] p (m + 3)) := by
  unfold trigPulse
  rw [bind_ok (pinWrite_trig_quiet s p m true), bind_ok (delay_quiet _ p (m + 1) _), pinWrite_trig_quiet]
  rfl

/-- The second wait, with the whole budget or with what the first one left (R122). -/
theorem secondWait_quiet_clear {s : State} {p : Nat} (timeout : Nat) (hc : s.capu.cf = false)
    (hp : p < max (s.cfg.polls timeout) 1) :
    secondWait timeout (s.waiting [] p m) =
      .ok (.timedOut, s.waiting [] (s.cfg.polls (max (s.cfg.polls timeout) 1))
        (m + if s.cfg.timeoutRestart then 5 * max (s.cfg.polls timeout) 1
          else 5 * (max (s.cfg.polls timeout) 1 - p) - 1)) := by
  unfold secondWait
  rw [bind_ok (query_apply _ _)]
  show (if s.cfg.timeoutRestart then waitCapture timeout else continueWait timeout) (s.waiting [] p m) = _
  cases s.cfg.timeoutRestart with
  | true => exact waitCapture_quiet_clear (s := s.waiting [] p m) rfl timeout hc
  | false => exact pollLoop_quiet (Config.polls_lt _ _) hc _ _ _ hp (Nat.le_succ_of_le (Nat.sub_le _ _))

/-- The second timeout: with no event to come behind the capture, what is left of the budget reads 0. -/
theorem measureFall_quiet {p : Nat} (timeout : Nat) (hp : p < max (s.cfg.polls timeout) 1) :
    measureFall timeout (s.waiting [] p m) =
      .ok (0, State.waiting { s with
          capu := { s.capu with edge := .rising, cf := false }
          work := { s.work with rise := s.capu.ccr } } []
        (s.cfg.polls (max (s.cfg.polls timeout) 1))
        (m + 4 + if s.cfg.timeoutRestart then 5 * max (s.cfg.polls timeout) 1
          else 5 * (max (s.cfg.polls timeout) 1 - p) - 1)) := by
  unfold measureFall
  rw [bind_ok (latchRise_quiet s p m), bind_ok (cfClear_quiet _ p (m + 1)), bind_ok (setEdge_quiet _ p (m + 2) .falling)]
  refine (bind_ok (secondWait_quiet_clear (s := s.latched) (m + 3) timeout rfl hp)).trans ?_
  refine (bind_ok (setEdge_quiet _ _ _ .rising)).trans ?_
  rw [pure_apply, Nat.add_right_comm _ _ 1]
  rfl

/-- The first timeout: with no event to come the whole budget reads 0. -/
theorem measureRaw_quiet (timeout : Nat) :
    measureRaw timeout (s.waiting [] p m) =
      .ok (0, s.pulsed.waiting [] (s.cfg.polls (max (s.cfg.polls timeout) 1))
        (m + 5 + 5 * max (s.cfg.polls timeout) 1)) := by
  unfold measureRaw
  rw [bind_ok (cfClear_quiet s p m), bind_ok (setEdge_quiet _ p (m + 1) .rising), bind_ok (trigPulse_quiet _ p (m + 2))]
  exact bind_ok (waitCapture_quiet_clear (s := s.pulsed.waiting [] p (m + 5)) rfl timeout rfl)

end

/-! ## An echo that rises within the budget -/

/-- A state is its own point of a wait. -/
theorem waiting_eq {s : State} {l : List (Nat × EnvEvent)} {p : Nat} (hl : s.env.schedule = l) (hp : s.work.polln = p) :
    s.waiting l p s.micro = s := by
  rw [← hl, ← hp, waiting_self]

/-- Settles O16: `measureRaw_quiet`; and `measureFall_quiet` behind the poll that sees the echo. -/
theorem measureRawTimesOut : Obligations.MeasureRawTimesOut := by
  refine fun s timeout => ⟨fun hs => ?_, fun r he hr hs => ?_⟩
  · have hrun := measureRaw_quiet s s.work.polln s.micro timeout
    rw [waiting_eq hs rfl] at hrun
    exact ⟨_, exec_measureRaw_ok hrun, rfl, rfl, rfl, rfl⟩
  · rw [Nat.add_comm] at hs
    obtain ⟨t, hcapu, henv, hwork, -, -, hcfg, hmicro, -, hrun⟩ := measureRaw_wait timeout hs
    have hwait : pollLoop (s.cfg.polls timeout) (s.cfg.polls timeout) t =
        .ok (.captured, (t.captured true).waiting [] r (t.micro + 5 * r + 2)) := by
      have h := pollLoop_edge_seen (s := t) (v := true) (k := 5 * r) (timeout := s.cfg.polls timeout)
        (by rw [henv]; exact he) (by rw [hcapu]; rfl) (by rw [hcapu]) (by rw [hcfg]; exact Config.polls_lt _ _) hr
        (Nat.le_add_right _ _) le_rfl t.micro
      rwa [waiting_eq (by rw [henv]) (by rw [hwork])] at h
    have hfall := measureFall_quiet (t.captured true) (t.micro + 5 * r + 2) (p := r) timeout
      (by show r < max (t.cfg.polls timeout) 1; rwa [hcfg])
    refine ⟨_, exec_measureRaw_ok (hrun.trans ((bind_ok hwait).trans hfall)), rfl, ?_, ?_, ?_⟩
    · show { t.work with rise := t.capu.cnt, polln := t.cfg.polls (max (t.cfg.polls timeout) 1) } = _
      rw [hwork, hcapu, hcfg]
    · show (⟨t.capu.cnt, t.capu.cnt, .rising, false⟩ : Capu) = _
      rw [hcapu]
    · show t.micro + 5 * r + 2 + 4 + (if t.cfg.timeoutRestart then 5 * max (t.cfg.polls timeout) 1
        else 5 * (max (t.cfg.polls timeout) 1 - r) - 1) = _
      rw [hmicro, hcfg]
      omega

/-! ## A whole measurement (R122, R123) -/

/-- Ticks of the counter and then a configured edge in one window. -/
theorem waiting_tick_edge {s : State} {v : Bool} (he : s.env.echo = !v) (hedge : s.capu.edge = edgeTo v)
    (hc : s.capu.cf = false) (n : Nat) (rest : List (Nat × EnvEvent)) (p m : Nat) :
    (s.waiting ((0, .cnt n) :: (0, .echo v) :: rest) p m).window =
      (((s.cntTicks n).captured v).waiting rest p m).window :=
  (waiting_cnt s n _ p m).trans (waiting_capture (s.cntTicks n) v rest p m he hedge hc)

/-- MEASURE_RAW up to M4, where the echo rises a ticks after the start and before poll r + 1. -/
theorem measureRaw_rise (timeout : Nat) {s : State} {a r k : Nat} {e : EnvEvent} {rest : List (Nat × EnvEvent)}
    (he : s.env.echo = false) (hr : r < max (s.cfg.polls timeout) 1)
    (hs : s.env.schedule = (6 + 5 * r, .cnt a) :: (0, .echo true) :: (k + 2, e) :: rest) :
    ∃ t, measureRaw timeout s = measureFall timeout t ∧
      t.capu = ⟨s.cfg.ticks (s.capu.cnt + a), s.cfg.ticks (s.capu.cnt + a), .rising, true⟩ ∧
      t.env = { s.env with echo := true, schedule := (k, e) :: rest } ∧ t.work = { s.work with polln := r } ∧
      t.pins = { s.pins with trig := false } ∧ t.ctrl = s.ctrl ∧ t.cfg = s.cfg ∧
      t.trace = [.write .trig false, .delay (.param .trig), .write .trig true] ++ s.trace := by
  rw [Nat.add_comm 6] at hs
  obtain ⟨t, hcapu, henv, hwork, hpins, hctrl, hcfg, -, htrace, hrun⟩ := measureRaw_wait timeout hs
  have hwindow := waiting_tick_edge (s := t) (v := true) (by rw [henv]; exact he) (by rw [hcapu]; rfl) (by rw [hcapu]) a
    ((k + 2, e) :: rest) r (t.micro + 5 * r)
  have hwait := pollLoop_hit (s := t) (p := 0) (m := t.micro) (j := r) (fuel := s.cfg.polls timeout)
    (timeout := s.cfg.polls timeout) (by rw [hcfg]; exact Config.polls_lt _ _) (by rw [hcapu])
    (by rwa [Nat.zero_add]) (Nat.le_succ_of_le (Nat.sub_le _ _))
    (by rw [Nat.zero_add]; exact hwindow.trans (waiting_later _ _ _ _ _ _)) rfl (waiting_later _ _ _ _ _ _)
  rw [waiting_eq (by rw [henv]) (by rw [hwork])] at hwait
  refine ⟨_, hrun.trans (bind_ok hwait), ?_, ?_, ?_, hpins, hctrl, hcfg, htrace⟩
  · show (⟨t.cfg.ticks (t.capu.cnt + a), t.cfg.ticks (t.capu.cnt + a), .rising, true⟩ : Capu) = _
    rw [hcfg, hcapu]
  · show { t.env with echo := true, schedule := (k, e) :: rest } = _
    rw [henv]
  · show { t.work with polln := r } = _
    rw [hwork]

/-- M5 to M11, where the echo falls b ticks later and before poll f + 1 of the second wait. -/
theorem measureFall_fall (timeout : Nat) {s : State} {b f p : Nat} (he : s.env.echo = true)
    (hp : p = if s.cfg.timeoutRestart then 0 else s.work.polln) (hf : p + f < max (s.cfg.polls timeout) 1)
    (hs : s.env.schedule = [(5 * f + (if s.cfg.timeoutRestart then 4 else 3), .cnt b), (0, .echo false)]) :
    ∃ t, measureFall timeout s = .ok (pulseTicks s.cfg s.capu.ccr (s.cfg.ticks (s.capu.cnt + b)), t) ∧
      t.capu = ⟨s.cfg.ticks (s.capu.cnt + b), s.cfg.ticks (s.capu.cnt + b), .rising, true⟩ ∧
      t.work = { s.work with rise := s.capu.ccr, fall := s.cfg.ticks (s.capu.cnt + b), polln := p + f } ∧
      t.env.schedule = [] ∧ t.pins = s.pins ∧ t.ctrl = s.ctrl ∧ t.trace = s.trace := by
  obtain ⟨t, hcapu, henv, hwork, hpins, hctrl, hcfg, -, htrace, hrun⟩ := measureFall_wait timeout hs
  rw [← hp] at hwork
  have hwindow := waiting_tick_edge (s := t) (v := false) (by rw [henv]; exact he) (by rw [hcapu]; rfl) (by rw [hcapu]) b
    [] (p + f) (t.micro + 5 * f)
  have hwait := pollLoop_hit (s := t) (p := p) (m := t.micro) (j := f) (fuel := s.cfg.polls timeout)
    (timeout := s.cfg.polls timeout) (by rw [hcfg]; exact Config.polls_lt _ _) (by rw [hcapu]) hf
    (Nat.le_succ_of_le (Nat.sub_le _ _)) (hwindow.trans (waiting_quiet _ _ _)) rfl (waiting_quiet _ _ _)
  rw [waiting_eq (by rw [henv]) (by rw [hwork])] at hwait
  have hend : measureFall timeout s =
      .ok (pulseTicks t.cfg t.work.rise (t.cfg.ticks (t.capu.cnt + b)), State.waiting { t with
        capu := ⟨t.cfg.ticks (t.capu.cnt + b), t.cfg.ticks (t.capu.cnt + b), .rising, true⟩
        work := { t.work with fall := t.cfg.ticks (t.capu.cnt + b) }
        env := { t.env with echo := false } } [] (p + f) (t.micro + 5 * f + 5)) := hrun.trans (bind_ok hwait)
  rw [hcfg, hcapu, hwork] at hend
  exact ⟨_, hend, rfl, rfl, rfl, hpins, hctrl, htrace⟩

/-- Settles O15: `measureRaw_rise`, then `measureFall_fall`; the difference of the two counts is b modulo 2^W. -/
theorem measureRawReturnsPulseWidth : Obligations.MeasureRawReturnsPulseWidth := by
  intro s timeout r f a b he hr hf hs
  have hdue : (if s.cfg.timeoutRestart then 6 else 5) + 5 * f =
      5 * f + (if s.cfg.timeoutRestart then 4 else 3) + 2 := by
    split <;> omega
  rw [hdue] at hs
  obtain ⟨t, hrise, hcapu, henv, hwork, hpins, hctrl, hcfg, htrace⟩ := measureRaw_rise timeout he hr hs
  have hpolln : (if s.cfg.timeoutRestart then f else r + f) = (if s.cfg.timeoutRestart then 0 else r) + f := by
    split <;> omega
  rw [hpolln] at hf ⊢
  obtain ⟨u, hfall, hcapu', hwork', hsched, hpins', hctrl', htrace'⟩ := measureFall_fall timeout (s := t)
    (p := if s.cfg.timeoutRestart then 0 else r) (by rw [henv]) (by rw [hcfg, hwork]) (by rwa [hcfg]) (by rw [henv, hcfg])
  have hcount : s.cfg.ticks (t.capu.cnt + b) = s.cfg.ticks (s.capu.cnt + a + b) := by
    rw [hcapu, Config.ticks_add_left]
  rw [hcfg, hcount, hcapu, pulseTicks_between] at hfall
  rw [hcfg, hcount] at hcapu'
  rw [hcfg, hcount, hcapu, hwork] at hwork'
  have hend := exec_measureRaw_ok (hrise.trans hfall)
  refine ⟨_, hend, rfl, congrArg Work.rise hwork', congrArg Work.fall hwork', congrArg Work.polln hwork', ?_, hsched,
    hpins'.trans hpins, hctrl'.trans hctrl, htrace'.trans htrace⟩
  exact hcapu'.trans (by rw [State.setResult_work, hwork'])

end Sys2Proof.Machine
end

section
/-! PROOFS. R124, R125: whatever ENV does, a RESET included, MEASURE_RAW ends within a bound on its micro-steps, with
EDGE = RISING. -/

namespace Sys2Proof.Machine

/-! ## What a part of a measurement has spent -/

theorem Holds.of_exists {α ι : Type} {P : ι → State → Prop} {m : Op α} {Q : α → State → Prop} {E : State → Prop}
    (h : ∀ i, Holds (P i) m Q E) : Holds (fun s => ∃ i, P i s) m Q E := fun s ⟨i, hs⟩ => h i s hs

theorem Holds.of_and {α : Type} {p : Prop} {P : State → Prop} {m : Op α} {Q : α → State → Prop} {E : State → Prop}
    (h : p → Holds P m Q E) : Holds (fun s => p ∧ P s) m Q E := fun s ⟨hp, hs⟩ => h hp s hs

/-- POLLN is p, and at most n micro-steps have been counted. -/
structure Spent (c : Config) (p n : Nat) (s : State) : Prop where
  cfg : s.cfg = c
  polln : s.work.polln = p
  micro : s.micro ≤ n

/-- What a wait with budget T has spent: at most n micro-steps where it sees the flag, with POLLN within the budget; two
more where it times out, since the last poll then goes on to the count and the comparison. -/
def WaitSpent (cfg : Config) (T n : Nat) : WaitResult → State → Prop
  | .captured, t => ∃ p, p < max T 1 ∧ Spent cfg p n t
  | .timedOut, t => ∃ p, Spent cfg p (n + 2) t

/-- The count of micro-steps does not exceed the bound, wherever a RESET abandons the operation. -/
def MicroLe (bound : Nat) (s : State) : Prop := s.micro ≤ bound

section
variable {cfg : Config} {p n bound T : Nat}

theorem holds_act_spent {f : State → State} {q : Nat} (hn : n ≤ bound) (hcfg : ∀ t, (f t).cfg = t.cfg)
    (hmicro : ∀ t, (f t).micro = t.micro) (hpolln : ∀ t, Spent cfg p (n + 1) t → (f t).work.polln = q) :
    Holds (Spent cfg p n) (act f) (fun _ => Spent cfg q (n + 1)) (MicroLe bound) := by
  refine Holds.act (fun s t ⟨hc, hp, hs⟩ hu hm => ?_) fun s t ⟨_, _, hs⟩ hr => hr.micro.trans_le (hs.trans hn)
  have ht : Spent cfg p (n + 1) t := ⟨hu.cfg.trans hc, (congrArg _ hu.work).trans hp, by omega⟩
  exact ⟨(hcfg t).trans ht.cfg, hpolln t ht, (hmicro t).trans_le ht.micro⟩

theorem holds_look_spent {α : Type} {g : State → α} (hn : n ≤ bound) :
    Holds (Spent cfg p n) (look g) (fun a s => a = g s ∧ Spent cfg p (n + 1) s) (MicroLe bound) :=
  Holds.look (fun s t ⟨hc, hp, hs⟩ hu hm => ⟨rfl, hu.cfg.trans hc, (congrArg _ hu.work).trans hp, by omega⟩)
    fun s t ⟨_, _, hs⟩ hr => hr.micro.trans_le (hs.trans hn)

theorem holds_control_spent (hn : n ≤ bound) :
    Holds (Spent cfg p n) control (fun _ => Spent cfg p (n + 1)) (MicroLe bound) :=
  holds_act_spent hn (fun _ => rfl) (fun _ => rfl) fun _ h => h.polln

theorem holds_cfClear_spent (hn : n ≤ bound) :
    Holds (Spent cfg p n) cfClear (fun _ => Spent cfg p (n + 1)) (MicroLe bound) :=
  holds_act_spent hn (fun _ => rfl) (fun _ => rfl) fun _ h => h.polln

theorem holds_setEdge_spent (e : Edge) (hn : n ≤ bound) :
    Holds (Spent cfg p n) (setEdge e) (fun _ => Spent cfg p (n + 1)) (MicroLe bound) :=
  holds_act_spent hn (fun _ => rfl) (fun _ => rfl) fun _ h => h.polln

theorem holds_delay_spent (k : DelayKind) (hn : n ≤ bound) :
    Holds (Spent cfg p n) (delay k) (fun _ => Spent cfg p (n + 1)) (MicroLe bound) :=
  holds_act_spent hn (fun _ => rfl) (fun _ => rfl) fun _ h => h.polln

/-- A write of RISE or FALL. -/
theorem holds_latch_spent {f : State → Work} (hf : ∀ s, (f s).polln = s.work.polln) (hn : n ≤ bound) :
    Holds (Spent cfg p n) (act fun s => s.setWork (f s)) (fun _ => Spent cfg p (n + 1)) (MicroLe bound) :=
  holds_act_spent hn (fun _ => rfl) (fun _ => rfl) fun t h => (hf t).trans h.polln

theorem holds_pinWrite_spent (pin : Pin) (v : Bool) (hn : n ≤ bound) :
    Holds (Spent cfg p n) (pinWrite pin v) (fun _ => Spent cfg p (n + 1)) (MicroLe bound) :=
  holds_act_spent hn (fun t => State.drive_cfg _ _ t) (fun t => State.drive_micro _ _ t) fun t h =>
    (congrArg Work.polln (State.drive_work _ _ t)).trans h.polln

theorem holds_trigPulse_spent (hn : n + 2 ≤ bound) :
    Holds (Spent cfg p n) trigPulse (fun _ => Spent cfg p (n + 3)) (MicroLe bound) :=
  Holds.bind (holds_pinWrite_spent _ _ (by omega)) fun _ => Holds.bind (holds_delay_spent _ (by omega)) fun _ =>
    holds_pinWrite_spent _ _ hn

theorem holds_countPoll_spent (hn : n ≤ bound) :
    Holds (Spent cfg p n) countPoll (fun _ => Spent cfg (cfg.polls (p + 1)) (n + 1)) (MicroLe bound) :=
  holds_act_spent hn (fun _ => rfl) (fun _ => rfl) fun t ⟨hc, hp, _⟩ => by
    show t.cfg.polls (t.work.polln + 1) = _
    rw [hc, hp]

/-! ## The waits: each poll five micro-steps -/

/-- One poll: two micro-steps where it sees the flag, four where it ends the budget, five before the next. -/
theorem holds_pollOnce_spent {again : Op WaitResult} {l : Nat} (hp : p < max T 1) (hl : n + 2 ≤ l)
    (hbound : l + 2 ≤ bound) (hagain : ¬ T ≤ cfg.polls (p + 1) →
      Holds (Spent cfg (cfg.polls (p + 1)) (n + 5)) again (WaitSpent cfg T l) (MicroLe bound)) :
    Holds (Spent cfg p n) (pollOnce T again) (WaitSpent cfg T l) (MicroLe bound) := by
  refine Holds.bind (holds_look_spent (by omega)) fun seen => ?_
  refine Holds.bind (Holds.mono (holds_control_spent (by omega)) (fun _ => And.right) (fun _ _ => id) fun _ => id)
    fun _ => ?_
  cases seen with
  | true => exact Holds.pure fun s ⟨hc, hs, hm⟩ => ⟨p, hp, hc, hs, hm.trans hl⟩
  | false =>
    refine Holds.bind (holds_countPoll_spent (by omega)) fun _ => ?_
    refine Holds.bind (holds_look_spent (by omega)) fun count => ?_
    split
    · exact Holds.pure fun s ⟨_, hc, hs, hm⟩ => ⟨_, hc, hs, by omega⟩
    · next hcount =>
      rintro s ⟨rfl, hs⟩
      exact (Holds.bind (holds_control_spent (by omega)) fun _ => hagain (hs.polln ▸ hcount)) s hs

/-- A poll that does not end the budget leaves another one. -/
theorem succ_lt_of_not_le_polls (hT : T < 2 ^ cfg.pollBits) (hp : p < max T 1) (hmore : ¬ T ≤ cfg.polls (p + 1)) :
    p + 1 < T := by
  by_contra hlast
  obtain ⟨-, hused, -⟩ := polls_last hT hp (by omega)
  exact hmore hused

/-- The polls from POLLN = p: at most max(T, 1) - p of them. -/
theorem holds_pollLoop_spent (hT : T < 2 ^ cfg.pollBits) {l : Nat} (hbound : l + 2 ≤ bound) :
    ∀ {fuel p n : Nat}, p < max T 1 → T - p ≤ fuel + 1 → n + 5 * (max T 1 - p) ≤ l + 3 →
      Holds (Spent cfg p n) (pollLoop T fuel) (WaitSpent cfg T l) (MicroLe bound) := by
  intro fuel
  induction fuel with
  | zero =>
    intro p n hp hfuel hn
    refine holds_pollOnce_spent hp (by omega) hbound fun hmore => ?_
    have hnext := succ_lt_of_not_le_polls hT hp hmore
    omega
  | succ fuel ih =>
    intro p n hp hfuel hn
    refine holds_pollOnce_spent hp (by omega) hbound fun hmore => ?_
    have hnext := succ_lt_of_not_le_polls hT hp hmore
    rw [Config.polls_of_lt (by omega)]
    exact ih (by omega) (by omega) (by omega)

variable {timeout : Nat}

/-- The polls from POLLN = p, with the operand cut to POLL_BITS bits. -/
theorem holds_continueWait_spent {l : Nat} (hbound : l + 2 ≤ bound) (hp : p < max (cfg.polls timeout) 1)
    (hn : n + 5 * (max (cfg.polls timeout) 1 - p) ≤ l + 3) :
    Holds (Spent cfg p n) (continueWait timeout) (WaitSpent cfg (cfg.polls timeout) l) (MicroLe bound) := fun s hs => by
  rw [continueWait_apply, hs.cfg]
  exact holds_pollLoop_spent (Config.polls_lt _ _) hbound hp (Nat.le_succ_of_le (Nat.sub_le _ _)) hn s hs

theorem holds_waitCapture_spent {l : Nat} (hbound : l + 2 ≤ bound) (hn : n + 5 * max (cfg.polls timeout) 1 ≤ l + 2) :
    Holds (Spent cfg p n) (waitCapture timeout) (WaitSpent cfg (cfg.polls timeout) l) (MicroLe bound) :=
  Holds.bind (holds_act_spent (q := 0) (by omega) (fun _ => rfl) (fun _ => rfl) fun _ _ => rfl) fun _ =>
    holds_continueWait_spent hbound (by omega) (by omega)

theorem holds_secondWait_spent {l : Nat} (hbound : l + 2 ≤ bound) (hp : p < max (cfg.polls timeout) 1)
    (hn : n + 5 * max (cfg.polls timeout) 1 ≤ l + 2) :
    Holds (Spent cfg p n) (secondWait timeout) (WaitSpent cfg (cfg.polls timeout) l) (MicroLe bound) := by
  refine Holds.bind (Holds.query (Q := fun _ => Spent cfg p n) fun _ => id) fun restart => ?_
  split
  · exact holds_waitCapture_spent hbound hn
  · exact holds_continueWait_spent hbound hp (by omega)

/-! ## The measurement: two waits and seven other micro-steps -/

theorem holds_measureFall_micro (hp : p < max (cfg.polls timeout) 1)
    (hn : n + 4 + 5 * max (cfg.polls timeout) 1 ≤ bound) :
    Holds (Spent cfg p n) (measureFall timeout) (fun _ => MicroLe bound) (MicroLe bound) := by
  refine Holds.bind (holds_latch_spent (fun _ => rfl) (by omega)) fun _ =>
    Holds.bind (holds_cfClear_spent (by omega)) fun _ => Holds.bind (holds_setEdge_spent _ (by omega)) fun _ =>
    Holds.bind (holds_secondWait_spent (l := n + 1 + 5 * max (cfg.polls timeout) 1) (by omega) hp (by omega)) fun r => ?_
  cases r with
  | captured =>
    refine Holds.of_exists fun q => Holds.of_and fun _ => ?_
    exact Holds.bind (holds_latch_spent (fun _ => rfl) (by omega)) fun _ =>
      Holds.bind (holds_setEdge_spent _ (by omega)) fun _ => Holds.mono (holds_look_spent (by omega)) (fun _ => id)
        (fun _ t h => h.2.micro.trans (by omega)) fun _ => id
  | timedOut =>
    exact Holds.of_exists fun q => Holds.bind (holds_setEdge_spent _ (by omega)) fun _ =>
      Holds.pure fun t h => h.micro.trans (by omega)

theorem holds_measureRaw_micro (hn : n + 7 + 10 * max (cfg.polls timeout) 1 ≤ bound) :
    Holds (Spent cfg p n) (measureRaw timeout) (fun _ => MicroLe bound) (MicroLe bound) := by
  refine Holds.bind (holds_cfClear_spent (by omega)) fun _ => Holds.bind (holds_setEdge_spent _ (by omega)) fun _ =>
    Holds.bind (holds_trigPulse_spent (by omega)) fun _ =>
    Holds.bind (holds_waitCapture_spent (l := n + 3 + 5 * max (cfg.polls timeout) 1) (by omega) (by omega)) fun r => ?_
  cases r with
  | captured =>
    exact Holds.of_exists fun q => Holds.of_and fun hq => holds_measureFall_micro hq (by omega)
  | timedOut => exact Holds.pure fun s ⟨q, hs⟩ => hs.micro.trans (by omega)

end

/-- EDGE is RISING where MEASURE_RAW ends, and where a RESET abandons it. -/
theorem run_measureRaw_edge (timeout : Nat) (s : State) : (run (measureRaw timeout) .ticks s).capu.edge = .rising := by
  rcases (runs_measureRaw timeout).run_cases .ticks s with ⟨a, t, ht, -, hedge, -⟩ | haborted
  · rw [ht]
    exact hedge
  · exact haborted.edge

/-- Settles O18: `run_measureRaw_edge`, and the micro-steps of the two waits added up. -/
theorem measureRawEndsWithRisingEdge : Obligations.MeasureRawEndsWithRisingEdge := fun s _ =>
  ⟨_, rfl, run_measureRaw_edge _ s,
    (holds_measureRaw_micro le_rfl).run (R := MicroLe _) .ticks (fun _ _ => id) (fun _ => id) ⟨rfl, rfl, le_rfl⟩⟩

end Sys2Proof.Machine
end

section
/-! PROOFS. The statements of 42_twowire_display about the bus: the conditions and a data bit (R141, R142, R145), the ACK
cycle (R143), a transaction (R146), a digit update (R149, R150). -/

namespace Sys2Proof.Machine

/-- What the law of an operation says of its launch, where no RESET is to come. -/
theorem Runs.launch {α : Type} {m : Op α} {R : State → α → State → Prop} (h : Runs m R) (v : α → Value) {s : State}
    (hs : NoReset s) {Q : State → Prop} (hQ : ∀ a t, R s a t → Q (t.setResult (v a))) :
    ∃ t, (.next (Machine.run m v s) : Answer) = .next t ∧ Q t := by
  obtain ⟨a, t, ht, -, hr⟩ := h.run v hs
  exact ⟨t.setResult (v a), congrArg _ ht, hQ a t hr⟩

/-- Settles O20: the laws of the three parts, each at a launch. -/
theorem busConditions : Obligations.BusConditions := fun _ hs =>
  ⟨runs_twStart.launch _ hs fun _ _ ⟨hpart, _⟩ => ⟨hpart.trace, hpart.pins⟩,
    fun b => (runs_twBit b).launch _ hs fun _ _ ⟨hpart, _⟩ => ⟨hpart.trace, hpart.pins⟩,
    runs_twStop.launch _ hs fun _ _ ⟨hpart, _⟩ => ⟨hpart.trace, hpart.pins⟩⟩

/-- Settles O21: `runs_twAck` at a launch. -/
theorem ackCycle : Obligations.AckCycle := fun _ hs =>
  runs_twAck.launch .bit hs fun _ _ ⟨hpart, hwork, _, hlevel, _⟩ =>
    ⟨hpart.trace, hpart.pins, hwork, congrArg Value.bit hlevel⟩

/-- Settles O23: `runs_twTransaction` at a launch. -/
theorem transactionTrace : Obligations.TransactionTrace := fun _ bytes hs hne =>
  (runs_twTransaction bytes hne).launch _ hs fun _ _ ⟨hpart, hwork, _⟩ => ⟨hpart.trace, hpart.pins, hwork⟩

/-- Settles O24: `runs_writeFrame` and `runs_writeDigits` at a launch. -/
theorem digitUpdateTrace : Obligations.DigitUpdateTrace := fun _ text hs =>
  ⟨runs_writeFrame.launch _ hs fun _ t ⟨hpart, hwork, _⟩ =>
      ⟨(congrArg Work.frame hwork : t.work.frame = _), hpart.trace⟩,
    (runs_writeDigits text).launch _ hs fun _ t ⟨hpart, hwork, _⟩ =>
      ⟨(congrArg Work.frame hwork : t.work.frame = _), hpart.trace⟩⟩

end Sys2Proof.Machine
end

section
/-! PROOFS. The statement of 42_twowire_display about the text in FRAME (R147): which characters it shows (R89), what
SEGMAP reads for them (R51, R77, R80), and the cells that hold a byte memory (log 23). -/

namespace Sys2Proof.Machine

/-- A text of four or more characters shows its last four (R89). -/
theorem frameChar_append (front : Text) {t4 : Text} (h4 : t4.length = 4) {i : Nat} (hi : i < 4) :
    t4[i]? = some (frameChar (front ++ t4) i) := by
  have hlast : (front ++ t4).length - nDigits + i = front.length + i := by
    rw [List.length_append, h4, nDigits]
    omega
  unfold frameChar
  rw [if_pos (by simp [h4, nDigits]), hlast, List.getD_eq_getElem?_getD, List.getElem?_append_right (by omega),
    Nat.add_sub_cancel_left, List.getElem?_eq_getElem (h4 ▸ hi), Option.getD_some]

/-- A shorter text stands behind spaces (R89, R147). -/
theorem frameChar_short {text : Text} (h : text.length < 4) {i : Nat} (hi : i < 4) :
    (List.replicate (4 - text.length) space ++ text)[i]? = some (frameChar text i) := by
  unfold frameChar nDigits
  rw [if_neg (by omega), List.getElem?_append, List.length_replicate]
  split_ifs with hspace
  · rw [List.getElem?_replicate, if_pos hspace]
  · rw [List.getD_eq_getElem?_getD, List.getElem?_eq_getElem (by omega), Option.getD_some]

/-- A memory reads the blank or the byte of a cell. -/
theorem Mem.read_blank_or_mem (m : Mem) (addr : Nat) : m.read addr = Mem.blank ∨ (addr, m.read addr) ∈ m := by
  induction m with
  | nil => exact .inl rfl
  | cons c rest ih =>
    unfold Mem.read
    split_ifs with haddr
    · exact .inr (haddr ▸ List.mem_cons_self)
    · exact ih.imp_right (List.mem_cons_of_mem _)

/-- In an allowed SEGMAP the space is blank and no segment byte lights bit 7 (R80). -/
theorem segment_of_segmapOk {cfg : Config} (h : segmapOk cfg = true) (c : Byte) :
    segment cfg space = 0 ∧ (segment cfg c).getLsbD 7 = false := by
  rw [segmapOk, Bool.and_eq_true, Bool.and_eq_true, decide_eq_true_eq, List.all_eq_true] at h
  obtain ⟨⟨-, hspace⟩, hbit7⟩ := h
  refine ⟨hspace, ?_⟩
  rcases Mem.read_blank_or_mem cfg.segmap c.toNat with hblank | hmem
  · rw [segment, hblank]
    rfl
  · exact Bool.not_eq_eq_eq_not.mp (hbit7 _ hmem)

/-- Settles O28: `runs_textToFrame` at a launch; the four characters of a long and of a short text; what the canonical
cells of SEGMAP read; `Mem.read_write`. -/
theorem textToFrameJustifiesRight : Obligations.TextToFrameJustifiesRight := by
  refine ⟨fun s text hs => ?_, fun text i hi => ⟨?_, fun h => frameChar_short h hi⟩, fun cfg c hwf => ?_,
    fun m a b v hwf => Mem.read_write a b v hwf⟩
  · exact (runs_textToFrame text).launch _ hs fun _ _ ⟨hpart, _, hwork, hdisplay⟩ =>
      ⟨hwork, hpart.pins, hpart.trace, hdisplay⟩
  · rintro front t4 rfl h4
    exact frameChar_append front h4 hi
  · exact ⟨fun b => Mem.read_of_mem hwf, Mem.read_of_not_mem, fun h => segment_of_segmapOk h c⟩

end Sys2Proof.Machine
end

section
/-! PROOFS. The statement of 42_twowire_display that what the display controller answers is not acted upon (R152): a
state with everything forgotten that an ACK level reaches, and that no operation tells apart two states which differ in
nothing else. -/

namespace Sys2Proof.Machine

/-! ## What an ACK level reaches -/

/-- ACKV forgotten. -/
def Work.forgetAck (w : Work) : Work := { w with ackv := false }

/-- The DIO line forgotten, with its queue, its count, and the count of free panels (log 8). -/
def Env.forgetAck (e : Env) : Env :=
  { e with dioExt := false, ack := [], count := { e.count with ack := 0, panel := 0 } }

/-- The content that stands for every content of the display receiver. -/
def Display.forgotten : Display := ⟨false, 0, 0, [], false, ⟨[], false, 0, false⟩⟩

/-- The state with everything forgotten that the levels of the display controller reach. -/
def State.forgetAck (s : State) : State :=
  { s with
    work := s.work.forgetAck
    env := s.env.forgetAck
    display := Display.forgotten
    trace := s.trace.map forgetRead }

/-- The two states differ only in what an ACK level reaches. -/
def AckAlike (s t : State) : Prop := s.forgetAck = t.forgetAck

theorem AckAlike.cfg {s t : State} (h : AckAlike s t) : s.cfg = t.cfg := (congrArg State.cfg h : _)

theorem AckAlike.ctrl {s t : State} (h : AckAlike s t) : s.ctrl = t.ctrl := (congrArg State.ctrl h : _)

theorem AckAlike.schedule {s t : State} (h : AckAlike s t) : s.env.schedule = t.env.schedule :=
  (congrArg (fun x => x.env.schedule) h : _)

/-- A change of the state that can be made after forgetting as well, as `g`, keeps the likeness. -/
theorem AckAlike.map_of {s t : State} (h : AckAlike s t) (f g : State → State)
    (hf : ∀ s, (f s).forgetAck = g s.forgetAck) : AckAlike (f s) (f t) := by
  rw [AckAlike, hf, hf, h]

theorem AckAlike.map {s t : State} (h : AckAlike s t) (f : State → State)
    (hf : ∀ s, (f s).forgetAck = f s.forgetAck) : AckAlike (f s) (f t) := h.map_of f f hf

theorem Env.forgetAck_dropOver (mode : Overcapture) (e : Env) :
    (e.dropOver mode).forgetAck = e.forgetAck.dropOver mode := by cases mode <;> rfl

namespace State

theorem forgetAck_capture (s : State) : s.capture.forgetAck = s.forgetAck.capture := by
  cases hcf : s.capu.cf
  · rw [capture_of_clear hcf, capture_of_clear (s := s.forgetAck) hcf]
    rfl
  · rw [capture_of_set hcf, capture_of_set (s := s.forgetAck) hcf]
    exact congrArg (s.forgetAck.setCapu _).setEnv (Env.forgetAck_dropOver _ _)

theorem forgetAck_echoTo (v : Bool) (s : State) : (s.echoTo v).forgetAck = s.forgetAck.echoTo v := by
  unfold echoTo
  show _ = if s.env.echo = v then _ else if s.capu.edge = edgeTo v then _ else _
  split_ifs
  · rfl
  · exact forgetAck_capture _
  · rfl

theorem SameButDisplay.forgetAck {s t : State} (h : SameButDisplay s t) : t.forgetAck = s.forgetAck := by
  unfold State.forgetAck
  rw [h.env]
  simp only [h.capu, h.pins, h.ctrl, h.work, h.seq, h.leds, h.trace, h.result, h.micro, h.script, h.cfg]
  rfl

theorem forgetAck_senseLeds (clk latch : Bool) (s : State) :
    (s.senseLeds clk latch).forgetAck = s.forgetAck.senseLeds clk latch := by
  unfold senseLeds
  show _ = if (!clk && s.pins.sclk) = true then _ else if (!latch && s.pins.slat) = true then _ else _
  split_ifs <;> rfl

/-- A change of pins is seen in the pins, the trace and the LED receiver. -/
theorem forgetAck_drive (p : Pins) (e : TraceEvent) (s : State) :
    (s.drive p e).forgetAck =
      ((s.forgetAck.setPins p).addTrace (forgetRead e)).senseLeds s.pins.sclk s.pins.slat := by
  unfold drive
  rw [forgetAck_senseLeds, (senseDisplay_same _ _ _).forgetAck]
  rfl

end State

/-- Two such states are alike after a RESET: the draws of the registers are no ACK levels (R34). -/
theorem AckAlike.coreReset {s t : State} (h : AckAlike s t) : AckAlike s.coreReset t.coreReset :=
  h.map_of State.coreReset (fun s => s.coreReset.setWork s.coreReset.work.forgetAck) fun _ => rfl

/-! ## The window -/

/-- The events due do the same to two such states: both go on, or a RESET abandons the operation in both. -/
theorem deliver_ackAlike : ∀ (l : List (Nat × EnvEvent)) {s t : State}, AckAlike s t →
    (∃ u v, s.deliver l = .ok u ∧ t.deliver l = .ok v ∧ AckAlike u v) ∨
    (∃ u v, s.deliver l = .error u ∧ t.deliver l = .error v ∧ AckAlike u v)
  | [], _, _, h => .inl ⟨_, _, rfl, rfl, h.map (State.setSchedule · []) fun _ => rfl⟩
  | (k + 1, e) :: rest, _, _, h => .inl ⟨_, _, rfl, rfl, h.map (State.setSchedule · ((k, e) :: rest)) fun _ => rfl⟩
  | (0, .reset) :: rest, _, _, h => .inr ⟨_, _, rfl, rfl, h.coreReset.map (State.setSchedule · rest) fun _ => rfl⟩
  | (0, .cnt n) :: rest, _, _, h => deliver_ackAlike rest (h.map (State.cntTicks n) fun _ => rfl)
  | (0, .echo v) :: rest, _, _, h => deliver_ackAlike rest (h.map (State.echoTo v) (State.forgetAck_echoTo v))

/-- The window before a micro-step does the same to two such states. -/
theorem window_ackAlike {s t : State} (h : AckAlike s t) :
    (∃ u v, s.window = .ok u ∧ t.window = .ok v ∧ AckAlike u v) ∨
    (∃ u v, s.window = .error u ∧ t.window = .error v ∧ AckAlike u v) := by
  unfold State.window
  rw [← h.schedule]
  rcases deliver_ackAlike s.env.schedule h with ⟨u, v, hu, hv, huv⟩ | ⟨u, v, hu, hv, huv⟩
  · exact .inl ⟨u.countMicro, v.countMicro, by rw [hu], by rw [hv], huv.map State.countMicro fun _ => rfl⟩
  · exact .inr ⟨u, v, by rw [hu], by rw [hv], huv⟩

/-! ## Operations that do not tell such states apart -/

section
variable {α β : Type}

/-- From states that are alike both operations end, with values related by `V`, or both are abandoned; in states that
are alike. -/
def EndAlike (V : α → α → Prop) (m m' : Op α) : Prop := ∀ s t, AckAlike s t →
  (∃ a b u v, m s = .ok (a, u) ∧ m' t = .ok (b, v) ∧ V a b ∧ AckAlike u v) ∨
  (∃ u v, m s = .error u ∧ m' t = .error v ∧ AckAlike u v)

/-- The operation does not act upon an ACK level, and its value is none. -/
def AckBlind (m : Op α) : Prop := EndAlike Eq m m

/-- The operation does not act upon an ACK level, but may return one. -/
def AckBlindButValue (m : Op α) : Prop := EndAlike (fun _ _ => True) m m

theorem EndAlike.bind {V : α → α → Prop} {W : β → β → Prop} {m m' : Op α} {k k' : α → Op β} (h : EndAlike V m m')
    (hk : ∀ a b, V a b → EndAlike W (k a) (k' b)) : EndAlike W (m >>= k) (m' >>= k') := fun s t hst => by
  rcases h s t hst with ⟨a, b, u, v, hu, hv, hab, huv⟩ | ⟨u, v, hu, hv, huv⟩
  · rw [bind_ok hu, bind_ok hv]
    exact hk a b hab u v huv
  · exact .inr ⟨u, v, bind_error hu, bind_error hv, huv⟩

theorem AckBlind.bind {m : Op α} {k : α → Op β} (h : AckBlind m) (hk : ∀ a, AckBlind (k a)) : AckBlind (m >>= k) :=
  EndAlike.bind h fun a _ hab => hab ▸ hk a

theorem AckBlindButValue.bind {m : Op α} {k : α → Op β} (h : AckBlind m) (hk : ∀ a, AckBlindButValue (k a)) :
    AckBlindButValue (m >>= k) := EndAlike.bind h fun a _ hab => hab ▸ hk a

/-- The value is dropped. -/
theorem AckBlind.bind_const {m : Op α} {m' : Op β} (h : AckBlindButValue m) (h' : AckBlind m') :
    AckBlind (m >>= fun _ => m') := EndAlike.bind h fun _ _ _ => h'

theorem AckBlind.pure (a : α) : AckBlind (Pure.pure a : Op α) := fun _ _ h => .inl ⟨a, a, _, _, rfl, rfl, rfl, h⟩

theorem AckBlind.query {g : State → α} (hg : ∀ s, g s = g s.forgetAck) : AckBlind (Machine.query g) :=
  fun s t h => .inl ⟨g s, g t, s, t, rfl, rfl, by rw [hg s, hg t, h], h⟩

theorem AckBlindButValue.query (g : State → α) : AckBlindButValue (Machine.query g) :=
  fun _ _ h => .inl ⟨_, _, _, _, rfl, rfl, trivial, h⟩

theorem AckBlind.goto (q : SeqPos) : AckBlind (Machine.goto q) :=
  fun _ _ h => .inl ⟨(), (), _, _, rfl, rfl, rfl, h.map (State.setSeq · q) fun _ => rfl⟩

/-- A micro-step whose value is read off what is not forgotten, and whose change is seen there. -/
theorem AckBlind.micro {f : State → α × State} (g : State → State) (hv : ∀ s, (f s).1 = (f s.forgetAck).1)
    (hf : ∀ s, (f s).2.forgetAck = g s.forgetAck) : AckBlind (Machine.micro f) := fun s t h => by
  rcases window_ackAlike h with ⟨u, v, hu, hv', huv⟩ | ⟨u, v, hu, hv', huv⟩
  · exact .inl ⟨(f u).1, (f v).1, (f u).2, (f v).2, micro_ok hu, micro_ok hv', by rw [hv u, hv v, huv],
      huv.map_of (fun s => (f s).2) g hf⟩
  · exact .inr ⟨u, v, micro_error hu, micro_error hv', huv⟩

theorem AckBlind.act_of {f : State → State} (g : State → State) (hf : ∀ s, (f s).forgetAck = g s.forgetAck) :
    AckBlind (Machine.act f) := .micro g (fun _ => rfl) hf

theorem AckBlind.act {f : State → State} (hf : ∀ s, (f s).forgetAck = f s.forgetAck) : AckBlind (Machine.act f) :=
  .act_of f hf

theorem AckBlind.look {g : State → α} (hg : ∀ s, g s = g s.forgetAck) : AckBlind (Machine.look g) :=
  .micro id hg fun _ => rfl

end

theorem ackBlind_pinWrite (p : Pin) (v : Bool) : AckBlind (pinWrite p v) :=
  .act_of (fun s => ((s.setPins (s.pins.put p v)).addTrace (.write p v)).senseLeds s.pins.sclk s.pins.slat)
    fun _ => State.forgetAck_drive _ _ _

theorem ackBlind_dirWrite (d : Dir) : AckBlind (dirWrite d) := by
  cases d with
  | out =>
    exact .act_of
      (fun s => ((s.setPins { s.pins with dioDir := .out }).addTrace (.dir .out)).senseLeds s.pins.sclk s.pins.slat)
      fun _ => State.forgetAck_drive _ _ _
  | inPullup =>
    exact .act_of (fun s => (s.setPins { s.pins with dioDir := .inPullup }).addTrace (.dir .inPullup))
      fun _ => (State.senseDisplay_same _ _ _).forgetAck

theorem ackBlind_delay (k : DelayKind) : AckBlind (delay k) := .act fun _ => rfl

theorem ackBlind_control : AckBlind control := .act fun _ => rfl

theorem ackBlind_sampleAck : AckBlind sampleAck := .act_of (fun s => s.addTrace (.read false)) fun _ => rfl

theorem ackBlind_setEdge (e : Edge) : AckBlind (setEdge e) := .act fun _ => rfl

theorem ackBlind_cfClear : AckBlind cfClear := .act fun _ => rfl

theorem ackBlind_adcSample : AckBlind adcSample :=
  .micro (fun s => s.setEnv s.env.dropSample) (fun _ => rfl) fun _ => rfl

theorem ackBlind_countPoll : AckBlind countPoll := .act fun _ => rfl

/-! ## Capture waits and measurements -/

theorem ackBlind_trigPulse : AckBlind trigPulse :=
  .bind (ackBlind_pinWrite _ _) fun _ => .bind (ackBlind_delay _) fun _ => ackBlind_pinWrite _ _

theorem ackBlind_pollOnce (timeout : Nat) {again : Op WaitResult} (h : AckBlind again) :
    AckBlind (pollOnce timeout again) := by
  refine .bind (.look fun _ => rfl) fun f => .bind ackBlind_control fun _ => ?_
  split
  · exact .pure _
  · refine .bind ackBlind_countPoll fun _ => .bind (.look fun _ => rfl) fun n => ?_
    split
    · exact .pure _
    · exact .bind ackBlind_control fun _ => h

theorem ackBlind_pollLoop (timeout : Nat) : ∀ fuel, AckBlind (pollLoop timeout fuel)
  | 0 => ackBlind_pollOnce timeout (.pure _)
  | fuel + 1 => ackBlind_pollOnce timeout (ackBlind_pollLoop timeout fuel)

theorem ackBlind_continueWait (timeout : Nat) : AckBlind (continueWait timeout) :=
  .bind (.query fun _ => rfl) fun budget => ackBlind_pollLoop budget budget

theorem ackBlind_waitCapture (timeout : Nat) : AckBlind (waitCapture timeout) :=
  .bind (.act fun _ => rfl) fun _ => ackBlind_continueWait timeout

theorem ackBlind_secondWait (timeout : Nat) : AckBlind (secondWait timeout) := by
  refine .bind (.query fun _ => rfl) fun restart => ?_
  split
  · exact ackBlind_waitCapture timeout
  · exact ackBlind_continueWait timeout

theorem ackBlind_measureFall (timeout : Nat) : AckBlind (measureFall timeout) := by
  refine .bind (.act fun _ => rfl) fun _ => .bind ackBlind_cfClear fun _ => .bind (ackBlind_setEdge _) fun _ =>
    .bind (ackBlind_secondWait timeout) fun r => ?_
  cases r with
  | captured => exact .bind (.act fun _ => rfl) fun _ => .bind (ackBlind_setEdge _) fun _ => .look fun _ => rfl
  | timedOut => exact .bind (ackBlind_setEdge _) fun _ => .pure _

theorem ackBlind_measureRaw (timeout : Nat) : AckBlind (measureRaw timeout) := by
  refine .bind ackBlind_cfClear fun _ => .bind (ackBlind_setEdge _) fun _ => .bind ackBlind_trigPulse fun _ =>
    .bind (ackBlind_waitCapture timeout) fun r => ?_
  cases r with
  | captured => exact ackBlind_measureFall timeout
  | timedOut => exact .pure _

/-! ## The display bus -/

theorem ackBlind_twStart : AckBlind twStart :=
  .bind (ackBlind_pinWrite _ _) fun _ => .bind (ackBlind_pinWrite _ _) fun _ => .bind (ackBlind_delay _) fun _ =>
  .bind (ackBlind_pinWrite _ _) fun _ => ackBlind_delay _

theorem ackBlind_twBit (b : Bool) : AckBlind (twBit b) :=
  .bind (ackBlind_pinWrite _ _) fun _ => .bind (ackBlind_pinWrite _ _) fun _ => .bind (ackBlind_delay _) fun _ =>
  .bind (ackBlind_pinWrite _ _) fun _ => ackBlind_delay _

theorem ackBlind_twStop : AckBlind twStop :=
  .bind (ackBlind_pinWrite _ _) fun _ => .bind (ackBlind_pinWrite _ _) fun _ => .bind (ackBlind_delay _) fun _ =>
  .bind (ackBlind_pinWrite _ _) fun _ => .bind (ackBlind_delay _) fun _ => .bind (ackBlind_pinWrite _ _) fun _ =>
  ackBlind_delay _

/-- The ACK cycle: the level goes to ACKV, the trace and the value, and nowhere else (R143). -/
theorem ackBlindButValue_twAck : AckBlindButValue twAck :=
  .bind (ackBlind_pinWrite _ _) fun _ => .bind (ackBlind_dirWrite _) fun _ =>
  .bind (ackBlind_pinWrite _ _) fun _ => .bind ackBlind_sampleAck fun _ =>
  .bind (ackBlind_pinWrite _ _) fun _ => .bind (ackBlind_dirWrite _) fun _ =>
  .query _

theorem ackBlind_twBits : ∀ left, AckBlind (twBits left)
  | 0 => .pure _
  | left + 1 =>
    .bind (.act fun _ => rfl) fun _ => .bind (.query fun _ => rfl) fun _ => .bind (ackBlind_twBit _) fun _ =>
    .bind (.act fun _ => rfl) fun _ => ackBlind_twBits left

theorem ackBlindButValue_twByte (v : Byte) : AckBlindButValue (twByte v) :=
  .bind (.act fun _ => rfl) fun _ => .bind (ackBlind_twBits 8) fun _ => ackBlindButValue_twAck

/-- The level of each byte is dropped (R146, R152). -/
theorem ackBlind_twBytes : ∀ bytes, AckBlind (twBytes bytes)
  | [] => .pure _
  | v :: rest => .bind_const (ackBlindButValue_twByte v) (ackBlind_twBytes rest)

theorem ackBlind_twTransaction (bytes : List Byte) : AckBlind (twTransaction bytes) :=
  .bind ackBlind_twStart fun _ => .bind (ackBlind_twBytes bytes) fun _ => ackBlind_twStop

theorem ackBlind_sendAutoinc : AckBlind sendAutoinc := .bind (.query fun _ => rfl) fun _ => ackBlind_twTransaction _

theorem ackBlind_sendDigits : AckBlind sendDigits := .bind (.query fun _ => rfl) fun _ => ackBlind_twTransaction _

theorem ackBlind_writeFrame : AckBlind writeFrame := .bind ackBlind_sendAutoinc fun _ => ackBlind_sendDigits

theorem ackBlind_textToFrame (text : Text) : AckBlind (textToFrame text) :=
  .bind (.act fun _ => rfl) fun _ => .bind (.act fun _ => rfl) fun _ => .bind (.act fun _ => rfl) fun _ =>
  .act fun _ => rfl

theorem ackBlind_writeDigits (text : Text) : AckBlind (writeDigits text) :=
  .bind (ackBlind_textToFrame text) fun _ => ackBlind_writeFrame

theorem ackBlind_setBrightness (level : Byte) : AckBlind (setBrightness level) :=
  .bind (.query fun _ => rfl) fun _ => ackBlind_twTransaction _

/-! ## The shift bus and the buttons -/

theorem ackBlind_srBit (b : Bool) : AckBlind (srBit b) :=
  .bind (ackBlind_pinWrite _ _) fun _ => .bind (ackBlind_pinWrite _ _) fun _ => ackBlind_pinWrite _ _

theorem ackBlind_srLatch : AckBlind srLatch := .bind (ackBlind_pinWrite _ _) fun _ => ackBlind_pinWrite _ _

theorem ackBlind_srBits : ∀ left, AckBlind (srBits left)
  | 0 => .pure _
  | left + 1 =>
    .bind (.act fun _ => rfl) fun _ => .bind (.query fun _ => rfl) fun _ => .bind (ackBlind_srBit _) fun _ =>
    .bind (.act fun _ => rfl) fun _ => ackBlind_srBits left

theorem ackBlind_sendPattern (p : Byte) : AckBlind (sendPattern p) :=
  .bind (ackBlind_pinWrite _ _) fun _ => .bind (.act fun _ => rfl) fun _ => .bind (ackBlind_srBits 8) fun _ =>
  ackBlind_srLatch

theorem ackBlind_readRaw : AckBlind readRaw := .bind ackBlind_adcSample fun _ => .query fun _ => rfl

theorem ackBlind_confirm : AckBlind confirm := by
  refine .bind (ackBlind_delay _) fun _ => .bind ackBlind_readRaw fun _ => .bind (.query fun _ => rfl) fun _ => ?_
  split
  · exact .bind (.act fun _ => rfl) fun _ => .query fun _ => rfl
  · exact .query fun _ => rfl

theorem ackBlind_readDebounced : AckBlind readDebounced := by
  refine .bind ackBlind_readRaw fun _ => .bind (.act fun _ => rfl) fun _ => .bind (.query fun _ => rfl) fun _ => ?_
  split
  · exact .pure _
  · exact ackBlind_confirm

/-! ## The state machine -/

theorem ackBlind_showError : AckBlind showError :=
  .bind (.query fun _ => rfl) fun _ => .bind (ackBlind_writeDigits _) fun _ => ackBlind_sendPattern _

theorem ackBlind_showDistance (raw : Nat) : AckBlind (showDistance raw) :=
  .bind (.act fun _ => rfl) fun _ => .bind (.query fun _ => rfl) fun _ => .bind (ackBlind_writeDigits _) fun _ =>
  .bind (.act fun _ => rfl) fun _ => .bind (.query fun _ => rfl) fun _ => ackBlind_sendPattern _

theorem ackBlind_showThreshold : AckBlind showThreshold :=
  .bind (.act fun _ => rfl) fun _ => .bind (.query fun _ => rfl) fun _ => ackBlind_writeDigits _

theorem ackBlind_rangingCycle : AckBlind rangingCycle := by
  refine .bind (.query fun _ => rfl) fun _ => .bind (ackBlind_measureRaw _) fun _ => .bind (.act fun _ => rfl) fun _ =>
    .bind (.query fun _ => rfl) fun _ => ?_
  split
  · exact ackBlind_showError
  · exact ackBlind_showDistance _

theorem ackBlind_mNone : AckBlind mNone := .bind ackBlind_rangingCycle fun _ => ackBlind_delay _

theorem ackBlind_mMode : AckBlind mMode := .act fun _ => rfl

theorem ackBlind_thrAdjust (delta : Int) : AckBlind (thrAdjust delta) := .act fun _ => rfl

theorem ackBlind_mUp : AckBlind mUp := .bind (.act fun _ => rfl) fun _ => ackBlind_showThreshold

theorem ackBlind_mDown : AckBlind mDown := .bind (.act fun _ => rfl) fun _ => ackBlind_showThreshold

theorem ackBlind_sNone : AckBlind sNone := .bind ackBlind_showThreshold fun _ => ackBlind_delay _

theorem ackBlind_sMode : AckBlind sMode := .bind (.act fun _ => rfl) fun _ => ackBlind_delay _

theorem ackBlind_sUp : AckBlind sUp :=
  .bind (ackBlind_thrAdjust _) fun _ => .bind ackBlind_showThreshold fun _ => ackBlind_delay _

theorem ackBlind_sDown : AckBlind sDown :=
  .bind (ackBlind_thrAdjust _) fun _ => .bind ackBlind_showThreshold fun _ => ackBlind_delay _

theorem ackBlind_fRecover : AckBlind fRecover := .act fun _ => rfl

theorem ackBlind_arm (dw : BitVec 4) : AckBlind (arm dw) := by
  unfold arm
  split
  · exact ackBlind_mNone
  · exact ackBlind_mMode
  · exact ackBlind_mUp
  · exact ackBlind_mDown
  · exact ackBlind_sNone
  · exact ackBlind_sMode
  · exact ackBlind_sUp
  · exact ackBlind_sDown
  · exact ackBlind_fRecover

theorem ackBlind_tick : AckBlind tick :=
  .bind ackBlind_readDebounced fun _ => .bind (.act fun _ => rfl) fun _ => .bind (.query fun _ => rfl) fun _ =>
  ackBlind_arm _

theorem ackBlind_boot : AckBlind boot := by
  refine .bind (.query fun _ => rfl) fun level => ?_
  cases level with
  | none => exact .goto _
  | some l => exact .bind (ackBlind_setBrightness _) fun _ => .goto _

/-! ## Launched operations -/

theorem AckAlike.setResult {s t : State} (h : AckAlike s t) (v : Value) : AckAlike (s.setResult v) (t.setResult v) :=
  h.map (State.setResult · v) fun _ => rfl

/-- A launched operation that is blind leaves such states alike, its value included. -/
theorem AckBlind.run {α : Type} {m : Op α} (h : AckBlind m) (v : α → Value) {s t : State} (hst : AckAlike s t) :
    AckAlike (run m v s) (run m v t) := by
  rcases h s t hst with ⟨a, b, u, w, hu, hw, rfl, huw⟩ | ⟨u, w, hu, hw, huw⟩
  · rw [run_ok hu, run_ok hw]
    exact huw.setResult _
  · rwa [run_error hu, run_error hw]

/-- A launched operation that may return the level leaves such states alike but for its value. -/
theorem AckBlindButValue.run {α : Type} {m : Op α} (h : AckBlindButValue m) (v : α → Value) {s t : State}
    (hst : AckAlike s t) : AckAlike ((Machine.run m v s).setResult .none) ((Machine.run m v t).setResult .none) := by
  rcases h s t hst with ⟨a, b, u, w, hu, hw, -, huw⟩ | ⟨u, w, hu, hw, huw⟩
  · rw [run_ok hu, run_ok hw]
    exact huw.setResult .none
  · rw [run_error hu, run_error hw]
    exact huw.setResult .none

/-- Every operation but TW_ACK and TW_BYTE leaves such states alike, its value included. -/
theorem exec_ackAlike {s t : State} (h : AckAlike s t) {i : Instr} (hack : i ≠ .twAck) (hbyte : ∀ v, i ≠ .twByte v) :
    ∃ u v, exec i s = .next u ∧ exec i t = .next v ∧ AckAlike u v := by
  cases i with
  | twAck => exact absurd rfl hack
  | twByte v => exact absurd rfl (hbyte v)
  | cntTick => exact ⟨_, _, rfl, rfl, (h.map (State.cntTicks 1) fun _ => rfl).setResult _⟩
  | echoRise => exact ⟨_, _, rfl, rfl, (h.map _ (State.forgetAck_echoTo true)).setResult _⟩
  | echoFall => exact ⟨_, _, rfl, rfl, (h.map _ (State.forgetAck_echoTo false)).setResult _⟩
  | reset => exact ⟨_, _, rfl, rfl, h.coreReset⟩
  | numToText | ledPattern | logText | logNumber => exact ⟨_, _, rfl, rfl, h.setResult _⟩
  | ticksToCm | ticksToInch | classify | cmToInch =>
    refine ⟨_, _, rfl, rfl, ?_⟩
    rw [h.cfg]
    exact h.setResult _
  | thrInUnit =>
    refine ⟨_, _, rfl, rfl, ?_⟩
    rw [h.cfg, h.ctrl]
    exact h.setResult _
  | showDistance raw =>
    refine ⟨_, _, rfl, rfl, ?_⟩
    rw [h.cfg]
    exact (ackBlind_showDistance _).run _ h
  | cfClear => exact ⟨_, _, rfl, rfl, ackBlind_cfClear.run _ h⟩
  | setEdgeRising | setEdgeFalling => exact ⟨_, _, rfl, rfl, (ackBlind_setEdge _).run _ h⟩
  | ccrRead | cfRead => exact ⟨_, _, rfl, rfl, AckBlind.run (.look fun _ => rfl) _ h⟩
  | trigPulse => exact ⟨_, _, rfl, rfl, ackBlind_trigPulse.run _ h⟩
  | waitCapture => exact ⟨_, _, rfl, rfl, (ackBlind_waitCapture _).run _ h⟩
  | measureRaw => exact ⟨_, _, rfl, rfl, (ackBlind_measureRaw _).run _ h⟩
  | twStart => exact ⟨_, _, rfl, rfl, ackBlind_twStart.run _ h⟩
  | twBit => exact ⟨_, _, rfl, rfl, (ackBlind_twBit _).run _ h⟩
  | twStop => exact ⟨_, _, rfl, rfl, ackBlind_twStop.run _ h⟩
  | twTransaction => exact ⟨_, _, rfl, rfl, (ackBlind_twTransaction _).run _ h⟩
  | textToFrame => exact ⟨_, _, rfl, rfl, (ackBlind_textToFrame _).run _ h⟩
  | writeFrame => exact ⟨_, _, rfl, rfl, ackBlind_writeFrame.run _ h⟩
  | writeDigits => exact ⟨_, _, rfl, rfl, (ackBlind_writeDigits _).run _ h⟩
  | setBrightness | cmdCtrl => exact ⟨_, _, rfl, rfl, (ackBlind_setBrightness _).run _ h⟩
  | srBit => exact ⟨_, _, rfl, rfl, (ackBlind_srBit _).run _ h⟩
  | srLatch => exact ⟨_, _, rfl, rfl, ackBlind_srLatch.run _ h⟩
  | sendPattern => exact ⟨_, _, rfl, rfl, (ackBlind_sendPattern _).run _ h⟩
  | adcSample => exact ⟨_, _, rfl, rfl, ackBlind_adcSample.run _ h⟩
  | readRaw => exact ⟨_, _, rfl, rfl, ackBlind_readRaw.run _ h⟩
  | readDebounced => exact ⟨_, _, rfl, rfl, ackBlind_readDebounced.run _ h⟩
  | tick => exact ⟨_, _, rfl, rfl, ackBlind_tick.run _ h⟩
  | rangingCycle => exact ⟨_, _, rfl, rfl, ackBlind_rangingCycle.run _ h⟩
  | showError => exact ⟨_, _, rfl, rfl, ackBlind_showError.run _ h⟩
  | showThreshold => exact ⟨_, _, rfl, rfl, ackBlind_showThreshold.run _ h⟩
  | thrAdjust => exact ⟨_, _, rfl, rfl, (ackBlind_thrAdjust _).run _ h⟩
  | delayUs | delayMs => exact ⟨_, _, rfl, rfl, (ackBlind_delay _).run _ h⟩
  | boot => exact ⟨_, _, rfl, rfl, ackBlind_boot.run _ h⟩
  | mNone => exact ⟨_, _, rfl, rfl, ackBlind_mNone.run _ h⟩
  | mMode => exact ⟨_, _, rfl, rfl, ackBlind_mMode.run _ h⟩
  | mUp => exact ⟨_, _, rfl, rfl, ackBlind_mUp.run _ h⟩
  | mDown => exact ⟨_, _, rfl, rfl, ackBlind_mDown.run _ h⟩
  | sNone => exact ⟨_, _, rfl, rfl, ackBlind_sNone.run _ h⟩
  | sMode => exact ⟨_, _, rfl, rfl, ackBlind_sMode.run _ h⟩
  | sUp => exact ⟨_, _, rfl, rfl, ackBlind_sUp.run _ h⟩
  | sDown => exact ⟨_, _, rfl, rfl, ackBlind_sDown.run _ h⟩
  | fRecover => exact ⟨_, _, rfl, rfl, ackBlind_fRecover.run _ h⟩
  | cmdAutoinc => exact ⟨_, _, rfl, rfl, ackBlind_sendAutoinc.run _ h⟩
  | cmdAddr0 => exact ⟨_, _, rfl, rfl, ackBlind_sendDigits.run _ h⟩

/-- Every operation leaves such states alike but for the value, and the value of TW_ACK and TW_BYTE alone can differ. -/
theorem exec_ackAlike_but_result {s t : State} (h : AckAlike s t) (i : Instr) :
    ∃ u v, exec i s = .next u ∧ exec i t = .next v ∧ AckAlike (u.setResult .none) (v.setResult .none) ∧
      (i ≠ .twAck → (∀ b, i ≠ .twByte b) → u.result = v.result) := by
  by_cases hack : i = .twAck
  · subst hack
    exact ⟨_, _, rfl, rfl, ackBlindButValue_twAck.run _ h, fun hne => absurd rfl hne⟩
  by_cases hbyte : ∃ b, i = .twByte b
  · obtain ⟨b, rfl⟩ := hbyte
    exact ⟨_, _, rfl, rfl, (ackBlindButValue_twByte b).run _ h, fun _ hne => absurd rfl (hne b)⟩
  · obtain ⟨u, v, hu, hv, huv⟩ := exec_ackAlike h hack (not_exists.1 hbyte)
    exact ⟨u, v, hu, hv, huv.setResult .none, fun _ _ => (congrArg State.result huv : _)⟩

/-- Settles O31: other levels in ENV's queue leave a state like the first, and no operation tells the two apart. -/
theorem acknowledgeIsNotActedUpon : Obligations.AcknowledgeIsNotActedUpon := by
  intro i s t levels ht
  have hqueue : AckAlike (s.setEnv { s.env with ack := levels }) s := rfl
  obtain ⟨t', u, ht', hu, halike, hresult⟩ := exec_ackAlike_but_result hqueue i
  obtain rfl : t = u := Host.Outcome.next.inj (ht.symm.trans hu)
  have same {β : Type} (part : State → β) : part (t'.setResult .none).forgetAck = part (t.setResult .none).forgetAck :=
    congrArg part halike
  exact ⟨t', ht', same State.trace, same State.capu, same State.pins, same State.ctrl, same State.leds, same State.seq,
    same State.micro, same State.work, same fun s => s.env.adc, same fun s => s.env.echo, same fun s => s.env.schedule,
    hresult⟩

end Sys2Proof.Machine
end

section
/-! PROOFS. The statements of 43_shift_ledbar: the parts of the shift bus (R171, R172), what the external registers hold
after a pattern (R176), and the LED pattern as a low run of lit LEDs (R174, R175). -/

namespace Sys2Proof.Machine

/-- Settles O32: `runs_srBit` and `runs_srLatch` at a launch. -/
theorem shiftBusParts : Obligations.ShiftBusParts := fun _ hs =>
  ⟨fun b => (runs_srBit b).launch _ hs fun _ _ ⟨hpart, _⟩ => ⟨hpart.trace, hpart.pins⟩,
    runs_srLatch.launch _ hs fun _ _ ⟨hpart, _⟩ => ⟨hpart.trace, hpart.pins⟩⟩

/-- Settles O34: `runs_sendPattern` at a launch with SCLK at rest. -/
theorem patternReachesStorageRegister : Obligations.PatternReachesStorageRegister := fun _ p hs hclk =>
  (runs_sendPattern p).launch _ hs fun _ _ ⟨_, _, hleds⟩ => hleds hclk

/-- Settles O35: `ledPattern_dark`, and the bits of the low run of `ledPattern_lit`. -/
theorem ledPatternIsLowRun : Obligations.LedPatternIsLowRun := fun _ d t =>
  ⟨ledPattern d t, rfl, ledPattern_dark, fun hlit i hi => ledPattern_lit hlit ▸ lowRun_bits _ (lit_le hlit) i hi⟩

/-- A larger distance never lights more LEDs. -/
theorem ledPattern_antitone {d1 d2 t : Dist} (hd : d1.toNat ≤ d2.toNat) :
    (ledPattern d2 t).toNat ≤ (ledPattern d1 t).toNat := by
  rcases Nat.lt_or_ge d2.toNat t.toNat with hlit2 | hdark
  · have hlit1 := Nat.lt_of_le_of_lt hd hlit2
    have hcount : (t.toNat - d2.toNat) * 8 / t.toNat ≤ (t.toNat - d1.toNat) * 8 / t.toNat :=
      Nat.div_le_div_right (Nat.mul_le_mul_right 8 (Nat.sub_le_sub_left hd _))
    rw [ledPattern_lit hlit2, ledPattern_lit hlit1]
    exact lowRun_mono _ (lit_le hlit1) _ hcount
  · rw [ledPattern_dark (.inr hdark)]
    exact Nat.zero_le _

/-- All eight LEDs light at distance 0 alone: from 1 on the dividend is below `8 * t`. -/
theorem lit_eq_eight_iff {d t : Nat} (h : d < t) : (t - d) * 8 / t = 8 ↔ d = 0 := by
  constructor
  · intro hfull
    have hdividend : 8 * t ≤ (t - d) * 8 := (Nat.le_div_iff_mul_le (Nat.zero_lt_of_lt h)).1 hfull.ge
    omega
  · rintro rfl
    exact Nat.mul_div_cancel_left 8 h

theorem ledPattern_full_iff {d t : Dist} : ledPattern d t = 0xFF ↔ d.toNat = 0 ∧ 0 < t.toNat := by
  rcases Nat.lt_or_ge d.toNat t.toNat with hlit | hdark
  · rw [ledPattern_lit hlit, lowRun_full _ (lit_le hlit), lit_eq_eight_iff hlit]
    exact (and_iff_left (Nat.zero_lt_of_lt hlit)).symm
  · rw [ledPattern_dark (.inr hdark)]
    exact iff_of_false (by decide) fun ⟨hzero, hpos⟩ => by omega

/-- Settles O36: the count of lit LEDs does not grow with the distance, and is 8 at distance 0 alone. -/
theorem ledPatternIsMonotonic : Obligations.LedPatternIsMonotonic := fun _ _ _ =>
  ⟨fun _ => ledPattern_antitone, ledPattern_dark, ledPattern_full_iff⟩

end Sys2Proof.Machine
end

section
/-! PROOFS. The statements of 44_button_adc_debounce: the samples that are consumed (R185, R188), the class of each band
(R186, R187), and the three outcomes of the debouncer (R189). -/

namespace Sys2Proof.Machine

/-- Settles O37: `runs_adcSample_takes` and `runs_readRaw` at a launch. -/
theorem sampleIsConsumed : Obligations.SampleIsConsumed := fun _ hs =>
  ⟨runs_adcSample_takes.launch .sample hs fun _ _ ⟨hvalue, htaken, _⟩ =>
      ⟨congrArg Value.sample hvalue, htaken.adc.trans List.drop_one, htaken.count⟩,
    runs_readRaw.launch .button hs fun _ _ ⟨hclass, htaken, _, hctrl, _⟩ =>
      ⟨congrArg Value.button hclass, htaken.adc.trans List.drop_one, htaken.count, hctrl⟩⟩

/-- R187: the three bands lie one above the other. -/
theorem bands_ordered {cfg : Config} (h : bandsOk cfg = true) :
    cfg.upHi < cfg.downLo ∧ cfg.downLo ≤ cfg.downHi ∧ cfg.downHi ≤ cfg.modeTh := by
  unfold bandsOk at h
  simp only [Bool.and_eq_true, decide_eq_true_eq] at h
  obtain ⟨⟨⟨⟨_, hupDown⟩, hdown⟩, hdownMode⟩, _⟩ := h
  exact ⟨hupDown, hdown, hdownMode⟩

theorem classify_eq_mode_iff {cfg : Config} {n : Nat} : classify cfg n = .mode ↔ cfg.modeTh < n := by
  unfold classify
  split_ifs with hmode <;> simp [hmode]

/-- The test for MODE, which comes first, takes no sample of the DOWN band away. -/
theorem classify_eq_down_iff {cfg : Config} {n : Nat} (hbands : bandsOk cfg = true) :
    classify cfg n = .down ↔ cfg.downLo ≤ n ∧ n ≤ cfg.downHi := by
  obtain ⟨_, _, hdownMode⟩ := bands_ordered hbands
  unfold classify
  split_ifs with hmode hdown
  · exact iff_of_false nofun fun ⟨_, hhi⟩ => by omega
  · exact iff_of_true rfl hdown
  · exact iff_of_false nofun hdown
  · exact iff_of_false nofun hdown

/-- The tests for MODE and DOWN, which come first, take no sample of the UP band away. -/
theorem classify_eq_up_iff {cfg : Config} {n : Nat} (hbands : bandsOk cfg = true) :
    classify cfg n = .up ↔ cfg.upLo ≤ n ∧ n ≤ cfg.upHi := by
  obtain ⟨hupDown, hdownBand, hdownMode⟩ := bands_ordered hbands
  unfold classify
  split_ifs with hmode hdown hup
  · exact iff_of_false nofun fun ⟨_, hhi⟩ => by omega
  · exact iff_of_false nofun fun ⟨_, hhi⟩ => by omega
  · exact iff_of_true rfl hup
  · exact iff_of_false nofun hup

/-- Settles O38: the sample's class, and which samples each class has where the bands are ordered. -/
theorem classesFollowBands : Obligations.ClassesFollowBands := fun s v hbands =>
  ⟨classify s.cfg (s.cfg.sample v), rfl, classify_eq_mode_iff, classify_eq_down_iff hbands,
    classify_eq_up_iff hbands⟩

section
variable {s : State}

theorem debounced_of_unchanged (h : classAt s 0 = s.ctrl.stable) : debounced s = s.ctrl.stable := if_pos h

theorem debounced_of_confirmed (h : classAt s 0 ≠ s.ctrl.stable) (h' : classAt s 1 = classAt s 0) :
    debounced s = classAt s 0 := (if_neg h).trans (if_pos h')

theorem debounced_of_bounced (h : classAt s 0 ≠ s.ctrl.stable) (h' : classAt s 1 ≠ classAt s 0) :
    debounced s = s.ctrl.stable := (if_neg h).trans (if_neg h')

end

/-- Settles O39: `runs_readDebounced` at a launch, with what `debounced` is in each of the three cases. -/
theorem debouncerConfirmsChange : Obligations.DebouncerConfirmsChange := fun s hs =>
  runs_readDebounced.launch .button hs fun b t ⟨hvalue, _, hwork, hctrl, hone, htwo⟩ => by
    -- Where STABLE is reported, writing it back leaves the control state as it was.
    have hresult {c : Button} (hc : debounced s = c) :
        (t.setResult (.button b)).result = .button c ∧ (t.setResult (.button b)).ctrl = { s.ctrl with stable := c } :=
      ⟨congrArg Value.button (hvalue.trans hc), hc ▸ hctrl⟩
    refine ⟨hwork, fun hsame => ?_, fun hdiffers hagree => ?_, fun hdiffers hbounce => ?_⟩
    · obtain ⟨htaken, htrace⟩ := hone hsame
      obtain ⟨hreported, hstable⟩ := hresult (debounced_of_unchanged hsame)
      exact ⟨hreported, hstable, htrace, htaken.count⟩
    · obtain ⟨htaken, htrace⟩ := htwo hdiffers
      obtain ⟨hreported, hstable⟩ := hresult (debounced_of_confirmed hdiffers hagree)
      exact ⟨hreported, hstable, htrace, htaken.count⟩
    · obtain ⟨htaken, htrace⟩ := htwo hdiffers
      obtain ⟨hreported, hstable⟩ := hresult (debounced_of_bounced hdiffers hbounce)
      exact ⟨hreported, hstable, htrace, htaken.count⟩

end Sys2Proof.Machine
end

section
/-! PROOFS. The statements of 45_ranging_fsm about the control state: TICK and the arm it selects (R200), the arms of a
single write (R202, R209), the threshold (R214, R215, R216), and who writes STATE, UNIT, THRESHOLD and STABLE (R218). -/

namespace Sys2Proof.Machine

/-! ## The control state -/

theorem toggleUnit_eq (u : MeasureUnit) : toggleUnit u = if u = .centimeters then .inches else .centimeters := by
  cases u <;> rfl

/-- One step up, as R207 has it. -/
theorem adjustThreshold_up (t : Dist) : (adjustThreshold t 10).toNat = min (t.toNat + 10) 400 := by
  have := adjustThreshold_toNat t 10
  omega

/-- One step down, as R208 has it: the subtraction of natural numbers is the clamp at 0. -/
theorem adjustThreshold_down (t : Dist) : (adjustThreshold t (-10)).toNat = min (t.toNat - 10) 400 := by
  have := adjustThreshold_toNat t (-10)
  omega

/-- A threshold in its range is not moved by clamping it. -/
theorem adjustThreshold_zero {t : Dist} (h : t.toNat ≤ 400) : adjustThreshold t 0 = t := by
  have := adjustThreshold_toNat t 0
  exact BitVec.eq_of_toNat_eq (by omega)

/-- What the selected arm makes of each register, for the three kinds of STATE: MEASURE, SETUP, a reserved value. -/
theorem armCtrl_eq (e : Button) (c : Ctrl) : armCtrl e c = {
    opState := if c.opState = 0 then (if e = .up ∨ e = .down then 1 else 0)
      else if c.opState = 1 then (if e = .mode then 0 else 1) else 0
    unit := if c.opState = 0 ∧ e = .mode then toggleUnit c.unit else c.unit
    threshold := if c.opState = 1 ∧ e = .up then adjustThreshold c.threshold 10
      else if c.opState = 1 ∧ e = .down then adjustThreshold c.threshold (-10) else c.threshold
    stable := c.stable } := by
  obtain ⟨st, unit, threshold, stable⟩ := c
  unfold armCtrl
  by_cases hmeasure : st = 0
  · cases e <;> simp [hmeasure]
  · by_cases hsetup : st = 1
    · cases e <;> simp [hsetup]
    · simp only [hmeasure, hsetup, if_false, false_and]

/-! ## The obligations about the control state -/

/-- Settles O40: `runs_tick` at a launch, and each register of `armCtrl`. -/
theorem tickTransition : Obligations.TickTransition := fun _ hs =>
  runs_tick.launch _ hs fun _ t ⟨hctrl, hev⟩ => by
    rw [State.setResult_work, State.setResult_ctrl, hctrl, armCtrl_eq, ← adjustThreshold_up, ← adjustThreshold_down,
      ← toggleUnit_eq, ← apply_ite BitVec.toNat, ← apply_ite BitVec.toNat]
    exact ⟨hev, rfl, rfl, rfl, rfl⟩

/-- TICK from the window before the write of EV on is the selected arm. -/
theorem tick_of_debounced {s u v : State} {e : Button} (hread : readDebounced s = .ok (e, u))
    (hwindow : u.window = .ok v) :
    tick s = arm (dispatchWord v.ctrl.opState e) (v.setWork { v.work with ev := e }) := by
  unfold tick
  rw [bind_ok hread, putWork, bind_ok (act_ok hwindow), bind_ok (query_apply _ _)]
  rfl

/-- Settles O41: `tick_of_debounced`, and the arm of a dispatch word is the operation the word decodes to. -/
theorem tickRunsSelectedArm : Obligations.TickRunsSelectedArm := by
  intro s u v e hread hwindow
  refine ⟨run tick (fun _ => .unit) s, rfl, ?_⟩
  rw [exec_decodeDw, run, run, tick_of_debounced hread hwindow]

/-- An operation that is one write of the control state, launched. -/
theorem run_putCtrl {s t : State} (hwindow : s.window = .ok t) (f : Ctrl → Ctrl) (v : Unit → Value) :
    run (putCtrl f) v s = (t.setCtrl (f t.ctrl)).setResult (v ()) := run_ok (act_ok hwindow)

/-- Settles O42: both arms are one write of the control state. -/
theorem singleWriteArms : Obligations.SingleWriteArms := by
  intro s t k hwindow
  rw [← toggleUnit_eq]
  exact ⟨congrArg _ (run_putCtrl hwindow (fun c => { c with unit := toggleUnit c.unit }) _),
    congrArg _ (run_putCtrl hwindow (fun c => { c with opState := stMeasure }) _)⟩

/-- Settles O45: the write of THRESHOLD, its value as an integer, and that this value is in range. -/
theorem thresholdIsClamped : Obligations.ThresholdIsClamped := fun s delta hs =>
  (runs_putCtrl_frame fun c => { c with threshold := adjustThreshold c.threshold delta }).launch _ hs
    fun _ t ⟨_, _, hctrl, _⟩ => by
      rw [State.setResult_ctrl, hctrl]
      exact ⟨rfl, adjustThreshold_toNat _ _, adjustThreshold_zero (adjustThreshold_le _ _)⟩

theorem cmToInch_table {cfg : Config} {values : Vector Dist 512} (h : cfg.cm2in = .table values) (c : Dist) :
    values[c.toNat]? = some (cmToInch cfg c) := by
  unfold cmToInch
  rw [h]
  exact Vector.getElem?_eq_getElem c.isLt

/-- R216: 0 converts to 0 in an allowed configuration, be CM2IN the formula or a table. -/
theorem cmToInch_zero {cfg : Config} (h : configOk cfg = true) : cmToInch cfg 0 = 0 := by
  simp only [configOk, Bool.and_eq_true] at h
  obtain ⟨⟨_, hok⟩, _⟩ := h
  cases hc : cfg.cm2in with
  | formula => exact BitVec.eq_of_toNat_eq (cmToInch_toNat hc 0)
  | table values =>
    unfold cm2inOk at hok
    unfold cmToInch
    rw [hc] at hok ⊢
    exact of_decide_eq_true (Bool.and_eq_true_iff.1 hok).1

/-- Settles O46: the conversion is `cmToInch` with the configuration. -/
theorem thresholdConverts : Obligations.ThresholdConverts := by
  intro s
  refine ⟨cmToInch s.cfg, fun _ => rfl, cmToInch_toNat, fun _ => cmToInch_table,
    thresholdIn s.cfg s.ctrl.unit s.ctrl.threshold, rfl, fun hunit => ?_, fun hunit => ?_, fun hok hzero => ?_⟩
  · rw [hunit, thresholdIn]
  · rw [hunit, thresholdIn]
  · rw [hzero]
    cases s.ctrl.unit
    · rfl
    · exact cmToInch_zero hok

/-- Settles O53: the four registers of the control state in the table of owners. -/
theorem controlStateOwnership : Obligations.ControlStateOwnership := by
  intro i s hs
  obtain ⟨t, ht, hown⟩ := exec_respectsOwners i hs
  exact ⟨t, ht, hown .opState, hown .unit, hown .threshold, hown .stable⟩

end Sys2Proof.Machine
end

section
/-! PROOFS. The statements of 45_ranging_fsm about what is shown: the threshold in SETUP (R203 to R208, R213), a
distance or the error (R211, R212), and the ranging cycle (R201, R210). -/

namespace Sys2Proof.Machine

/-! ## The threshold on the display -/

/-- No ACK cycle has passed: the levels to come are the same. -/
theorem BusStill.ackLevels {s t : State} (h : BusStill s t) (n : Nat) : ackLevels t n = ackLevels s n := by
  rw [h.acked.ackLevels, Nat.zero_add, List.drop_zero]

theorem Emitted.trans {s t u : State} {es es' : List TraceEvent} (h : Emitted s t es) (g : Emitted t u es') :
    Emitted s u (es ++ es') := by
  unfold Emitted at *
  rw [g, h, List.reverse_append, List.append_assoc]

/-- The control state has become `c`, the display shows its threshold in its unit, the LEDs stay; `after` follows the
digit update in the trace. -/
structure ThresholdShown (c : Ctrl) (after : List TraceEvent) (s t : State) : Prop where
  ctrl : t.ctrl = c
  thru : t.work.thru = thresholdIn s.cfg c.unit c.threshold
  frame : t.work.frame = frameOf s.cfg (numToText t.work.thru.toNat)
  trace : Emitted s t (updateEvents s.cfg t.work.frame (ackLevels s 6) ++ after)
  leds : t.leds = s.leds

theorem ThresholdShown.update {c : Ctrl} {s t : State} (h : ThresholdShown c [] s t) :
    Emitted s t (updateEvents s.cfg t.work.frame (ackLevels s 6)) := by simpa using h.trace

/-- SHOW_THRESHOLD shows the threshold of the control state as it stands. -/
theorem runs_showThreshold_shown : Runs showThreshold fun s _ t => ThresholdShown s.ctrl [] s t :=
  runs_showThreshold.mono fun s _ t ⟨hpart, hwork, _⟩ => by
    refine ⟨hpart.still.ctrl, by rw [hwork], by rw [hwork], ?_, hpart.leds⟩
    rw [hwork, List.append_nil]
    exact hpart.trace

/-- After a write of the control state what is shown is the threshold it left. -/
theorem runs_putCtrl_bind_shown (f : Ctrl → Ctrl) {after : List TraceEvent} {m : Op Unit}
    (hm : Runs m fun s _ t => ThresholdShown s.ctrl after s t) :
    Runs (putCtrl f >>= fun _ => m) fun s _ t => ThresholdShown (f s.ctrl) after s t :=
  (Runs.bind (runs_putCtrl_frame f) fun _ => hm).mono fun _ _ _ ⟨_, _, ⟨hstill, _, hctrl, _, htrace⟩, hshown⟩ => by
    obtain ⟨hc, hthru, hframe, hemitted, hleds⟩ := hshown
    rw [hctrl] at hc hthru
    rw [hstill.cfg] at hthru hframe hemitted
    rw [hstill.bus.ackLevels, Emitted, htrace] at hemitted
    exact ⟨hc, hthru, hframe, hemitted, hleds.trans hstill.leds⟩

theorem runs_mUp : Runs mUp fun s _ t => ThresholdShown { s.ctrl with opState := 1 } [] s t :=
  runs_putCtrl_bind_shown _ runs_showThreshold_shown

theorem runs_mDown : Runs mDown fun s _ t => ThresholdShown { s.ctrl with opState := 1 } [] s t :=
  runs_putCtrl_bind_shown _ runs_showThreshold_shown

/-- A delay adds its marker to the trace and leaves what is shown. -/
theorem runs_sNone : Runs sNone fun s _ t => ThresholdShown s.ctrl [.delay (.param .setupTick)] s t :=
  (Runs.bind runs_showThreshold_shown fun _ => runs_delay_marker _).mono fun _ _ _ ⟨_, _, hshown, hdrove, _, hleds⟩ => by
    obtain ⟨hc, hthru, hframe, hemitted, hl⟩ := hshown
    rw [← hdrove.work] at hthru hframe hemitted
    rw [List.append_nil] at hemitted
    exact ⟨hdrove.still.ctrl.trans hc, hthru, hframe, hemitted.trans hdrove.trace, hleds.trans hl⟩

theorem runs_sUp : Runs sUp fun s _ t =>
    ThresholdShown { s.ctrl with threshold := adjustThreshold s.ctrl.threshold 10 } [.delay (.param .setupTick)] s t :=
  runs_putCtrl_bind_shown _ runs_sNone

theorem runs_sDown : Runs sDown fun s _ t =>
    ThresholdShown { s.ctrl with threshold := adjustThreshold s.ctrl.threshold (-10) } [.delay (.param .setupTick)] s t :=
  runs_putCtrl_bind_shown _ runs_sNone

/-- Settles O43: the two arms are one operation, and it shows the threshold. -/
theorem enteringSetupShowsThreshold : Obligations.EnteringSetupShowsThreshold := by
  rintro s hs i (rfl | rfl)
  · exact runs_mUp.launch _ hs fun _ _ h => ⟨h.ctrl, h.thru, h.frame, h.update, h.leds⟩
  · exact runs_mDown.launch _ hs fun _ _ h => ⟨h.ctrl, h.thru, h.frame, h.update, h.leds⟩

/-- S_MODE (R206): the write of STATE, then the delay. -/
theorem runs_sMode : Runs sMode fun s _ t => t.ctrl = { s.ctrl with opState := 0 } ∧ t.work = s.work ∧
    Emitted s t [.delay (.param .setupTick)] :=
  (Runs.bind (runs_putCtrl_frame _) fun _ => runs_delay_marker _).mono
    fun _ _ _ ⟨_, _, ⟨_, _, hctrl, hwork, htrace⟩, hdrove, _⟩ =>
      ⟨hdrove.still.ctrl.trans hctrl, hdrove.work.trans hwork, hdrove.trace.trans (congrArg _ htrace)⟩

/-- Where the control state has become the old one with another threshold, the threshold it holds is that one, and the
one that is shown. -/
theorem ThresholdShown.threshold {x : Dist} {after : List TraceEvent} {s t : State}
    (h : ThresholdShown { s.ctrl with threshold := x } after s t) :
    t.ctrl = { s.ctrl with threshold := t.ctrl.threshold } ∧ t.ctrl.threshold = x ∧
      t.work.thru = thresholdIn s.cfg s.ctrl.unit t.ctrl.threshold := by
  rw [h.ctrl]
  exact ⟨rfl, rfl, h.thru⟩

/-- Settles O44: `runs_sMode`; each other arm shows the threshold it leaves. -/
theorem setupArms : Obligations.SetupArms := by
  refine fun s hs => ⟨runs_sMode.launch _ hs fun _ _ h => h, ?_⟩
  rintro i (rfl | rfl | rfl)
  · refine runs_sNone.launch _ hs fun _ t h => ?_
    obtain ⟨hctrl, hx, hthru⟩ := h.threshold
    exact ⟨hctrl, congrArg BitVec.toNat hx, hthru, h.frame, h.trace, h.leds⟩
  · refine runs_sUp.launch _ hs fun _ t h => ?_
    obtain ⟨hctrl, hx, hthru⟩ := h.threshold
    exact ⟨hctrl, (congrArg BitVec.toNat hx).trans (adjustThreshold_up _), hthru, h.frame, h.trace, h.leds⟩
  · refine runs_sDown.launch _ hs fun _ t h => ?_
    obtain ⟨hctrl, hx, hthru⟩ := h.threshold
    exact ⟨hctrl, (congrArg BitVec.toNat hx).trans (adjustThreshold_down _), hthru, h.frame, h.trace, h.leds⟩

/-! ## A distance or the error on the display and the LEDs -/

theorem distanceIn_toNat (u : MeasureUnit) (raw : Nat) :
    (distanceIn u raw).toNat = if u = .centimeters then min (raw / 58) 400 else min (raw / 148) 157 := by
  cases u
  · exact ticksToCm_toNat raw
  · exact ticksToInch_toNat raw

/-- With SCLK at rest the storage register holds the pattern that is shown. -/
theorem Shown.store {text : Text} {p : Byte} {s t : State} (h : Shown text p s t) (hclk : s.pins.sclk = false) :
    t.leds.store = p := by rw [h.leds hclk]

/-- Settles O47: the laws of the three operations, each at a launch. -/
theorem showOperations : Obligations.ShowOperations := by
  intro s raw hs hclk
  refine ⟨(runs_showDistance (s.cfg.ticks raw)).launch _ hs fun _ t ⟨hshown, hwork⟩ => ?_,
    runs_showThreshold_shown.launch _ hs fun _ t h => ⟨h.thru, h.frame, h.update, h.leds, h.ctrl⟩,
    runs_showError.launch _ hs fun _ t ⟨hshown, hwork⟩ => ?_⟩
  · rw [State.setResult_work, hwork]
    exact ⟨distanceIn_toNat _ _, rfl, rfl, hshown.trace, hshown.store hclk, hshown.still.ctrl⟩
  · rw [State.setResult_work, hwork]
    exact ⟨rfl, hshown.trace, hshown.store hclk, hshown.still.ctrl⟩

/-! ## The ranging cycle -/

/-- What a ranging cycle leaves (R210): RAW is the result of MEASURE_RAW launched where the cycle began; `after` follows
the pattern in the trace. -/
structure EchoShown (after : List TraceEvent) (s t : State) : Prop where
  measured : ∃ m, exec (.measureRaw s.cfg.measureTimeout) s = .next m ∧ m.result = .ticks t.work.raw
  ctrl : t.ctrl = s.ctrl
  edge : t.capu.edge = .rising
  error : t.work.raw = 0 → t.leds.store = 0 ∧ t.work.frame = frameOf s.cfg s.cfg.errText
  distance : t.work.raw ≠ 0 → t.work.dist = distanceIn s.ctrl.unit t.work.raw ∧
    t.work.thru = thresholdIn s.cfg s.ctrl.unit s.ctrl.threshold ∧
    t.work.frame = frameOf s.cfg (numToText t.work.dist.toNat) ∧ t.leds.store = ledPattern t.work.dist t.work.thru
  trace : Emitted s t ([.write .trig true, .delay (.param .trig), .write .trig false] ++
    updateEvents s.cfg t.work.frame (ackLevels s 6) ++ patternEvents t.leds.store ++ after)

theorem runs_rangingCycle_shown : Runs rangingCycle fun s _ t => s.pins.sclk = false → EchoShown [] s t :=
  Runs.mono runs_rangingCycle fun s _ t h hclk => by
    obtain ⟨⟨echo, m, hm, hraw, herror, hdistance⟩, hctrl, _, _, hedge, _, p, _, hstore, htrace⟩ := h
    subst hraw
    refine ⟨⟨m.setResult (.ticks t.work.raw), congrArg _ (run_ok hm), rfl⟩, hctrl, hedge, herror hclk, hdistance hclk, ?_⟩
    rw [hstore hclk, List.append_nil]
    exact htrace

/-- M_NONE (R201): the delay leaves what the cycle showed. -/
theorem runs_mNone_shown : Runs mNone fun s _ t => s.pins.sclk = false → EchoShown [.delay (.param .gap)] s t :=
  (Runs.bind runs_rangingCycle_shown fun _ => runs_delay_marker _).mono
    fun s _ t ⟨_, u, hcycle, hdrove, _, hleds⟩ hclk => by
      obtain ⟨hmeasured, hctrl, hedge, herror, hdistance, htrace⟩ := hcycle hclk
      rw [← hdrove.work] at hmeasured herror hdistance htrace
      rw [← hleds] at herror hdistance htrace
      rw [List.append_nil] at htrace
      exact ⟨hmeasured, hdrove.still.ctrl.trans hctrl, hdrove.still.edge.trans hedge, herror, hdistance,
        htrace.trans hdrove.trace⟩

/-- Settles O48: what the cycle leaves, without and with the delay of M_NONE. -/
theorem rangingCycleShowsResult : Obligations.RangingCycleShowsResult := by
  rintro s i hs hclk (rfl | rfl)
  · obtain ⟨_, t, ht, _, h⟩ := runs_rangingCycle_shown.run (fun _ => .unit) hs
    obtain ⟨⟨m, hm, hresult⟩, hctrl, hedge, herror, hdistance, htrace⟩ := h hclk
    exact ⟨t.setResult .unit, m, congrArg _ ht, hm, hresult, hctrl, hedge, herror, hdistance, htrace⟩
  · obtain ⟨_, t, ht, _, h⟩ := runs_mNone_shown.run (fun _ => .unit) hs
    obtain ⟨⟨m, hm, hresult⟩, hctrl, hedge, herror, hdistance, htrace⟩ := h hclk
    exact ⟨t.setResult .unit, m, congrArg _ ht, hm, hresult, hctrl, hedge, herror, hdistance, htrace⟩

end Sys2Proof.Machine
end

section
/-! PROOFS. The statement of 46_external_services: what a delay (R230, R231) and the logger (R232, R233) leave. -/

namespace Sys2Proof.Machine

/-- R230, R231: a delay that is called is one micro-step, which leaves the marker. -/
theorem run_delay_call {s t : State} (h : s.window = .ok t) :
    run (delay .call) (fun _ => .unit) s = (t.addTrace (.delay .call)).setResult .unit :=
  run_ok (act_ok h)

/-- Settles O49: the logger returns its unit at once; each of the two delays runs the one operation of
`run_delay_call`, whatever its number. -/
theorem servicesHaveNoEffect : Obligations.ServicesHaveNoEffect := fun _ _ _ _ =>
  ⟨rfl, rfl, fun _ hwindow =>
    have marker := congrArg Host.Outcome.next (run_delay_call hwindow)
    ⟨marker, marker⟩⟩

end Sys2Proof.Machine
end

section
/-! PROOFS. The statements of 70_reset_and_hazards about RESET from any state (R34, R270, R271) and about BOOT (R273). -/

namespace Sys2Proof.Machine

/-- The next RESET takes the draw at the head of ENV's queue (R34, log 5). -/
theorem nextReset_of_cons {e : Env} {d : ResetDraw} {more : List ResetDraw} (h : e.resets = d :: more) :
    e.nextReset = d := by
  unfold Env.nextReset
  rw [h]

/-- Settles O50: the registers with a value of their own by the definition of RESET, the others as drawn. -/
theorem resetRestoresDefaults : Obligations.ResetRestoresDefaults := by
  refine fun s => ⟨s.coreReset, rfl, rfl, rfl, rfl, rfl, rfl, rfl, rfl, rfl, rfl, fun d more hdraw => ⟨?_, ?_, ?_⟩⟩
  · exact congrArg List.tail hdraw
  · exact congrArg (capuReset s.cfg) (nextReset_of_cons hdraw)
  · exact congrArg (workReset s.cfg) (nextReset_of_cons hdraw)

/-- BOOT with BRIGHT_INIT none goes into the loop and does nothing else (R273). -/
theorem boot_none {s : State} (h : s.cfg.brightInit = none) : boot s = .ok ((), s.setSeq .loop) := by
  unfold boot
  rw [bind_ok (query_apply _ s), h]
  rfl

/-- BOOT with a level in BRIGHT_INIT sends the brightness command and goes into the loop (R273, R151). -/
theorem boot_some {s : State} {l : BitVec 3} (h : s.cfg.brightInit = some l) :
    boot s = (setBrightness (l.setWidth 8) >>= fun _ => goto .loop) s := by
  unfold boot
  rw [bind_ok (query_apply _ s), h]

/-- Settles O52: `boot_none`, or `runs_setBrightness` with a level that has nothing to clamp. -/
theorem bootSendsBrightness : Obligations.BootSendsBrightness := by
  intro s hs
  cases hinit : s.cfg.brightInit with
  | none =>
    exact ⟨_, congrArg Host.Outcome.next (run_ok (boot_none hinit)), rfl, rfl, fun _ => ⟨rfl, rfl, rfl⟩, nofun⟩
  | some l =>
    obtain ⟨_, t, hsend, -, hpart, -⟩ := (runs_setBrightness (l.setWidth 8) s).ends hs
    have hboot : boot s = .ok ((), t.setSeq .loop) := (boot_some hinit).trans (bind_ok hsend)
    refine ⟨_, congrArg Host.Outcome.next (run_ok hboot), rfl, hpart.still.ctrl, nofun, fun l' hl' => ?_⟩
    cases hl'
    rw [← brightCommand_setWidth]
    exact hpart.trace

end Sys2Proof.Machine
end

section
/-! PROOFS. The statement of 70_reset_and_hazards that a RESET abandons a transaction (R270, R271): how many micro-steps a
RESET to come leaves to each part of it, and how much the trace can grow in them. -/

namespace Sys2Proof.Machine

/-! ## Micro-steps before a RESET -/

/-- n micro-steps are counted, and the trace has grown by at most one event for each. -/
def Elapsed (n : Nat) (s t : State) : Prop := t.micro = s.micro + n ∧ ∃ l, l.length ≤ n ∧ t.trace = l ++ s.trace

theorem Elapsed.zero {s t : State} (hmicro : t.micro = s.micro) (htrace : t.trace = s.trace) : Elapsed 0 s t :=
  ⟨hmicro, [], le_rfl, htrace⟩

theorem Elapsed.trans {m n : Nat} {s t u : State} (h : Elapsed m s t) (g : Elapsed n t u) : Elapsed (m + n) s u := by
  obtain ⟨hmicro, l, hl, htrace⟩ := h
  obtain ⟨hmicro', l', hl', htrace'⟩ := g
  refine ⟨by omega, l' ++ l, ?_, by rw [htrace', htrace, List.append_assoc]⟩
  rw [List.length_append]
  omega

/-- The state of a RESET that came k micro-steps after s, with the events behind it still to come (R270, log 17). -/
def AbandonedAt (k : Nat) (rest : List (Nat × EnvEvent)) (s t : State) : Prop :=
  Aborted t ∧ t.env.schedule = rest ∧ Elapsed k s t

/-- An operation of n micro-steps: a RESET before one of them abandons it, a later one comes n micro-steps nearer. -/
def TakesMicros {α : Type} (n : Nat) (m : Op α) : Prop :=
  ∀ (s : State) (k : Nat) (rest : List (Nat × EnvEvent)), s.env.schedule = (k, .reset) :: rest →
    (k < n → ∃ t, m s = .error t ∧ AbandonedAt k rest s t) ∧
    (n ≤ k → ∃ a t, m s = .ok (a, t) ∧ t.env.schedule = (k - n, .reset) :: rest ∧ Elapsed n s t)

section
variable {α β : Type}

theorem TakesMicros.pure (a : α) : TakesMicros 0 (Pure.pure a : Op α) := fun s _ _ hs =>
  ⟨nofun, fun _ => ⟨a, s, rfl, hs, .zero rfl rfl⟩⟩

theorem TakesMicros.query (g : State → α) : TakesMicros 0 (Machine.query g) := fun s _ _ hs =>
  ⟨nofun, fun _ => ⟨g s, s, rfl, hs, .zero rfl rfl⟩⟩

theorem TakesMicros.bind {n n' : Nat} {m : Op α} {f : α → Op β} (hm : TakesMicros n m)
    (hf : ∀ a, TakesMicros n' (f a)) : TakesMicros (n + n') (m >>= f) := by
  intro s k rest hs
  obtain ⟨hbefore, hbehind⟩ := hm s k rest hs
  by_cases hk : k < n
  · refine ⟨fun _ => ?_, fun hle => by omega⟩
    obtain ⟨t, hm, habandoned⟩ := hbefore hk
    exact ⟨t, bind_error hm, habandoned⟩
  · obtain ⟨a, t, hm, hsched, helapsed⟩ := hbehind (by omega)
    obtain ⟨hbefore', hbehind'⟩ := hf a t (k - n) rest hsched
    refine ⟨fun hlt => ?_, fun hle => ?_⟩
    · obtain ⟨u, hu, haborted, hrest, helapsed'⟩ := hbefore' (by omega)
      refine ⟨u, (bind_ok hm).trans hu, haborted, hrest, ?_⟩
      rw [← Nat.add_sub_cancel' (Nat.le_of_not_lt hk)]
      exact helapsed.trans helapsed'
    · obtain ⟨b, u, hu, hsched', helapsed'⟩ := hbehind' (by omega)
      exact ⟨b, u, (bind_ok hm).trans hu, by rw [hsched', Nat.sub_sub], helapsed.trans helapsed'⟩

end

/-- One micro-step that leaves at most one event in the trace. -/
theorem TakesMicros.act {f : State → State} (hsched : ∀ s, (f s).env.schedule = s.env.schedule)
    (hmicro : ∀ s, (f s).micro = s.micro) (htrace : ∀ s, ∃ l, l.length ≤ 1 ∧ (f s).trace = l ++ s.trace) :
    TakesMicros 1 (Machine.act f) := by
  intro s k rest hs
  cases k with
  | zero =>
    refine ⟨fun _ => ⟨_, micro_error (window_reset hs), ?_, rfl, .zero rfl rfl⟩, fun h => by omega⟩
    exact ⟨rfl, rfl, rfl, rfl, rfl⟩
  | succ k =>
    refine ⟨fun h => by omega, fun _ => ⟨(), _, act_ok (window_later hs), ?_, ?_, ?_⟩⟩
    · exact hsched _
    · exact hmicro _
    · exact htrace _

/-! ## The parts of a transaction -/

theorem takesMicros_pinWrite (p : Pin) (v : Bool) : TakesMicros 1 (pinWrite p v) :=
  .act (fun s => s.drive_schedule _ _) (fun s => s.drive_micro _ _) fun s => ⟨[_], le_rfl, s.drive_trace _ _⟩

theorem takesMicros_dirWrite (d : Dir) : TakesMicros 1 (dirWrite d) := by
  cases d with
  | out => exact .act (fun s => s.drive_schedule _ _) (fun s => s.drive_micro _ _) fun s => ⟨[_], le_rfl, s.drive_trace _ _⟩
  | inPullup =>
    refine .act (State.setDir_schedule _) (fun s => ?_) fun s => ?_
    · obtain ⟨-, -, -, -, -, -, -, -, hmicro, -⟩ := State.setDir_inPullup_same s
      exact hmicro
    · obtain ⟨-, htrace, -⟩ := State.setDir_inPullup_same s
      exact ⟨[_], le_rfl, htrace⟩

theorem takesMicros_delay (k : DelayKind) : TakesMicros 1 (delay k) :=
  .act (fun _ => rfl) (fun _ => rfl) fun _ => ⟨[_], le_rfl, rfl⟩

theorem takesMicros_putWork (f : Work → Work) : TakesMicros 1 (putWork f) :=
  .act (fun _ => rfl) (fun _ => rfl) fun _ => ⟨[], Nat.zero_le 1, rfl⟩

theorem takesMicros_sampleAck : TakesMicros 1 sampleAck :=
  .act (fun _ => rfl) (fun _ => rfl) fun _ => ⟨[_], le_rfl, rfl⟩

theorem takesMicros_twStart : TakesMicros 5 twStart :=
  (takesMicros_pinWrite _ _).bind fun _ => (takesMicros_pinWrite _ _).bind fun _ => (takesMicros_delay _).bind fun _ =>
  (takesMicros_pinWrite _ _).bind fun _ => takesMicros_delay _

theorem takesMicros_twBit (b : Bool) : TakesMicros 5 (twBit b) :=
  (takesMicros_pinWrite _ _).bind fun _ => (takesMicros_pinWrite _ _).bind fun _ => (takesMicros_delay _).bind fun _ =>
  (takesMicros_pinWrite _ _).bind fun _ => takesMicros_delay _

theorem takesMicros_twAck : TakesMicros 6 twAck :=
  (takesMicros_pinWrite _ _).bind fun _ => (takesMicros_dirWrite _).bind fun _ => (takesMicros_pinWrite _ _).bind fun _ =>
  takesMicros_sampleAck.bind fun _ => (takesMicros_pinWrite _ _).bind fun _ => (takesMicros_dirWrite _).bind fun _ =>
  .query _

theorem takesMicros_twStop : TakesMicros 7 twStop :=
  (takesMicros_pinWrite _ _).bind fun _ => (takesMicros_pinWrite _ _).bind fun _ => (takesMicros_delay _).bind fun _ =>
  (takesMicros_pinWrite _ _).bind fun _ => (takesMicros_delay _).bind fun _ => (takesMicros_pinWrite _ _).bind fun _ =>
  takesMicros_delay _

theorem takesMicros_twBits (left : Nat) : TakesMicros (7 * left) (twBits left) := by
  induction left with
  | zero => exact .pure ()
  | succ left ih =>
    have h := (takesMicros_putWork fun w => { w with bi := BitVec.ofNat 4 (7 - left) }).bind fun _ =>
      (TakesMicros.query fun s => s.work.sh.getLsbD 0).bind fun b => (takesMicros_twBit b).bind fun _ =>
      (takesMicros_putWork fun w => { w with sh := w.sh >>> 1 }).bind fun _ => ih
    rwa [show 1 + (0 + (5 + (1 + 7 * left))) = 7 * (left + 1) by omega] at h

theorem takesMicros_twByte (v : Byte) : TakesMicros 63 (twByte v) :=
  (takesMicros_putWork _).bind fun _ => (takesMicros_twBits 8).bind fun _ => takesMicros_twAck

theorem takesMicros_twBytes (bytes : List Byte) : TakesMicros (63 * bytes.length) (twBytes bytes) := by
  induction bytes with
  | nil => exact .pure ()
  | cons v rest ih =>
    have h := (takesMicros_twByte v).bind fun _ => ih
    rwa [Nat.add_comm 63] at h

theorem takesMicros_twTransaction (bytes : List Byte) :
    TakesMicros (12 + 63 * bytes.length) (twTransaction bytes) := by
  have h := takesMicros_twStart.bind fun _ => (takesMicros_twBytes bytes).bind fun _ => takesMicros_twStop
  rwa [show 5 + (63 * bytes.length + 7) = 12 + 63 * bytes.length by omega] at h

/-- Settles O51: a transaction takes 12 + 63 n micro-steps, and the RESET comes before one of them. -/
theorem resetAbandonsTransaction : Obligations.ResetAbandonsTransaction := by
  intro s k rest bytes _ hk hs
  obtain ⟨t, ht, habort, hrest, hmicro, l, hl, htrace⟩ := (takesMicros_twTransaction bytes s k rest hs).1 hk
  exact ⟨t, congrArg Host.Outcome.next (run_error ht), habort.pins, habort.ctrl, habort.edge, habort.seq, habort.result,
    hrest, hmicro, l, hl, htrace⟩

end Sys2Proof.Machine
end

section
/-! PROOFS. The statement of 70_reset_and_hazards about an echo that ends before the unit is switched to the falling edge
(R275): EDGE does not select its end, which so passes unseen. -/

namespace Sys2Proof.Machine

/-! ## A falling edge that EDGE does not select -/

/-- The echo's end has passed, or it comes in one of the next n windows; no other event is to come. -/
def Fading (n : Nat) (s : State) : Prop :=
  Quiet s ∨ s.env.echo = true ∧ ∃ j, j < n ∧ s.env.schedule = [(j, .echo false)]

/-- With EDGE = RISING the echo's end changes ECHO only (R102). -/
theorem window_unselected_fall {s : State} (hs : s.env.schedule = [(0, .echo false)]) (hecho : s.env.echo = true)
    (hedge : s.capu.edge = .rising) :
    s.window = .ok (((s.setEnv { s.env with echo := false }).setSchedule []).countMicro) := by
  rw [window_echo hs, echoTo_of_unselected hecho (by rw [hedge]; exact nofun)]
  exact window_quiet rfl

/-- A window with the echo's end still to come leaves the capture unit as it was. -/
theorem window_fading {s : State} {n : Nat} (h : Fading (n + 1) s) (hedge : s.capu.edge = .rising) :
    ∃ t, s.window = .ok t ∧ Fading n t ∧ t.capu = s.capu ∧ t.work = s.work ∧ t.cfg = s.cfg := by
  rcases h with hquiet | ⟨hecho, j, hj, hs⟩
  · exact ⟨_, window_quiet hquiet, .inl hquiet, rfl, rfl, rfl⟩
  · cases j with
    | zero => exact ⟨_, window_unselected_fall hs hecho hedge, .inl rfl, rfl, rfl, rfl⟩
    | succ j => exact ⟨_, window_later hs, .inr ⟨hecho, j, by omega, rfl⟩, rfl, rfl, rfl⟩

/-- A micro-step with the echo's end still to come starts from the capture unit as it was. -/
theorem act_fading {f : State → State} (hf : ∀ s, (f s).env = s.env) {s : State} {n : Nat} (h : Fading (n + 1) s)
    (hedge : s.capu.edge = .rising) :
    ∃ t, act f s = .ok ((), f t) ∧ Fading n (f t) ∧ t.capu = s.capu ∧ t.work = s.work ∧ t.cfg = s.cfg := by
  obtain ⟨t, hwindow, hfading, hcapu, hwork, hcfg⟩ := window_fading h hedge
  refine ⟨t, act_ok hwindow, ?_, hcapu, hwork, hcfg⟩
  unfold Fading Quiet
  rw [hf]
  exact hfading

theorem Fading.quiet {s : State} (h : Fading 0 s) : Quiet s :=
  h.resolve_right fun ⟨_, _, hj, _⟩ => Nat.not_lt_zero _ hj

/-! ## The measurement of a lost echo -/

/-- The second wait with no event to come and CF = 0 times out and writes POLLN alone. -/
theorem secondWait_times_out (timeout : Nat) {s : State} (hs : Quiet s) (hcf : s.capu.cf = false)
    (hp : s.work.polln < max (s.cfg.polls timeout) 1) :
    ∃ t, secondWait timeout s = .ok (.timedOut, t) ∧ Quiet t ∧ t.capu = s.capu ∧
      t.work = { s.work with polln := t.work.polln } := by
  have hwait := secondWait_quiet_clear s.micro timeout hcf hp
  rw [waiting_eq hs rfl] at hwait
  exact ⟨_, hwait, rfl, rfl, rfl⟩

/-- M5 to M11 with the echo's end in a window up to that of SET_EDGE_FALLING: the second wait starts with CF = 0 and no
event to come. -/
theorem measureFall_fading (timeout : Nat) {s : State} (h : Fading 3 s) (hedge : s.capu.edge = .rising)
    (hp : s.work.polln < max (s.cfg.polls timeout) 1) :
    ∃ t, measureFall timeout s = .ok (0, t) ∧ t.capu.edge = .rising ∧ t.capu.cf = false ∧
      t.work.rise = s.capu.ccr ∧ t.work.fall = s.work.fall := by
  obtain ⟨t1, hlatch, hfading1, hcapu1, hwork1, hcfg1⟩ :=
    act_fading (f := fun s => s.setWork { s.work with rise := s.capu.ccr }) (fun _ => rfl) h hedge
  obtain ⟨t2, hclear, hfading2, hcapu2, hwork2, hcfg2⟩ :=
    act_fading (f := fun s => s.setCapu s.capu.clearFlag) (fun _ => rfl) hfading1
      ((congrArg Capu.edge hcapu1).trans hedge)
  rw [State.setWork_capu, hcapu1] at hcapu2
  obtain ⟨t3, hswitch, hfading3, hcapu3, hwork3, hcfg3⟩ :=
    act_fading (f := fun s => s.setCapu { s.capu with edge := .falling }) (fun _ => rfl) hfading2
      ((congrArg Capu.edge hcapu2).trans hedge)
  rw [State.setCapu_work, hwork2, State.setWork_work, hwork1, hcapu1] at hwork3
  rw [State.setCapu_cfg, hcfg2, State.setWork_cfg, hcfg1] at hcfg3
  obtain ⟨t4, hwait, hquiet, hcapu4, hwork4⟩ :=
    secondWait_times_out timeout (s := t3.setCapu { t3.capu with edge := .falling }) hfading3.quiet
      (by rw [State.setCapu_capu, hcapu3]; rfl) (by rw [State.setCapu_work, hwork3, State.setCapu_cfg, hcfg3]; exact hp)
  rw [State.setCapu_capu, hcapu3] at hcapu4
  rw [State.setCapu_work, hwork3] at hwork4
  have hrestore : setEdge .rising t4 = .ok ((), _) := act_ok (window_quiet hquiet)
  refine ⟨_, (bind_ok hlatch).trans <| (bind_ok hclear).trans <| (bind_ok hswitch).trans <|
    (bind_ok hwait).trans (bind_ok hrestore), rfl, ?_, ?_, ?_⟩
  · exact congrArg Capu.cf hcapu4
  · exact congrArg Work.rise hwork4
  · show t4.work.fall = _
    rw [hwork4]

/-- MEASURE_RAW up to M4, where the echo rises before poll r + 1 and its end is due j windows later. -/
theorem measureRaw_captured (timeout : Nat) {s : State} {r j : Nat} (he : s.env.echo = false)
    (hr : r < max (s.cfg.polls timeout) 1) (hj : j ≤ 4)
    (hs : s.env.schedule = [(6 + 5 * r, .echo true), (j, .echo false)]) :
    ∃ t, measureRaw timeout s = measureFall timeout t ∧ Fading 3 t ∧
      t.capu = ⟨s.capu.cnt, s.capu.cnt, .rising, true⟩ ∧ t.work = { s.work with polln := r } ∧ t.cfg = s.cfg := by
  rw [Nat.add_comm 6] at hs
  obtain ⟨t, hcapu, henv, hwork, -, -, hcfg, -, -, hrun⟩ := measureRaw_wait timeout hs
  have hcapture := waiting_capture t true [(j, .echo false)] r (t.micro + 5 * r) (by rw [henv]; exact he)
    (by rw [hcapu]; rfl) (by rw [hcapu])
  have hfading : Fading 5 ((t.captured true).waiting [(j, .echo false)] r (t.micro + 5 * r)) :=
    .inr ⟨rfl, j, by omega, rfl⟩
  obtain ⟨u, hu, hfading1, hcapu1, hwork1, hcfg1⟩ := window_fading hfading rfl
  obtain ⟨v, hv, hfading2, hcapu2, hwork2, hcfg2⟩ := window_fading hfading1 (congrArg Capu.edge hcapu1)
  have hwait := pollLoop_hit (s := t) (p := 0) (m := t.micro) (j := r) (fuel := s.cfg.polls timeout)
    (timeout := s.cfg.polls timeout) (by rw [hcfg]; exact Config.polls_lt _ _) (by rw [hcapu])
    (by rwa [Nat.zero_add]) (Nat.le_succ_of_le (Nat.sub_le _ _)) (by rw [Nat.zero_add]; exact hcapture.trans hu)
    (congrArg Capu.cf hcapu1) hv
  rw [waiting_eq (by rw [henv]) (by rw [hwork])] at hwait
  refine ⟨v, hrun.trans (bind_ok hwait), hfading2, ?_, ?_, hcfg2.trans (hcfg1.trans hcfg)⟩
  · rw [hcapu2, hcapu1]
    show (⟨t.capu.cnt, t.capu.cnt, .rising, true⟩ : Capu) = _
    rw [hcapu]
  · rw [hwork2, hwork1]
    show { t.work with polln := r } = _
    rw [hwork]

/-- Settles O17: `measureRaw_captured`, then `measureFall_fading`. -/
theorem echoEndingBeforeSwitchIsLost : Obligations.EchoEndingBeforeSwitchIsLost := by
  intro s timeout r j he hr hj hs
  obtain ⟨t, hrise, hfading, hcapu, hwork, hcfg⟩ := measureRaw_captured timeout he hr hj hs
  obtain ⟨u, hfall, hedge, hcf, hlatched, hkept⟩ := measureFall_fading timeout hfading (by rw [hcapu])
    (by rw [hwork, hcfg]; exact hr)
  exact ⟨_, exec_measureRaw_ok (hrise.trans hfall), rfl, hedge, hcf, hlatched.trans (by rw [hcapu]),
    hkept.trans (by rw [hwork])⟩

end Sys2Proof.Machine
end

section
/-! PROOFS. The statement of 60_exceptions on what a step answers (R240, R234, R92), and which configurations are allowed
(R187, R80, R215, R216, 00_scope section 4). -/

namespace Sys2Proof.Machine

/-! ## Which configurations are allowed -/

theorem bandsOk_iff (c : Config) : bandsOk c = true ↔
    c.upLo ≤ c.upHi ∧ c.upHi < c.downLo ∧ c.downLo ≤ c.downHi ∧ c.downHi ≤ c.modeTh ∧
      c.modeTh < 2 ^ c.adcBits - 1 := by
  simp only [bandsOk, Bool.and_eq_true, decide_eq_true_eq, and_assoc]

theorem timesOk_iff (c : Config) : timesOk c = true ↔
    1 ≤ c.measureTimeout ∧ c.measureTimeout < 2 ^ c.pollBits ∧ 10 ≤ c.tTrig ∧ c.tGap < c.tSetupTick := by
  simp only [timesOk, Bool.and_eq_true, decide_eq_true_eq, and_assoc]

theorem isLetter_iff (ch : Byte) : isLetter ch = true ↔
    (0x41 ≤ ch.toNat ∧ ch.toNat ≤ 0x5A) ∨ (0x61 ≤ ch.toNat ∧ ch.toNat ≤ 0x7A) := by
  simp only [isLetter, Bool.or_eq_true, Bool.and_eq_true, decide_eq_true_eq]
  exact Iff.rfl

/-- The characters the source shows besides letters (R80): the digits, the minus sign and the underscore. -/
theorem mem_sourceChars_iff (ch : Byte) :
    ch ∈ ([0x30, 0x31, 0x32, 0x33, 0x34, 0x35, 0x36, 0x37, 0x38, 0x39, 0x2D, 0x5F] : List Byte) ↔
      (0x30 ≤ ch.toNat ∧ ch.toNat ≤ 0x39) ∨ ch = 0x2D ∨ ch = 0x5F := by
  simp only [List.mem_cons, List.not_mem_nil, or_false]
  bv_omega

/-- Bit 7 is 0 in every cell exactly where it is 0 in everything that canonical cells of 8-bit codes read (R80). -/
theorem bit7_clear_iff {c : Config} (hwf : Mem.wf c.segmap = true) (hbelow : ∀ cell ∈ c.segmap, cell.1 < 256) :
    (∀ cell ∈ c.segmap, cell.2.getLsbD 7 = false) ↔ ∀ ch : Byte, (segment c ch).getLsbD 7 = false := by
  refine ⟨fun h ch => ?_, fun h cell hcell => ?_⟩
  · rcases Mem.read_blank_or_mem c.segmap ch.toNat with hblank | hmem
    · rw [segment, hblank]
      rfl
    · exact h (ch.toNat, Mem.read c.segmap ch.toNat) hmem
  · have hcode : (BitVec.ofNat 8 cell.1).toNat = cell.1 := Nat.mod_eq_of_lt (hbelow cell hcell)
    have hbit := h (BitVec.ofNat 8 cell.1)
    rwa [segment, hcode, Mem.read_of_mem hwf hcell] at hbit

theorem segmapOk_iff (c : Config) : segmapOk c = true ↔
    Mem.wf c.segmap = true ∧ (∀ cell ∈ c.segmap, cell.1 < 256) ∧
      (∀ ch : Byte, (0x30 ≤ ch.toNat ∧ ch.toNat ≤ 0x39) ∨ ch = 0x2D ∨ ch = 0x5F ∨
        (ch ∈ c.errText ∧ ((0x41 ≤ ch.toNat ∧ ch.toNat ≤ 0x5A) ∨ (0x61 ≤ ch.toNat ∧ ch.toNat ≤ 0x7A))) →
        segment c ch ≠ 0) ∧
      segment c 0x20 = 0 ∧ ∀ ch : Byte, (segment c ch).getLsbD 7 = false := by
  simp only [segmapOk, Mem.below, Bool.and_eq_true, decide_eq_true_eq, List.all_eq_true, List.mem_append,
    List.mem_filter, mem_sourceChars_iff, isLetter_iff, Bool.not_eq_true', and_assoc, or_assoc]
  refine and_congr_right fun hwf => and_congr_right fun hbelow => and_congr_right fun _ => and_congr_right fun _ => ?_
  exact bit7_clear_iff hwf hbelow

theorem cmToInch_of_table {c : Config} {values : Vector Dist 512} (h : c.cm2in = .table values) (cm : Dist) :
    cmToInch c cm = values[cm.toNat]'cm.isLt := by
  unfold cmToInch
  rw [h]
  rfl

/-- The first 401 values of a table are what it gives for 0 to 400. -/
theorem forall_mem_take_iff (values : Vector Dist 512) (p : Dist → Prop) :
    (∀ v ∈ values.toList.take (cmMax + 1), p v) ↔ ∀ cm : Dist, cm.toNat ≤ 400 → p (values[cm.toNat]'cm.isLt) := by
  refine ⟨fun h cm hcm => h _ (List.mem_take_iff_getElem.2 ⟨cm.toNat, ?_, ?_⟩), fun h v hv => ?_⟩
  · rw [Vector.length_toList, cmMax]
    omega
  · exact Vector.getElem_toList _
  · obtain ⟨i, hi, rfl⟩ := List.mem_take_iff_getElem.1 hv
    rw [Vector.length_toList, cmMax] at hi
    have hcode : (BitVec.ofNat ThrBits i).toNat = i := Nat.mod_eq_of_lt (show i < 2 ^ 9 by omega)
    have hvalue := h (BitVec.ofNat ThrBits i) (by omega)
    simp only [hcode] at hvalue
    rwa [Vector.getElem_toList]

theorem cm2inOk_iff (c : Config) : cm2inOk c = true ↔ ∀ values, c.cm2in = .table values →
    cmToInch c 0 = 0 ∧ ∀ cm : Dist, cm.toNat ≤ 400 → (cmToInch c cm).toNat ≤ 157 := by
  unfold cm2inOk
  cases hc : c.cm2in with
  | formula => exact iff_of_true rfl nofun
  | table values =>
    simp only [Bool.and_eq_true, List.all_eq_true, decide_eq_true_eq, forall_mem_take_iff, cmToInch_of_table hc,
      Cm2In.table.injEq, forall_eq']
    exact Iff.rfl

theorem configOk_iff (c : Config) : configOk c = true ↔
    bandsOk c = true ∧ timesOk c = true ∧ segmapOk c = true ∧ cm2inOk c = true := by
  rw [configOk, Bool.and_eq_true, Bool.and_eq_true, Bool.and_eq_true]
  exact ⟨fun ⟨⟨⟨hbands, hsegmap⟩, hcm2in⟩, htimes⟩ => ⟨hbands, htimes, hsegmap, hcm2in⟩,
    fun ⟨hbands, htimes, hsegmap, hcm2in⟩ => ⟨⟨⟨hbands, hsegmap⟩, hcm2in⟩, htimes⟩⟩

/-! ## What a step answers -/

theorem fetch_error {s : State} {w : OpWord} {more : List OpWord} {e : DecodeError} (hs : s.script = w :: more)
    (hd : decode w.space w.bytes = .error e) : fetch s = .error e := by
  unfold fetch
  rw [hs]
  simp only [hd]

/-- Only a launch in the script can be no operation (R92). -/
theorem fetch_cases (s : State) :
    (∃ i t, fetch s = .ok (i, t)) ∨
    (∃ w more e, s.script = w :: more ∧ decode w.space w.bytes = .error e ∧ fetch s = .error e) := by
  cases hs : s.script with
  | nil =>
    cases hq : s.seq with
    | idle => exact .inl ⟨_, _, fetch_idle hs hq⟩
    | loop => exact .inl ⟨_, _, fetch_loop hs hq⟩
  | cons w more =>
    cases hd : decode w.space w.bytes with
    | ok p => exact .inl ⟨_, _, fetch_script hs hd⟩
    | error e => exact .inr ⟨w, more, e, rfl, hd, fetch_error hs hd⟩

theorem launchRefusal_cases (c : Config) :
    launchRefusal c = none ∨ (c.timersReady = false ∧ launchRefusal c = some .launchPremise) ∨
    (c.timersReady = true ∧ configOk c = false ∧ launchRefusal c = some .badConfig) := by
  unfold launchRefusal
  cases c.timersReady with
  | false => exact .inr (.inl ⟨rfl, rfl⟩)
  | true =>
    cases configOk c with
    | false => exact .inr (.inr ⟨rfl, rfl, rfl⟩)
    | true => exact .inl rfl

theorem step_of_refusal {s : State} {r : Refusal} (h : launchRefusal s.cfg = some r) : step s = .refused r := by
  unfold step
  rw [h]

theorem step_of_fetch_error {s : State} {e : DecodeError} (hl : launchRefusal s.cfg = none) (hf : fetch s = .error e) :
    step s = .refused (.notAnOperation e) := by
  unfold step
  rw [hl, hf]

/-- OPX 46 to 63 is not assigned (R92). -/
theorem decodeOpx_unassigned {b : Byte} (hlo : 46 ≤ b.toNat) (hhi : b.toNat < 64) (rest : List Byte) :
    decodeOpx b rest = .error (.unassignedOpx b.toNat) := by
  unfold decodeOpx
  split
  case h_47 => exact if_pos hhi
  all_goals omega

/-- Settles O6: one equivalence for each of the constraints; what refuses a launch, then what `fetch` gives. -/
theorem onlyLaunchesAreRefused : Obligations.OnlyLaunchesAreRefused := by
  refine ⟨fun c => ?_, fun s => ?_, fun s b rest more hlo hhi hl hs => ?_⟩
  · rw [configOk_iff, bandsOk_iff, timesOk_iff, segmapOk_iff, cm2inOk_iff]
  · rcases launchRefusal_cases s.cfg with hl | ⟨htimers, hl⟩ | ⟨htimers, hconfig, hl⟩
    · rcases fetch_cases s with ⟨i, u, hf⟩ | ⟨w, more, e, hs, hd, hf⟩
      · obtain ⟨t, ht, -⟩ := exec_along closed_grows i u
        exact .inl ⟨t, (step_of_fetch hl hf).trans ht⟩
      · exact .inr (.inr (.inr ⟨w, more, e, hs, hd, step_of_fetch_error hl hf⟩))
    · exact .inr (.inl ⟨htimers, step_of_refusal hl⟩)
    · exact .inr (.inr (.inl ⟨htimers, hconfig, step_of_refusal hl⟩))
  · exact step_of_fetch_error hl (fetch_error hs (decodeOpx_unassigned hlo hhi rest))

end Sys2Proof.Machine
end
